-- ==== Sys2Proof/Word.lean ====
section
/-! DEFINITION. Word.lean: the widths the block works with (00_scope.md R7, R10, R11). Nothing is signed. -/

namespace Sys2Proof

/-- One byte: a symbol, a packed byte, a node's value, a byte on OUT. -/
abbrev Byte := BitVec 8

/-- A 32-bit word: RSPW of 00_scope.md R7, the `data` field, DBYTES, FINFO. -/
abbrev Word := BitVec 32

/-- A 64-bit command word: CMDW of 00_scope.md R7, 30_encoding.md R90. -/
abbrev Command := BitVec 64

/-- The index of an entry of the node memory, 0 to 510 (10_state.md R28, R29, R47). -/
abbrev NodeIdx := Fin 511

/-- A child field of a node entry: the index of the child, or `none` for NIL, "child absent" (10_state.md R47). -/
abbrev Child := Option NodeIdx

end Sys2Proof
end

