-- ==== Sys2Proof/Syntax.lean ====
section
/-! DEFINITION. Syntax.lean: the fifteen commands and their operands (30_encoding.md R92, R94, R110). -/

namespace Sys2Proof

/-- A command with its operands, one constructor for each row of spec/opcode_table.json. Every operand is the
unsigned value of its field (30_encoding.md R93), so it has exactly the field's width. -/
inductive Instr where
  /-- 44_system.md R211 -/
  | nop
  /-- 44_system.md R212 -/
  | rst
  /-- 44_system.md R214 -/
  | rdreg (r : Byte)
  /-- 40_histogram.md R131 -/
  | hclr
  /-- 40_histogram.md R132 -/
  | hacc (b : Byte)
  /-- 40_histogram.md R133 -/
  | hld (i : Byte) (v : Word)
  /-- 40_histogram.md R134 -/
  | hrd (i : Byte)
  /-- 41_tables.md R151 -/
  | cclr (b : Byte)
  /-- 41_tables.md R152 -/
  | capp (b : Byte) (bit : Bool)
  /-- 41_tables.md R153 -/
  | nld (n : BitVec 16) (v : Byte) (l r : BitVec 16)
  /-- 42_encoder.md R171 -/
  | ebegin
  /-- 42_encoder.md R172 -/
  | esym (b : Byte)
  /-- 42_encoder.md R174 -/
  | eend
  /-- 43_decoder.md R191 -/
  | dbegin (root : BitVec 16) (total : Word)
  /-- 43_decoder.md R193 -/
  | dbyte (b : Byte)
deriving DecidableEq, Repr

/-- The fifteen defined values of the `op` field, by name (30_encoding.md R94). -/
inductive Opcode where
  | nop | rst | rdreg | hclr | hacc | hld | hrd | cclr | capp | nld | ebegin | esym | eend | dbegin | dbyte
deriving DecidableEq, Repr

/-- The six formats of a command word (30_encoding.md R92). -/
inductive Format where
  | z | s | sb | sd | n | d
deriving DecidableEq, Repr

end Sys2Proof
end

