-- ==== Sys2Proof/Decode.lean ====
section
/-! DEFINITION. Decode.lean: the command word, its decoder and its encoder (30_encoding.md R90 to R98, R110). -/

namespace Sys2Proof

/-! ## Fields of a command word (30_encoding.md R91) -/

/-- `op`, bits 63:56. -/
def opField (w : Command) : Byte := w.extractLsb' 56 8

/-- `sym`, bits 55:48. -/
def symField (w : Command) : Byte := w.extractLsb' 48 8

/-- `idx`, bits 47:32. -/
def idxField (w : Command) : BitVec 16 := w.extractLsb' 32 16

/-- `data`, bits 31:0. -/
def dataField (w : Command) : Word := w.extractLsb' 0 32

/-- `data[15:0]`, the left child of format N. -/
def leftField (w : Command) : BitVec 16 := w.extractLsb' 0 16

/-- `data[31:16]`, the right child of format N. -/
def rightField (w : Command) : BitVec 16 := w.extractLsb' 16 16

/-- `data[0]`, the bit of format SB. -/
def bitField (w : Command) : Bool := w.getLsbD 0

/-- `w[63:32]`, the upper half of a word, which an IllegalCommand fault records (60_exceptions.md R271). -/
def upperHalf (w : Command) : Word := w.extractLsb' 32 32

/-! ## The opcode map (30_encoding.md R94) -/

/-- The column `op` of 30_encoding.md R94. -/
def Opcode.byte : Opcode → Byte
  | .nop => 0x00
  | .rst => 0x01
  | .rdreg => 0x02
  | .hclr => 0x10
  | .hacc => 0x11
  | .hld => 0x12
  | .hrd => 0x13
  | .cclr => 0x20
  | .capp => 0x21
  | .nld => 0x28
  | .ebegin => 0x30
  | .esym => 0x31
  | .eend => 0x32
  | .dbegin => 0x40
  | .dbyte => 0x41

/-- The column `format` of 30_encoding.md R94. -/
def Opcode.format : Opcode → Format
  | .nop => .z
  | .rst => .z
  | .rdreg => .s
  | .hclr => .z
  | .hacc => .s
  | .hld => .sd
  | .hrd => .s
  | .cclr => .s
  | .capp => .sb
  | .nld => .n
  | .ebegin => .z
  | .esym => .s
  | .eend => .z
  | .dbegin => .d
  | .dbyte => .s

/-- The command an `op` value names, none for the 241 reserved values (30_encoding.md R96). -/
def opcodeOf (op : Byte) : Option Opcode :=
  match op.toNat with
  | 0x00 => some .nop
  | 0x01 => some .rst
  | 0x02 => some .rdreg
  | 0x10 => some .hclr
  | 0x11 => some .hacc
  | 0x12 => some .hld
  | 0x13 => some .hrd
  | 0x20 => some .cclr
  | 0x21 => some .capp
  | 0x28 => some .nld
  | 0x30 => some .ebegin
  | 0x31 => some .esym
  | 0x32 => some .eend
  | 0x40 => some .dbegin
  | 0x41 => some .dbyte
  | _ => none

/-- The column `mask` of 30_encoding.md R94; it depends on the format alone. -/
def Format.mask : Format → Command
  | .z => 0xFFFFFFFFFFFFFFFF
  | .s => 0xFF00FFFFFFFFFFFF
  | .sb => 0xFF00FFFFFFFFFFFE
  | .sd => 0xFF00FFFF00000000
  | .n => 0xFF00000000000000
  | .d => 0xFFFF000000000000

/-- The column `match` of 30_encoding.md R94. -/
def Opcode.pattern : Opcode → Command
  | .nop => 0x0000000000000000
  | .rst => 0x0100000000000000
  | .rdreg => 0x0200000000000000
  | .hclr => 0x1000000000000000
  | .hacc => 0x1100000000000000
  | .hld => 0x1200000000000000
  | .hrd => 0x1300000000000000
  | .cclr => 0x2000000000000000
  | .capp => 0x2100000000000000
  | .nld => 0x2800000000000000
  | .ebegin => 0x3000000000000000
  | .esym => 0x3100000000000000
  | .eend => 0x3200000000000000
  | .dbegin => 0x4000000000000000
  | .dbyte => 0x4100000000000000

/-- A word selects a command when `(w and mask) == match` (30_encoding.md R94). -/
def Opcode.selects (o : Opcode) (w : Command) : Bool := w &&& o.format.mask == o.pattern

/-! ## The decoder (30_encoding.md R95) -/

/-- Why a word is `illegal`. -/
inductive DecodeError where
  /-- 30_encoding.md R96: the `op` value is one of the 241 reserved ones. -/
  | reservedOpcode (op : Byte)
  /-- 30_encoding.md R97: the `op` value is defined and a "must be 0" field is not 0. -/
  | reservedField (o : Opcode)
deriving DecidableEq, Repr

/-- The "must be 0" fields of a format hold 0 (30_encoding.md R92). -/
def reservedZero (f : Format) (w : Command) : Bool :=
  match f with
  | .z => symField w == 0 && idxField w == 0 && dataField w == 0
  | .s => idxField w == 0 && dataField w == 0
  | .sb => idxField w == 0 && w.extractLsb' 1 31 == 0
  | .sd => idxField w == 0
  | .n => true
  | .d => symField w == 0

/-- The command of an opcode with its operands read from the fields (30_encoding.md R92, R93). -/
def operandsOf (o : Opcode) (w : Command) : Instr :=
  match o with
  | .nop => .nop
  | .rst => .rst
  | .rdreg => .rdreg (symField w)
  | .hclr => .hclr
  | .hacc => .hacc (symField w)
  | .hld => .hld (symField w) (dataField w)
  | .hrd => .hrd (symField w)
  | .cclr => .cclr (symField w)
  | .capp => .capp (symField w) (bitField w)
  | .nld => .nld (idxField w) (symField w) (leftField w) (rightField w)
  | .ebegin => .ebegin
  | .esym => .esym (symField w)
  | .eend => .eend
  | .dbegin => .dbegin (idxField w) (dataField w)
  | .dbyte => .dbyte (symField w)

/-- `decode(w)` of 30_encoding.md R95: total, every word gives a command or the reason it is `illegal`. It looks
neither at PHASE nor at operand ranges. -/
def decode (w : Command) : Except DecodeError Instr :=
  match opcodeOf (opField w) with
  | none => .error (.reservedOpcode (opField w))
  | some o => if reservedZero o.format w then .ok (operandsOf o w) else .error (.reservedField o)

/-- The command an opcode-table word stands for, its bits numbered as spec/opcode_table.json numbers them: a command is
one whole 64-bit word with no byte order (30_encoding.md R90), so bit k of `w` is bit k of the command word, and the
bits at and above `nbits` are 0. A word of more than 64 bits is no command word. -/
def decodeTableWord (nbits w : Nat) : Option Instr :=
  if nbits ≤ 64 then
    match decode (BitVec.ofNat 64 (w % 2 ^ nbits)) with
    | .ok i => some i
    | .error _ => none
  else none

/-! ## The encoder (30_encoding.md R110) -/

/-- The four fields of a command word, from the most significant (30_encoding.md R91). -/
structure Fields where
  op   : Byte
  sym  : Byte
  idx  : BitVec 16
  data : Word
deriving DecidableEq, Repr

/-- The word of four fields: `(op << 56) or (sym << 48) or (idx << 32) or data` (30_encoding.md R110). -/
def Fields.word (f : Fields) : Command := f.op ++ f.sym ++ f.idx ++ f.data

/-- The opcode of a command. -/
def Instr.opcode : Instr → Opcode
  | .nop => .nop
  | .rst => .rst
  | .rdreg _ => .rdreg
  | .hclr => .hclr
  | .hacc _ => .hacc
  | .hld _ _ => .hld
  | .hrd _ => .hrd
  | .cclr _ => .cclr
  | .capp _ _ => .capp
  | .nld _ _ _ _ => .nld
  | .ebegin => .ebegin
  | .esym _ => .esym
  | .eend => .eend
  | .dbegin _ _ => .dbegin
  | .dbyte _ => .dbyte

/-- The fields a command sets; a field its format does not use is 0 (30_encoding.md R92, R110). -/
def Instr.fields (i : Instr) : Fields :=
  match i with
  | .nop => { op := i.opcode.byte, sym := 0, idx := 0, data := 0 }
  | .rst => { op := i.opcode.byte, sym := 0, idx := 0, data := 0 }
  | .rdreg r => { op := i.opcode.byte, sym := r, idx := 0, data := 0 }
  | .hclr => { op := i.opcode.byte, sym := 0, idx := 0, data := 0 }
  | .hacc b => { op := i.opcode.byte, sym := b, idx := 0, data := 0 }
  | .hld k v => { op := i.opcode.byte, sym := k, idx := 0, data := v }
  | .hrd k => { op := i.opcode.byte, sym := k, idx := 0, data := 0 }
  | .cclr b => { op := i.opcode.byte, sym := b, idx := 0, data := 0 }
  | .capp b bit => { op := i.opcode.byte, sym := b, idx := 0, data := if bit then 1 else 0 }
  | .nld n v l r => { op := i.opcode.byte, sym := v, idx := n, data := r ++ l }
  | .ebegin => { op := i.opcode.byte, sym := 0, idx := 0, data := 0 }
  | .esym b => { op := i.opcode.byte, sym := b, idx := 0, data := 0 }
  | .eend => { op := i.opcode.byte, sym := 0, idx := 0, data := 0 }
  | .dbegin root total => { op := i.opcode.byte, sym := 0, idx := root, data := total }
  | .dbyte b => { op := i.opcode.byte, sym := b, idx := 0, data := 0 }

/-- The command word of a command (30_encoding.md R110). -/
def encode (i : Instr) : Command := i.fields.word

end Sys2Proof
end

