-- ==== Sys2Proof/Config.lean ====
section
/-! DEFINITION. Config.lean: the parameters of an instance (00_scope.md R7) and the free values the spec leaves
open (10_state.md R53). -/

namespace Sys2Proof

/-- The legal values of INTSIZE (00_scope.md R7; any other value is not an instance, 93_implementation_defined.md U20). -/
inductive IntSize where
  | two
  | four
deriving DecidableEq, Repr

/-- The legal values of BYTE_ORDER (00_scope.md R7). -/
inductive ByteOrder where
  | little
  | big
deriving DecidableEq, Repr

/-- The parameters of a BSB instance that a model takes as arguments (00_scope.md R7). -/
structure Config where
  intSize   : IntSize
  byteOrder : ByteOrder
deriving DecidableEq, Repr

/-- INTSIZE, in bytes. -/
def IntSize.bytes : IntSize → Nat
  | .two => 2
  | .four => 4

namespace Config

/-- The defaults of 00_scope.md R7: INTSIZE 4, BYTE_ORDER little. -/
def standard : Config := { intSize := .four, byteOrder := .little }

/-- W, the width of a count in bits: 8 * INTSIZE (00_scope.md R7). -/
def width (c : Config) : Nat := 8 * c.intSize.bytes

/-- MAXCOUNT, the largest value a count or the bit count may hold: 2^(W-1) - 1 (00_scope.md R7). -/
def maxCount (c : Config) : Nat := 2 ^ (c.width - 1) - 1

/-- A 32-bit pattern cut to the W bits a count has, zero-extended again. -/
def truncate (c : Config) (v : Word) : Word :=
  match c.intSize with
  | .two => (v.setWidth 16).setWidth 32
  | .four => v

/-- CODE_MAX, the largest length in bits of one code word (00_scope.md R7). -/
def codeMax : Nat := 255

/-- FREE VALUE (log 5): what entry `i` of FREQ holds after the `n`-th hardware reset, before it is cut to W bits.
10_state.md R53: unspecified, each a W-bit pattern. -/
opaque freqAtReset (n i : Nat) : Word

/-- FREE VALUE (log 5): the code word entry `i` of CODE holds after the `n`-th hardware reset, before it is cut to
255 bits. 10_state.md R53: unspecified length 0 to 255, unspecified bits. -/
opaque codeAtReset (n i : Nat) : List Bool

/-- FREE VALUE (log 5): `value` of entry `i` of NODE after the `n`-th hardware reset (10_state.md R53). -/
opaque nodeValueAtReset (n i : Nat) : Byte

/-- FREE VALUE (log 5): `left` of entry `i` of NODE after the `n`-th hardware reset (10_state.md R53). -/
opaque nodeLeftAtReset (n i : Nat) : Child

/-- FREE VALUE (log 5): `right` of entry `i` of NODE after the `n`-th hardware reset (10_state.md R53). -/
opaque nodeRightAtReset (n i : Nat) : Child

end Config

end Sys2Proof
end

