-- ==== Sys2Proof/Machine/State.lean ====
section
/-! DEFINITION. Machine/State.lean: the complete state of an instance (10_state.md R20), its value after hardware
reset (10_state.md R53), and the reasons a step can stop. -/

namespace Sys2Proof.Machine

/-- The value of PHASE (10_state.md R23). -/
inductive Phase where
  /-- 0: no session open, table commands allowed. -/
  | idle
  /-- 1: an encode session is open. -/
  | enc
  /-- 2: a decode session is open and fewer than DTOTAL bits have been consumed. -/
  | dec
  /-- 3: a fault has been recorded and not yet cleared. -/
  | fault
deriving DecidableEq, Repr

/-- The cause of a recorded fault, the codes 1 to 7 of FC (60_exceptions.md R271). These are the block's own faults:
each leads to a NEXT state, never to a stop of the model. -/
inductive Cause where
  | illegalCommand
  | seqError
  | illegalOperand
  | histOverflow
  | codeTooLong
  | bitcountOverflow
  | corruption
deriving DecidableEq, Repr

/-- One entry of the node memory (10_state.md R47). -/
structure Node where
  value : Byte
  left  : Child
  right : Child
deriving DecidableEq, Repr

/-- What the host does next at the block's inputs (70_reset_and_hazards.md R320). -/
inductive HostAction where
  /-- Offer one command word on CMD. -/
  | command (w : Command)
  /-- Assert and release the reset input (70_reset_and_hazards.md R310). -/
  | hardwareReset
deriving DecidableEq, Repr

/-- The state of an instance. All fields but `config`, `host` and `resets` are the list of 10_state.md R20. -/
structure State where
  /-- The instance's parameters, constant (00_scope.md R7; log 1). -/
  config : Config
  /-- PHASE, 10_state.md R23. -/
  phase  : Phase
  /-- DDONE, 10_state.md R24. -/
  ddone  : Bool
  /-- ACC, 10_state.md R25. -/
  acc    : BitVec 8
  /-- NACC, 10_state.md R26. -/
  nacc   : BitVec 3
  /-- BITCNT, W bits, zero-extended to 32, 10_state.md R27 (log 6). -/
  bitcnt : Word
  /-- ROOT, 10_state.md R28 (log 8). -/
  root   : NodeIdx
  /-- CURSOR, 10_state.md R29 (log 8). -/
  cursor : NodeIdx
  /-- DTOTAL, W bits, zero-extended to 32, 10_state.md R30 (log 6). -/
  dtotal : Word
  /-- DCNT, W bits, zero-extended to 32, 10_state.md R31 (log 6). -/
  dcnt   : Word
  /-- DBYTES, 10_state.md R32. -/
  dbytes : Word
  /-- FC, `none` for code 0, 10_state.md R33 (log 9). -/
  fc     : Option Cause
  /-- FPHASE, 10_state.md R34. -/
  fphase : Phase
  /-- FOP, 10_state.md R35. -/
  fop    : Byte
  /-- FINFO, 10_state.md R36. -/
  finfo  : Word
  /-- FREQ, each entry W bits, zero-extended to 32, 10_state.md R45 (log 6). -/
  freq   : Vector Word 256
  /-- CODE, each entry the bits below its length, first bit first, 10_state.md R46 (log 7). -/
  code   : Vector (List Bool) 256
  /-- NODE, 10_state.md R47 (log 8). -/
  node   : Vector Node 511
  /-- OUT, oldest byte first, 10_state.md R48. -/
  out    : List Byte
  /-- RSP, oldest word first, 10_state.md R49. -/
  rsp    : List Word
  /-- The model's own: what the host has still to present, oldest first (log 2). -/
  host   : List HostAction
  /-- The model's own: how many hardware resets there have been, the counter of the free values (log 5). -/
  resets : Nat
deriving DecidableEq, Repr

/-- Why the model stops with a fault: never. The spec gives every 64-bit word an effect in every phase
(30_encoding.md R95, R104; 60_exceptions.md R273, R277), the block's faults are next states (60_exceptions.md R275),
and with no command presented the block holds its state (60_exceptions.md R293). Safe: nobody raises one (log 14). -/
inductive Fault where
deriving DecidableEq, Repr

/-- Why the model refuses an instruction. -/
inductive Refusal where
  /-- Raised by an arm of `exec` whose instruction has no meaning yet, and by nothing else; no arm is left so. Safe: the
  model stops where the hardware goes on. -/
  | notModelled (mnemonic : String)
deriving DecidableEq, Repr

/-- What one step or one instruction answers. -/
abbrev Result := Host.Outcome State Fault Refusal

/-- The contents of FREQ after the `n`-th hardware reset: any W-bit patterns (10_state.md R53; log 5). -/
def freqContents (c : Config) (n : Nat) : Vector Word 256 :=
  ⟨((List.range 256).map fun i => c.truncate (Config.freqAtReset n i)).toArray, by simp⟩

/-- The contents of CODE after the `n`-th hardware reset: any lengths 0 to 255, any bits (10_state.md R53; log 5). -/
def codeContents (n : Nat) : Vector (List Bool) 256 :=
  ⟨((List.range 256).map fun i => (Config.codeAtReset n i).take Config.codeMax).toArray, by simp⟩

/-- The contents of NODE after the `n`-th hardware reset: any values and children (10_state.md R53; log 5). -/
def nodeContents (n : Nat) : Vector Node 511 :=
  ⟨((List.range 511).map fun i =>
    { value := Config.nodeValueAtReset n i
      left := Config.nodeLeftAtReset n i
      right := Config.nodeRightAtReset n i : Node }).toArray, by simp⟩

/-- The state of an instance with parameters `c` right after its hardware reset number `n`: the column "value after
hardware reset" of 10_state.md R53. -/
def State.afterReset (c : Config) (n : Nat) : State :=
  { config := c
    phase := .idle
    ddone := false
    acc := 0
    nacc := 0
    bitcnt := 0
    root := 0
    cursor := 0
    dtotal := 0
    dcnt := 0
    dbytes := 0
    fc := none
    fphase := .idle
    fop := 0
    finfo := 0
    freq := freqContents c n
    code := codeContents n
    node := nodeContents n
    out := []
    rsp := []
    host := []
    resets := n + 1 }

/-- The machine right after its first hardware reset, with the default parameters of 00_scope.md R7 and nothing
presented by the host yet (70_reset_and_hazards.md R310, R311; log 1, log 4). -/
def State.reset : State := State.afterReset Config.standard 0

end Sys2Proof.Machine
end

