-- ==== Sys2Proof/Machine/Operands.lean ====
section
/-! DEFINITION. Machine/Operands.lean: every operand form (30_encoding.md R93, 20_memory.md R63, R64) and the bytes
of a persisted integer (20_memory.md R66, R67). -/

namespace Sys2Proof.Machine

/-! ## Direct operands: a symbol index is an 8-bit field, so it is always in range (20_memory.md R63) -/

/-- Entry `b` of a table with one entry for each symbol. -/
def symGet {α : Type} (t : Vector α 256) (b : Byte) : α := t[b.toNat]'b.isLt

/-- The table with entry `b` replaced. -/
def symSet {α : Type} (t : Vector α 256) (b : Byte) (v : α) : Vector α 256 := t.set b.toNat v b.isLt

/-! ## Node index, child and count operands -/

/-- A node index operand, none when it is above 510 (30_encoding.md R93). -/
def nodeIndexOperand (n : BitVec 16) : Option NodeIdx :=
  if h : n.toNat < 511 then some ⟨n.toNat, h⟩ else none

/-- A child operand, none when it is above 511. The child 511 is NIL (30_encoding.md R93, 41_tables.md R153). -/
def childOperand (l : BitVec 16) : Option Child :=
  if h : l.toNat < 511 then some (some ⟨l.toNat, h⟩)
  else if l.toNat = 511 then some none
  else none

/-- A count operand, none when it is above MAXCOUNT (30_encoding.md R93). -/
def countOperand (c : Config) (v : Word) : Option Word :=
  if v.toNat ≤ c.maxCount then some v else none

/-- The bits `B[7], ..., B[0]` of a packed byte in the order DBYTE takes them (43_decoder.md R193). -/
def bitsOf (b : Byte) : List Bool :=
  [b.getLsbD 7, b.getLsbD 6, b.getLsbD 5, b.getLsbD 4, b.getLsbD 3, b.getLsbD 2, b.getLsbD 1, b.getLsbD 0]

/-- The child a data bit selects: left for 0, right for 1 (43_decoder.md R193). -/
def Node.child (n : Node) (bit : Bool) : Child := if bit then n.right else n.left

/-- `leaf(n)`: both children absent (10_state.md R47). -/
def Node.isLeaf (n : Node) : Bool := n.left.isNone && n.right.isNone

/-! ## Persisted integers -/

/-- The bytes of a W-bit number from the least significant (20_memory.md R66). -/
def bytesLsbFirst (c : Config) (v : Word) : List Byte :=
  match c.intSize with
  | .two => [v.extractLsb' 0 8, v.extractLsb' 8 8]
  | .four => [v.extractLsb' 0 8, v.extractLsb' 8 8, v.extractLsb' 16 8, v.extractLsb' 24 8]

/-- `int_bytes(v)`: the INTSIZE bytes of a W-bit number in BYTE_ORDER (20_memory.md R66). -/
def intBytes (c : Config) (v : Word) : List Byte :=
  match c.byteOrder with
  | .little => bytesLsbFirst c v
  | .big => (bytesLsbFirst c v).reverse

/-- The number whose bytes, from the least significant, are the given ones. -/
def wordOfBytes : List Byte → Nat
  | [] => 0
  | b :: bs => b.toNat + 256 * wordOfBytes bs

/-- `bytes_int(s)`: the W-bit number with `int_bytes(v) = s`, for INTSIZE bytes `s` (20_memory.md R67). -/
def bytesInt (c : Config) (s : List Byte) : Word :=
  match c.byteOrder with
  | .little => BitVec.ofNat 32 (wordOfBytes s)
  | .big => BitVec.ofNat 32 (wordOfBytes s.reverse)

end Sys2Proof.Machine
end

