-- ==== Sys2Proof/Machine/Flags.lean ====
section
/-! DEFINITION. Machine/Flags.lean: the status the block shows, every word of the register map (10_state.md R37), the
FAULT output (10_state.md R50), and the phases in which a command is legal (30_encoding.md R104). -/

namespace Sys2Proof.Machine

/-- The number of a phase (10_state.md R23). -/
def Phase.code : Phase → BitVec 2
  | .idle => 0
  | .enc => 1
  | .dec => 2
  | .fault => 3

/-- The code of a cause, the value written to FC (60_exceptions.md R271). -/
def Cause.code : Cause → BitVec 4
  | .illegalCommand => 1
  | .seqError => 2
  | .illegalOperand => 3
  | .histOverflow => 4
  | .codeTooLong => 5
  | .bitcountOverflow => 6
  | .corruption => 7

/-- FC as a number: 0 when no fault is recorded (60_exceptions.md R271). -/
def causeCode : Option Cause → BitVec 4
  | none => 0
  | some c => c.code

/-- The FAULT output (10_state.md R50). -/
def faultOutput (s : State) : Bool := s.phase == .fault

/-- Register 0, CONFIG (10_state.md R37): BIGEND in bit 4, INTSIZE in bits 3:0. -/
def configWord (c : Config) : Word :=
  (0 : BitVec 27) ++ BitVec.ofBool (c.byteOrder == .big) ++ BitVec.ofNat 4 c.intSize.bytes

/-- Register 1, STATUS (10_state.md R37): DDONE in bit 2, PHASE in bits 1:0. -/
def statusWord (s : State) : Word := (0 : BitVec 29) ++ BitVec.ofBool s.ddone ++ s.phase.code

/-- Register 2, FCAUSE (10_state.md R37): FOP in bits 15:8, FPHASE in bits 5:4, FC in bits 3:0. -/
def fcauseWord (s : State) : Word :=
  (0 : BitVec 16) ++ s.fop ++ (0 : BitVec 2) ++ s.fphase.code ++ causeCode s.fc

/-- Register 4, ACCREG (10_state.md R37): NACC in bits 10:8, ACC in bits 7:0. -/
def accWord (s : State) : Word := (0 : BitVec 21) ++ s.nacc ++ s.acc

/-- Register 9, CURSORREG (10_state.md R37): ROOT in bits 24:16, CURSOR in bits 8:0. -/
def cursorWord (s : State) : Word :=
  (0 : BitVec 7) ++ BitVec.ofNat 9 s.root.val ++ (0 : BitVec 7) ++ BitVec.ofNat 9 s.cursor.val

/-- `regword(r)`: the word of register `r`, 0 for 10 to 255 (10_state.md R37, 44_system.md R214). -/
def regword (r : Byte) (s : State) : Word :=
  match r.toNat with
  | 0 => configWord s.config
  | 1 => statusWord s
  | 2 => fcauseWord s
  | 3 => s.finfo
  | 4 => accWord s
  | 5 => s.bitcnt
  | 6 => s.dtotal
  | 7 => s.dcnt
  | 8 => s.dbytes
  | 9 => cursorWord s
  | _ => 0

/-- The phases a command is legal in: the column "Phases" of 30_encoding.md R94, the entries `ok` of R104. -/
def legalIn : Opcode → Phase → Bool
  | .nop => fun p => p == .idle || p == .enc || p == .dec
  | .rst => fun _ => true
  | .rdreg => fun _ => true
  | .hclr => fun p => p == .idle
  | .hacc => fun p => p == .idle
  | .hld => fun p => p == .idle
  | .hrd => fun p => p == .idle
  | .cclr => fun p => p == .idle
  | .capp => fun p => p == .idle
  | .nld => fun p => p == .idle
  | .ebegin => fun p => p == .idle
  | .esym => fun p => p == .enc
  | .eend => fun p => p == .enc
  | .dbegin => fun p => p == .idle
  | .dbyte => fun p => p == .dec

end Sys2Proof.Machine
end

