-- ==== Sys2Proof/Machine/Ops.lean ====
section
/-! DEFINITION. Machine/Ops.lean: the operations every rule touches state by (00_scope.md R13), taking a fault and
returning from one (60_exceptions.md R275, R278), the phase check (30_encoding.md R104), and hardware reset
(70_reset_and_hazards.md R310). -/

namespace Sys2Proof.Machine

/-! ## Output (00_scope.md R13) -/

/-- `emit` for each byte of a sequence, in order (10_state.md R48). -/
def emitAll (bs : List Byte) (s : State) : State := { s with out := s.out ++ bs }

/-- `emit(b)` (10_state.md R48). -/
def emit (b : Byte) (s : State) : State := emitAll [b] s

/-- `respond(v)` (10_state.md R49). -/
def respond (v : Word) (s : State) : State := { s with rsp := s.rsp ++ [v] }

/-! ## Table memories (20_memory.md R61, R64) -/

/-- `FREQ[b]`. -/
def readFreq (b : Byte) (s : State) : Word := symGet s.freq b

/-- `FREQ[b] <- v`. -/
def writeFreq (b : Byte) (v : Word) (s : State) : State := { s with freq := symSet s.freq b v }

/-- The code word `CODE[b].bits[0 .. len-1]`. -/
def readCode (b : Byte) (s : State) : List Bool := symGet s.code b

/-- Replace the code word of symbol `b`. -/
def writeCode (b : Byte) (bits : List Bool) (s : State) : State := { s with code := symSet s.code b bits }

/-- Entry `n` of NODE. -/
def readNode (n : NodeIdx) (s : State) : Node := s.node[n.val]'n.isLt

/-- Write the three fields of entry `n` of NODE. -/
def writeNode (n : NodeIdx) (e : Node) (s : State) : State := { s with node := s.node.set n.val e n.isLt }

/-! ## Faults -/

/-- `raise Fault(cause, info)` by a command whose opcode byte is `op` (60_exceptions.md R275): the fault registers are
written, PHASE becomes FAULT, nothing else changes. -/
def raiseFault (cause : Cause) (op : Byte) (info : Word) (s : State) : State :=
  { s with fc := some cause, fphase := s.phase, fop := op, finfo := info, phase := .fault }

/-- The return from a fault, which is the RST command: every control register to its reset value, the tables and the
traces as they are (60_exceptions.md R278, 44_system.md R212). -/
def resetControl (s : State) : State :=
  { s with
    phase := .idle, ddone := false
    acc := 0, nacc := 0, bitcnt := 0
    root := 0, cursor := 0, dtotal := 0, dcnt := 0, dbytes := 0
    fc := none, fphase := .idle, fop := 0, finfo := 0 }

/-- The phase check of a well-formed command (30_encoding.md R104, check 2 of 60_exceptions.md R273): the command acts
in the phases it is legal in, is dropped in phase FAULT (60_exceptions.md R277), and raises SeqError elsewhere. -/
def whenLegal (o : Opcode) (act : State → State) (s : State) : State :=
  if legalIn o s.phase then act s
  else if s.phase = .fault then s
  else raiseFault .seqError o.byte 0 s

/-- An `illegal` word (check 1 of 60_exceptions.md R273): IllegalCommand with the upper half of the word recorded
(60_exceptions.md R271), or nothing at all in phase FAULT (60_exceptions.md R277). -/
def illegalWord (w : Command) (s : State) : State :=
  if s.phase = .fault then s
  else raiseFault .illegalCommand (opField w) (upperHalf w) s

/-! ## Hardware reset -/

/-- Hardware reset (70_reset_and_hazards.md R310): the state of 10_state.md R53 with new unspecified table contents;
the parameters stay, and so does what the host has still to present. -/
def hardwareReset (s : State) : State :=
  { State.afterReset s.config s.resets with host := s.host }

end Sys2Proof.Machine
end

