-- ==== Sys2Proof/Machine/Decoder.lean ====
section
/-! DEFINITION. Machine/Decoder.lean: DBEGIN, DBYTE (43_decoder.md). -/

namespace Sys2Proof.Machine

/-- The pseudocode of DBEGIN: the operands are checked in the order root, total (43_decoder.md R191). -/
def openDecode (root : BitVec 16) (total : Word) (s : State) : State :=
  match nodeIndexOperand root with
  | none => raiseFault .illegalOperand Opcode.dbegin.byte (root.setWidth 32) s
  | some k =>
    match countOperand s.config total with
    | none => raiseFault .illegalOperand Opcode.dbegin.byte total s
    | some n =>
      let t := { s with root := k, cursor := k, dtotal := n, dcnt := 0, dbytes := 0 }
      if n = 0 then { t with ddone := true } else { t with ddone := false, phase := .dec }

/-- DBEGIN root, total (43_decoder.md R191). -/
def execDbegin (root : BitVec 16) (total : Word) (s : State) : Result :=
  .next (whenLegal .dbegin (openDecode root total) s)

/-- What the loop of DBYTE comes to. -/
inductive Walk where
  /-- The eight bits or the bit count are used up. -/
  | done (s : State)
  /-- A bit selected an absent child; `s` is the state the bits before it left (43_decoder.md R194). -/
  | absent (s : State)
deriving DecidableEq, Repr

/-- The end of one pass of the loop of DBYTE: move to `next`, count the bit, and at a leaf emit its value and return to
the root (43_decoder.md R193). -/
def takeChild (next : NodeIdx) (s : State) : State :=
  let t := { s with cursor := next, dcnt := s.dcnt + 1 }
  if (readNode next s).isLeaf then { emit (readNode next s).value t with cursor := s.root } else t

/-- The loop of DBYTE over the remaining bits of the byte (43_decoder.md R193). -/
def walk : List Bool → State → Walk
  | [], s => .done s
  | bit :: bits, s =>
    if s.dcnt = s.dtotal then .done s
    else
      match (readNode s.cursor s).child bit with
      | none => .absent s
      | some next => walk bits (takeChild next s)

/-- The end of DBYTE: count the byte, and close the session when the bit count is reached (43_decoder.md R193). -/
def finishByte (s : State) : State :=
  let t := { s with dbytes := s.dbytes + 1 }
  if s.dcnt = s.dtotal then { t with phase := .idle, ddone := true } else t

/-- The pseudocode of DBYTE (43_decoder.md R193, R194). -/
def decodeByte (b : Byte) (s : State) : State :=
  match walk (bitsOf b) s with
  | .absent t => raiseFault .corruption Opcode.dbyte.byte t.dbytes t
  | .done t => finishByte t

/-- DBYTE B (43_decoder.md R193). -/
def execDbyte (b : Byte) (s : State) : Result := .next (whenLegal .dbyte (decodeByte b) s)

end Sys2Proof.Machine
end

