-- ==== Sys2Proof/Machine/Encoder.lean ====
section
/-! DEFINITION. Machine/Encoder.lean: EBEGIN, ESYM, EEND (42_encoder.md). -/

namespace Sys2Proof.Machine

/-- The header: `int_bytes(FREQ[i])` for i = 0 .. 255, in order (42_encoder.md R171, 20_memory.md R65). -/
def headerBytes (s : State) : List Byte := s.freq.toList.flatMap (intBytes s.config)

/-- The pseudocode of EBEGIN (42_encoder.md R171). -/
def openEncode (s : State) : State :=
  { emitAll (headerBytes s) s with acc := 0, nacc := 0, bitcnt := 0, phase := .enc }

/-- EBEGIN (42_encoder.md R171). -/
def execEbegin (s : State) : Result := .next (whenLegal .ebegin openEncode s)

/-- One pass of the loop of ESYM: shift a bit into ACC, emit ACC when it is the eighth (42_encoder.md R172). -/
def pushBit (s : State) (bit : Bool) : State :=
  let acc := (s.acc <<< 1) ||| (BitVec.ofBool bit).setWidth 8
  if s.nacc.toNat + 1 = 8 then { emit acc s with acc := 0, nacc := 0 }
  else { s with acc := acc, nacc := s.nacc + 1 }

/-- The loop of ESYM over the bits of a code word, first bit first (42_encoder.md R172). -/
def pushBits (bits : List Bool) (s : State) : State := bits.foldl pushBit s

/-- The pseudocode of ESYM. The overflow check comes before the first bit, the sum at full precision (42_encoder.md
R172, R176). -/
def encodeSymbol (b : Byte) (s : State) : State :=
  let bits := readCode b s
  if s.config.maxCount < s.bitcnt.toNat + bits.length then
    raiseFault .bitcountOverflow Opcode.esym.byte (b.setWidth 32) s
  else { pushBits bits s with bitcnt := s.bitcnt + BitVec.ofNat 32 bits.length }

/-- ESYM b (42_encoder.md R172). -/
def execEsym (b : Byte) (s : State) : Result := .next (whenLegal .esym (encodeSymbol b) s)

/-- The first part of EEND: a partial byte is moved to the high positions and emitted (42_encoder.md R174). -/
def flushPartial (s : State) : State :=
  if s.nacc = 0 then s
  else { emit (s.acc <<< (8 - s.nacc.toNat)) s with acc := 0, nacc := 0 }

/-- The pseudocode of EEND (42_encoder.md R174). -/
def closeEncode (s : State) : State :=
  let t := flushPartial s
  { respond t.bitcnt (emitAll (intBytes t.config t.bitcnt) t) with phase := .idle }

/-- EEND (42_encoder.md R174). -/
def execEend (s : State) : Result := .next (whenLegal .eend closeEncode s)

end Sys2Proof.Machine
end

