-- ==== Sys2Proof/Machine/Histogram.lean ====
section
/-! DEFINITION. Machine/Histogram.lean: HCLR, HACC, HLD, HRD (40_histogram.md). -/

namespace Sys2Proof.Machine

/-- The pseudocode of HCLR (40_histogram.md R131). -/
def clearFreq (s : State) : State := { s with freq := Vector.replicate 256 0 }

/-- HCLR (40_histogram.md R131). -/
def execHclr (s : State) : Result := .next (whenLegal .hclr clearFreq s)

/-- The pseudocode of HACC (40_histogram.md R132). -/
def countSymbol (b : Byte) (s : State) : State :=
  if s.config.maxCount ≤ (readFreq b s).toNat then
    raiseFault .histOverflow Opcode.hacc.byte (b.setWidth 32) s
  else writeFreq b (readFreq b s + 1) s

/-- HACC b (40_histogram.md R132). -/
def execHacc (b : Byte) (s : State) : Result := .next (whenLegal .hacc (countSymbol b) s)

/-- The pseudocode of HLD (40_histogram.md R133). -/
def loadCount (i : Byte) (v : Word) (s : State) : State :=
  match countOperand s.config v with
  | none => raiseFault .illegalOperand Opcode.hld.byte v s
  | some n => writeFreq i n s

/-- HLD i, v (40_histogram.md R133). -/
def execHld (i : Byte) (v : Word) (s : State) : Result := .next (whenLegal .hld (loadCount i v) s)

/-- HRD i (40_histogram.md R134). -/
def execHrd (i : Byte) (s : State) : Result :=
  .next (whenLegal .hrd (fun s => respond (readFreq i s) s) s)

end Sys2Proof.Machine
end

