-- ==== Sys2Proof/Machine/System.lean ====
section
/-! DEFINITION. Machine/System.lean: NOP, RST, RDREG (44_system.md). -/

namespace Sys2Proof.Machine

/-- NOP (44_system.md R211). -/
def execNop (s : State) : Result := .next (whenLegal .nop id s)

/-- RST (44_system.md R212). -/
def execRst (s : State) : Result := .next (whenLegal .rst resetControl s)

/-- RDREG r (44_system.md R214). -/
def execRdreg (r : Byte) (s : State) : Result :=
  .next (whenLegal .rdreg (fun s => respond (regword r s) s) s)

end Sys2Proof.Machine
end

