-- ==== Sys2Proof/Machine/Tables.lean ====
section
/-! DEFINITION. Machine/Tables.lean: CCLR, CAPP, NLD (41_tables.md). -/

namespace Sys2Proof.Machine

/-- CCLR b (41_tables.md R151). -/
def execCclr (b : Byte) (s : State) : Result := .next (whenLegal .cclr (writeCode b []) s)

/-- The pseudocode of CAPP (41_tables.md R152). -/
def appendCodeBit (b : Byte) (bit : Bool) (s : State) : State :=
  if Config.codeMax ≤ (readCode b s).length then
    raiseFault .codeTooLong Opcode.capp.byte (b.setWidth 32) s
  else writeCode b (readCode b s ++ [bit]) s

/-- CAPP b, bit (41_tables.md R152). -/
def execCapp (b : Byte) (bit : Bool) (s : State) : Result :=
  .next (whenLegal .capp (appendCodeBit b bit) s)

/-- The pseudocode of NLD: the operands are checked in the order n, l, r (41_tables.md R153). -/
def loadNode (n : BitVec 16) (v : Byte) (l r : BitVec 16) (s : State) : State :=
  match nodeIndexOperand n with
  | none => raiseFault .illegalOperand Opcode.nld.byte (n.setWidth 32) s
  | some k =>
    match childOperand l with
    | none => raiseFault .illegalOperand Opcode.nld.byte (l.setWidth 32) s
    | some left =>
      match childOperand r with
      | none => raiseFault .illegalOperand Opcode.nld.byte (r.setWidth 32) s
      | some right => writeNode k { value := v, left := left, right := right } s

/-- NLD n, v, l, r (41_tables.md R153). -/
def execNld (n : BitVec 16) (v : Byte) (l r : BitVec 16) (s : State) : Result :=
  .next (whenLegal .nld (loadNode n v l r) s)

end Sys2Proof.Machine
end

