-- ==== Sys2Proof/Machine/Dispatch.lean ====
section
/-! DEFINITION. Machine/Dispatch.lean: the meaning of each command, one arm a constructor. -/

namespace Sys2Proof.Machine

def exec (i : Instr) (s : State) : Host.Outcome State Fault Refusal :=
  match i with
  | .nop => Sys2Proof.Machine.execNop s
  | .rst => Sys2Proof.Machine.execRst s
  | .rdreg r => Sys2Proof.Machine.execRdreg r s
  | .hclr => Sys2Proof.Machine.execHclr s
  | .hacc b => Sys2Proof.Machine.execHacc b s
  | .hld k v => Sys2Proof.Machine.execHld k v s
  | .hrd k => Sys2Proof.Machine.execHrd k s
  | .cclr b => Sys2Proof.Machine.execCclr b s
  | .capp b bit => Sys2Proof.Machine.execCapp b bit s
  | .nld n v l r => Sys2Proof.Machine.execNld n v l r s
  | .ebegin => Sys2Proof.Machine.execEbegin s
  | .esym b => Sys2Proof.Machine.execEsym b s
  | .eend => Sys2Proof.Machine.execEend s
  | .dbegin root total => Sys2Proof.Machine.execDbegin root total s
  | .dbyte b => Sys2Proof.Machine.execDbyte b s

end Sys2Proof.Machine
end

