-- ==== Sys2Proof/Machine/Step.lean ====
section
/-! DEFINITION. Machine/Step.lean: one step of the machine, the host's next action (00_scope.md R9, R14). -/

namespace Sys2Proof.Machine

/-- One step. The host presents a command word, which is decoded and executed or, when illegal, treated as
60_exceptions.md R273 and R277 say; or it resets the block; or it presents nothing and the block holds its state
(60_exceptions.md R293; log 3). -/
def step (s : State) : Host.Outcome State Fault Refusal :=
  match s.host with
  | [] => .next s
  | .hardwareReset :: rest => .next (hardwareReset { s with host := rest })
  | .command w :: rest =>
    match decode w with
    | .ok i => exec i { s with host := rest }
    | .error _ => .next (illegalWord w { s with host := rest })

/-- The state in which the host presents next the word whose bits, numbered as spec/opcode_table.json numbers them, are
those of `w` below `nbits` (30_encoding.md R90; log 4, log 12). -/
def State.withFetchWord (s : State) (nbits w : Nat) : State :=
  { s with host := .command (BitVec.ofNat 64 (w % 2 ^ nbits)) :: s.host }

end Sys2Proof.Machine
end

