-- ==== Sys2Proof/Machine/Stream.lean ====
section
/-! DEFINITION. Machine/Stream.lean: the encoded stream as a byte sequence, apart from the machine that writes it
(20_memory.md R65 to R71, 30_encoding.md R107). -/

namespace Sys2Proof.Machine

/-- One packed byte: the first bit in bit 7, missing bits 0 on the low side (20_memory.md R68, R69). -/
def packedByte (bits : List Bool) : Byte :=
  BitVec.ofBool (bits.getD 0 false) ++ BitVec.ofBool (bits.getD 1 false) ++ BitVec.ofBool (bits.getD 2 false)
    ++ BitVec.ofBool (bits.getD 3 false) ++ BitVec.ofBool (bits.getD 4 false) ++ BitVec.ofBool (bits.getD 5 false)
    ++ BitVec.ofBool (bits.getD 6 false) ++ BitVec.ofBool (bits.getD 7 false)

/-- `ceil(n / 8)`, the number of packed bytes of `n` bits (20_memory.md R71). -/
def packedLength (n : Nat) : Nat := (n + 7) / 8

/-- The packed section of a bit string: cut into groups of eight, the last filled with 0 bits (30_encoding.md R107). -/
def packBits (bits : List Bool) : List Byte :=
  (List.range (packedLength bits.length)).map fun j => packedByte (bits.drop (8 * j))

/-- The encoded stream of a frequency table and a bit string: header, packed section, trailer (20_memory.md R65). -/
def encodedStream (c : Config) (freq : Vector Word 256) (bits : List Bool) : List Byte :=
  freq.toList.flatMap (intBytes c) ++ packBits bits ++ intBytes c (BitVec.ofNat 32 bits.length)

/-- The bit string of an input under the code table of a state: the code words of its bytes, in order
(30_encoding.md R107). -/
def codeBits (s : State) (input : List Byte) : List Bool := input.flatMap fun b => readCode b s

end Sys2Proof.Machine
end

