-- ==== Sys2Proof/Machine/HostContract.lean ====
section
/-! DEFINITION. Machine/HostContract.lean: the host around the block: the macros (30_encoding.md R111), the heap, the
tree builder, the code generator, and the driver's procedures (49_host_contract.md; log 13). Nothing here is a command
of the block. -/

namespace Sys2Proof.Machine

/-! ## Macros (30_encoding.md R111) -/

/-- The host presents the words of some commands, in order (30_encoding.md R110). -/
def present (cmds : List Instr) : List HostAction := cmds.map fun i => .command (encode i)

/-- NIL as an operand of NLD (30_encoding.md R110). -/
def nilOperand : BitVec 16 := 511

/-- `LOADCODE b, "c0 c1 ... c(k-1)"`. -/
def loadCode (b : Byte) (bits : List Bool) : List Instr := .cclr b :: bits.map (.capp b)

/-- `LEAF n, v`. -/
def leafNode (n : BitVec 16) (v : Byte) : Instr := .nld n v nilOperand nilOperand

/-- `INODE n, l, r`. -/
def innerNode (n l r : BitVec 16) : Instr := .nld n 0 l r

/-- `HIST s`. -/
def hist (input : List Byte) : List Instr := .hclr :: input.map .hacc

/-- `ENCODE s`. -/
def encodeSession (input : List Byte) : List Instr := .ebegin :: (input.map .esym ++ [.eend])

/-- `DECODE root, total, p`. -/
def decodeSession (root : BitVec 16) (total : Word) (packed : List Byte) : List Instr :=
  .dbegin root total :: packed.map .dbyte

/-! ## The tree, the min-heap and the tree builder (49_host_contract.md R230 to R237) -/

/-- A node of the host's tree with its frequency; both children present or both absent (49_host_contract.md R230).
DESIGN CHOICE (log 16): a frequency is a natural number without a bound; 49_host_contract.md R237 leaves its width to the
host. -/
inductive Tree where
  | leaf (value : Byte) (frequency : Nat)
  | inner (frequency : Nat) (left right : Tree)
deriving DecidableEq, Repr

/-- The frequency of a node (49_host_contract.md R230). -/
def Tree.frequency : Tree → Nat
  | .leaf _ f => f
  | .inner f _ _ => f

/-- The nodes a heap refers to (49_host_contract.md R232); the order of the list carries no meaning of its own. -/
abbrev Heap := List Tree

/-- A tie-break: of the nodes of least frequency in a heap, how many to pass over (93_implementation_defined.md U1:
a parameter of the host model, any function). -/
abbrev TieBreak := Heap → Nat

/-- The heap's fixed capacity (49_host_contract.md R232). -/
def heapCapacity : Nat := 256

/-- `insert(node)`, none when the heap is full (49_host_contract.md R232; 93_implementation_defined.md U4). -/
def heapInsert (h : Heap) (t : Tree) : Option Heap :=
  if h.length < heapCapacity then some (t :: h) else none

/-- Take out of a heap the node of frequency `m` that comes after `k` others of that frequency. -/
def takeNode (m : Nat) : Nat → Heap → Option (Tree × Heap)
  | _, [] => none
  | k, t :: ts =>
    if t.frequency = m then
      match k with
      | 0 => some (t, ts)
      | k + 1 => (takeNode m k ts).map fun p => (p.1, t :: p.2)
    else (takeNode m k ts).map fun p => (p.1, t :: p.2)

/-- `extractMin()`: a node of least frequency, the tie-break choosing among equals, and the heap without it; none on an
empty heap (49_host_contract.md R232, R233; 93_implementation_defined.md U2). -/
def extractMin (tie : TieBreak) (h : Heap) : Option (Tree × Heap) :=
  match (h.map Tree.frequency).min? with
  | none => none
  | some m => takeNode m (tie h % (h.countP fun t => t.frequency = m)) h

/-- One pass of the builder: the two nodes of least frequency become the left and the right child of a new one
(49_host_contract.md R235). -/
def mergePass (tie : TieBreak) (h : Heap) : Option Heap := do
  let (l, h₁) ← extractMin tie h
  let (r, h₂) ← extractMin tie h₁
  heapInsert h₂ (.inner (l.frequency + r.frequency) l r)

/-- The builder's loop: `n` passes, after which one node remains (49_host_contract.md R235, R236). -/
def mergeLoop (tie : TieBreak) : Nat → Heap → Option Tree
  | 0, [t] => some t
  | 0, _ => none
  | n + 1, h => (mergePass tie h).bind (mergeLoop tie n)

/-- The 256 byte values in ascending order. -/
def allSymbols : List Byte := (List.range 256).map (BitVec.ofNat 8)

/-- The builder: 256 leaves, zero frequencies included, and 255 merges (49_host_contract.md R235, R236). -/
def buildTree (tie : TieBreak) (freq : Byte → Nat) : Option Tree :=
  mergeLoop tie 255 (allSymbols.map fun b => .leaf b (freq b))

/-! ## The code generator (49_host_contract.md R239) -/

/-- The code word of every leaf, left to right: '0' for a step to the left, '1' to the right. -/
def Tree.codes : Tree → List (Byte × List Bool)
  | .leaf v _ => [(v, [])]
  | .inner _ l r =>
    l.codes.map (fun p => (p.1, false :: p.2)) ++ r.codes.map (fun p => (p.1, true :: p.2))

/-- The code word of a symbol, empty when the tree has no leaf for it. -/
def Tree.codeOf (t : Tree) (b : Byte) : List Bool := (t.codes.lookup b).getD []

/-! ## Putting the tree and the code table into the block (49_host_contract.md R244, R245) -/

/-- The number of nodes of a tree. -/
def Tree.size : Tree → Nat
  | .leaf _ _ => 1
  | .inner _ l r => l.size + r.size + 1

/-- The index of a tree's root when its nodes get the indices from `n` on, children before parents. The spec leaves the
indices to the host (49_host_contract.md R244); this numbering is the model's (log 13). -/
def Tree.rootIndex (t : Tree) (n : Nat) : Nat := n + t.size - 1

/-- The NLD commands that load a tree at the indices from `n` on (49_host_contract.md R244). -/
def Tree.load : Tree → Nat → List Instr
  | .leaf v _, n => [leafNode (BitVec.ofNat 16 n) v]
  | .inner f l r, n =>
    l.load n ++ r.load (n + l.size) ++
      [innerNode (BitVec.ofNat 16 ((Tree.inner f l r).rootIndex n)) (BitVec.ofNat 16 (l.rootIndex n))
        (BitVec.ofNat 16 (r.rootIndex (n + l.size)))]

/-- The commands that load the code table of a tree (49_host_contract.md R245). -/
def Tree.loadCodes (t : Tree) : List Instr := allSymbols.flatMap fun b => loadCode b (t.codeOf b)

/-! ## The driver's procedures (49_host_contract.md R250, R251) -/

/-- Steps 1 and 2 of encoding: count, and read the 256 counts back (49_host_contract.md R250). -/
def countingCommands (input : List Byte) : List Instr := hist input ++ allSymbols.map .hrd

/-- The counts as the host collects them from the 256 words RSP gained (49_host_contract.md R250). -/
def countsOf (responses : List Word) (b : Byte) : Nat := (responses.getD b.toNat 0).toNat

/-- What may stand in place of steps 1 and 2 of encoding when the host already has the counts: 256 HLD commands
(49_host_contract.md R250). That they come in ascending order of the byte values is the model's choice (log 13). -/
def loadingCommands (freq : Byte → Word) : List Instr := allSymbols.map fun b => .hld b (freq b)

/-- Steps 3 to 5 of encoding: build the tree, generate and load the codes, encode (49_host_contract.md R250). -/
def codingCommands (tie : TieBreak) (freq : Byte → Nat) (input : List Byte) : Option (List Instr) :=
  (buildTree tie freq).map fun t => t.loadCodes ++ encodeSession input

/-- The trailer of a stream (20_memory.md R70, 49_host_contract.md R251 step 1). -/
def trailerOf (c : Config) (stream : List Byte) : Word :=
  bytesInt c (stream.drop (stream.length - c.intSize.bytes))

/-- The header of a stream as a frequency table (49_host_contract.md R251 step 2). -/
def headerOf (c : Config) (stream : List Byte) (b : Byte) : Nat :=
  (bytesInt c ((stream.drop (b.toNat * c.intSize.bytes)).take c.intSize.bytes)).toNat

/-- The packed section of a stream, no more than `ceil(total / 8)` bytes of it (49_host_contract.md R251 step 6). -/
def packedOf (c : Config) (stream : List Byte) : List Byte :=
  ((stream.take (stream.length - c.intSize.bytes)).drop (256 * c.intSize.bytes)).take
    (packedLength (trailerOf c stream).toNat)

/-- Decoding a stream, steps 1 to 7 (49_host_contract.md R251). -/
def decodingCommands (tie : TieBreak) (c : Config) (stream : List Byte) : Option (List Instr) :=
  if 257 * c.intSize.bytes ≤ stream.length then
    (buildTree tie (headerOf c stream)).map fun t =>
      t.load 0 ++ decodeSession (BitVec.ofNat 16 (t.rootIndex 0)) (trailerOf c stream) (packedOf c stream)
        ++ [.rdreg 1]
  else none

/-- The STATUS word the host requires after its last DBYTE: PHASE = IDLE and DDONE = 1 (43_decoder.md R197,
49_host_contract.md R251 step 7). -/
def decodeComplete : Word := 4

/-! ## What must agree (41_tables.md R154) -/

/-- Walking from entry `n` along `bits` passes only entries that are not leaves and ends on the leaf of `b`, with at
least one step (41_tables.md R154). -/
def pathTo (s : State) (b : Byte) : List Bool → NodeIdx → Prop
  | [], _ => False
  | bit :: bits, n =>
    match (readNode n s).child bit with
    | none => False
    | some k =>
      match bits with
      | [] => (readNode k s).isLeaf = true ∧ (readNode k s).value = b
      | _ :: _ => (readNode k s).isLeaf = false ∧ pathTo s b bits k

/-- CODE and NODE describe the same tree, as far as the symbols of `input` go (41_tables.md R154). -/
def tablesAgree (s : State) (root : NodeIdx) (input : List Byte) : Prop :=
  ∀ b ∈ input, pathTo s b (readCode b s) root

end Sys2Proof.Machine
end

