-- ==== Sys2Proof/Safety.lean ====
section
/-! DEFINITION. Safety.lean: the terms claims are stated in: the invariants of the spec, reachable states, the bits an
encode session still holds, the decoder's walk apart from the machine, and a run that ended well. -/

namespace Sys2Proof.Machine

/-- The bits ACC holds, earliest first: bit NACC-1 down to bit 0 (10_state.md R25). -/
def pendingBits (s : State) : List Bool :=
  (List.range s.nacc.toNat).map fun j => s.acc.getLsbD (s.nacc.toNat - 1 - j)

/-- Walking NODE from entry `n` along a bit string, back to ROOT after every leaf: where the walk ends and the values of
the leaves it reached, or none when a bit selects an absent child (43_decoder.md R193, R199). -/
def treeWalk (s : State) : List Bool → NodeIdx → Option (NodeIdx × List Byte)
  | [], n => some (n, [])
  | bit :: bits, n =>
    match (readNode n s).child bit with
    | none => none
    | some k =>
      if (readNode k s).isLeaf then
        (treeWalk s bits s.root).map fun p => (p.1, (readNode k s).value :: p.2)
      else treeWalk s bits k

/-- The entries of NODE a walk reads: the entry it stands on, and the child each bit leads to (43_decoder.md R198). -/
def visited (s : State) : List Bool → NodeIdx → List NodeIdx
  | [], _ => []
  | bit :: bits, n =>
    n :: match (readNode n s).child bit with
      | none => []
      | some k => k :: visited s bits (if (readNode k s).isLeaf then s.root else k)

/-- The bits of a packed byte that the running session still wants: at most eight, none past the bit count
(43_decoder.md R193, R196). -/
def wantedBits (b : Byte) (s : State) : List Bool := (bitsOf b).take (s.dtotal.toNat - s.dcnt.toNat)

/-- The invariants of 10_state.md section 7, and the ranges of its sections 2 and 4. -/
structure Inv (s : State) : Prop where
  /-- 10_state.md R27 -/
  bitcnt_legal : s.bitcnt.toNat ≤ s.config.maxCount
  /-- 10_state.md R30 -/
  dtotal_legal : s.dtotal.toNat ≤ s.config.maxCount
  /-- 10_state.md R45 -/
  freq_fits : ∀ b, (readFreq b s).toNat < 2 ^ s.config.width
  /-- 10_state.md R46 -/
  code_fits : ∀ b, (readCode b s).length ≤ Config.codeMax
  /-- 10_state.md R54 -/
  enc_nacc : s.phase = .enc → s.nacc.toNat = s.bitcnt.toNat % 8
  /-- 10_state.md R54 -/
  enc_acc : s.phase = .enc → s.acc.toNat < 2 ^ s.nacc.toNat
  /-- 10_state.md R55 -/
  dcnt_le : s.dcnt.toNat ≤ s.dtotal.toNat
  /-- 10_state.md R55 -/
  dec_open : s.phase = .dec → s.dcnt.toNat < s.dtotal.toNat ∧ s.dcnt.toNat = 8 * s.dbytes.toNat
  /-- 10_state.md R55, R24 -/
  dec_closed : s.ddone = true → s.dcnt = s.dtotal ∧ s.dbytes.toNat = packedLength s.dtotal.toNat
  /-- 10_state.md R55 -/
  dec_corrupt : s.fc = some .corruption →
    8 * s.dbytes.toNat ≤ s.dcnt.toNat ∧ s.dcnt.toNat ≤ 8 * s.dbytes.toNat + 7 ∧ s.dcnt.toNat < s.dtotal.toNat
  /-- 10_state.md R56 -/
  dec_cursor : s.phase = .dec → s.cursor = s.root ∨ (readNode s.cursor s).isLeaf = false
  /-- 10_state.md R57 -/
  fault_recorded : s.phase = .fault ↔ s.fc ≠ none
  /-- 10_state.md R34 -/
  fphase_session : s.fphase ≠ .fault
  /-- 10_state.md R33 to R36: with no fault recorded the fault registers hold their reset values. -/
  no_fault_clear : s.fc = none → s.fphase = .idle ∧ s.fop = 0 ∧ s.finfo = 0

/-- The states the block can come to: from a hardware reset of any instance, with any actions of the host before it, by
steps (70_reset_and_hazards.md R335). -/
inductive Reachable : State → Prop where
  | reset (c : Config) (n : Nat) (actions : List HostAction) :
      Reachable { State.afterReset c n with host := actions }
  | step {s t : State} : Reachable s → step s = .next t → Reachable t

/-- A run ended well when PHASE is IDLE and FC is 0 (70_reset_and_hazards.md R335). -/
def endedWell (s : State) : Prop := s.phase = .idle ∧ s.fc = none

/-- The commands allowed inside a session besides its own (42_encoder.md R170, 43_decoder.md R190). -/
def isWatch : Instr → Bool
  | .nop => true
  | .rdreg _ => true
  | _ => false

/-- The input byte an ESYM carries. -/
def esymOperand : Instr → Option Byte
  | .esym b => some b
  | _ => none

/-- The packed byte a DBYTE carries. -/
def dbyteOperand : Instr → Option Byte
  | .dbyte b => some b
  | _ => none

/-- The register an RDREG reads. -/
def rdregOperand : Instr → Option Byte
  | .rdreg r => some r
  | _ => none

/-- The words the RDREG commands among `cmds` respond with when the block executes `cmds` from state `s`: for each, the
word of its register in the state it runs in (44_system.md R214). -/
def registerWords : List Instr → State → List Word
  | [], _ => []
  | i :: cmds, s =>
    ((rdregOperand i).map fun r => regword r s).toList ++
      match exec i s with
      | .next t => registerWords cmds t
      | _ => []

/-- The block takes the commands `cmds`, one a step, from state `s` and comes to state `t`. -/
def runsTo (cmds : List Instr) (s t : State) : Prop :=
  Host.Core.run Sys2Proof.core cmds.length { s with host := present cmds } = .next t

end Sys2Proof.Machine
end

