-- ==== Sys2Proof/WellFormed.lean ====
section
/-! DEFINITION. WellFormed.lean: which operands of a command are legal (30_encoding.md R93). A term of `Instr` has
no reserved field, so what is left to check is the range of each operand; a word's reserved fields are checked by the
decoder (30_encoding.md R97). -/

namespace Sys2Proof

/-- A count operand is legal from 0 to MAXCOUNT (30_encoding.md R93). -/
def countLegal (c : Config) (v : Word) : Bool := v.toNat ≤ c.maxCount

/-- A node index operand is legal from 0 to 510 (30_encoding.md R93). -/
def nodeIndexLegal (n : BitVec 16) : Bool := n.toNat ≤ 510

/-- A child operand is legal from 0 to 511, 511 being NIL (30_encoding.md R93). -/
def childLegal (l : BitVec 16) : Bool := l.toNat ≤ 511

/-- Every operand of the command is in its legal range (30_encoding.md R93). -/
def Instr.wellFormed (c : Config) : Instr → Bool
  | .nop => true
  | .rst => true
  | .rdreg _ => true
  | .hclr => true
  | .hacc _ => true
  | .hld _ v => countLegal c v
  | .hrd _ => true
  | .cclr _ => true
  | .capp _ _ => true
  | .nld n _ l r => nodeIndexLegal n && childLegal l && childLegal r
  | .ebegin => true
  | .esym _ => true
  | .eend => true
  | .dbegin root total => nodeIndexLegal root && countLegal c total
  | .dbyte _ => true

end Sys2Proof
end

