-- ==== Sys2Proof/Certificates/Slice0/Obligations.lean ====
section
/-! DEFINITION. Certificates/Slice0/Obligations.lean: the statements for the provers. An equation `t = { s with f := t.f }`
says that `t` differs from `s` in the field `f` at most, so it is the whole frame. -/

open Sys2Proof Sys2Proof.Machine

/-! ## Encoding -/

/-- 30_encoding.md R94, R110: words written out in the spec decode to the commands they stand for, and two words the
spec calls illegal do not. Words of 95_test_vectors.md and of the examples of 41_tables.md, 43_decoder.md,
44_system.md. -/
def Obligations.WordsOfTheSpecDecode : Prop :=
  decode 0x0000000000000000 = .ok .nop ∧
  decode 0x0100000000000000 = .ok .rst ∧
  decode 0x0207000000000000 = .ok (.rdreg 7) ∧
  decode 0x1000000000000000 = .ok .hclr ∧
  decode 0x120700007FFFFFFE = .ok (.hld 7 0x7FFFFFFE) ∧
  decode 0x2142000000000001 = .ok (.capp 0x42 true) ∧
  decode 0x28AB01FE000001FF = .ok (.nld 510 0xAB 511 0) ∧
  decode 0x3141000000000000 = .ok (.esym 0x41) ∧
  decode 0x3200000000000000 = .ok .eend ∧
  decode 0x4000000400000009 = .ok (.dbegin 4 9) ∧
  decode 0x411F000000000000 = .ok (.dbyte 0x1F) ∧
  decode 0x0300000000000000 = .error (.reservedOpcode 0x03) ∧
  decode 0x1141000100000000 = .error (.reservedField .hacc)

/-- 30_encoding.md R93, R95, R110: the word of a command decodes to it, with every operand at every value its field
admits, and a word that decodes is the word of its command: no bit is dropped and no two words mean the same. -/
def Obligations.DecodeAndEncodeAgree : Prop :=
  (∀ i : Instr, decode (encode i) = .ok i) ∧
  ∀ (w : Command) (i : Instr), decode w = .ok i → encode i = w

/-- 30_encoding.md R95: decoding by mask and match. A row that selects a word gives the word's command, with its
operands read from the fields; a word no row selects is illegal; two rows select no common word (the end of R94). -/
def Obligations.DecodingIsByMaskAndMatch : Prop :=
  (∀ (w : Command) (o : Opcode), w &&& o.format.mask = o.pattern → decode w = .ok (operandsOf o w)) ∧
  (∀ w : Command, (∀ o : Opcode, w &&& o.format.mask ≠ o.pattern) → ∃ e, decode w = .error e) ∧
  ∀ (w : Command) (o o' : Opcode), w &&& o.format.mask = o.pattern → w &&& o'.format.mask = o'.pattern → o = o'

/-- 30_encoding.md R96, R97: there are 241 reserved values of `op`; a word with one of them, and a word with a defined
`op` and a "must be 0" field that is not 0, raises IllegalCommand in IDLE, ENC and DEC and is dropped in FAULT. -/
def Obligations.IllegalWordsRaiseIllegalCommand : Prop :=
  ((List.range 256).filter fun n => (opcodeOf (BitVec.ofNat 8 n)).isNone).length = 241 ∧
  ∀ (s : State) (w : Command) (rest : List HostAction), s.host = .command w :: rest →
    ((∀ o : Opcode, opField w ≠ o.byte) ∨ ∃ o : Opcode, opField w = o.byte ∧ reservedZero o.format w = false) →
    (s.phase ≠ .fault →
      step s = .next { s with
        host := rest, fc := some .illegalCommand, fphase := s.phase, fop := w.extractLsb' 56 8
        finfo := w.extractLsb' 32 32, phase := .fault }) ∧
    (s.phase = .fault → step s = .next { s with host := rest })

/-- 00_scope.md R9, R14; 60_exceptions.md R293: a step runs the command the presented word decodes to, with the word
taken from what the host has still to present; when nothing is presented the state is held (log 3). `withFetchWord`
presents a word first (log 4, the model's own). -/
def Obligations.StepRunsTheDecodedCommand : Prop :=
  (∀ (s : State) (w : Command) (rest : List HostAction) (i : Instr),
    s.host = .command w :: rest → decode w = .ok i → step s = exec i { s with host := rest }) ∧
  (∀ s : State, s.host = [] → step s = .next s) ∧
  ∀ (s : State) (w : Command) (i : Instr), decode w = .ok i → step (s.withFetchWord 64 w.toNat) = exec i s

/-- 30_encoding.md R95, R104; 60_exceptions.md R273, R277: every command answers a next state from every state, and so
does every step; a command changes neither the parameters nor the model's own fields. -/
def Obligations.EveryCommandAnswersANextState : Prop :=
  (∀ (i : Instr) (s : State), ∃ t, exec i s = .next t ∧
    t.config = s.config ∧ t.host = s.host ∧ t.resets = s.resets) ∧
  ∀ s : State, ∃ t, step s = .next t ∧ t.config = s.config

/-! ## Reset and invariants -/

/-- 10_state.md R53, the column "value after hardware reset", of every instance and every reset: control registers,
traces and FAULT output; the unspecified tables hold what their storage can hold. The default parameters of
State.reset are 00_scope.md R7's, and so are the numbers of every instance: INTSIZE, MAXCOUNT, and W and CODE_MAX, which
the spec derives. That `host` is empty is the model's (log 2). -/
def Obligations.ResetLeavesTheStatedValues : Prop :=
  (∀ (c : Config) (n : Nat) (t : State), t = State.afterReset c n →
    t.phase = .idle ∧ t.ddone = false ∧ t.acc = 0 ∧ t.nacc = 0 ∧ t.bitcnt = 0 ∧ t.root = 0 ∧ t.cursor = 0 ∧
    t.dtotal = 0 ∧ t.dcnt = 0 ∧ t.dbytes = 0 ∧ causeCode t.fc = 0 ∧ t.fphase = .idle ∧ t.fop = 0 ∧ t.finfo = 0 ∧
    t.out = [] ∧ t.rsp = [] ∧ faultOutput t = false ∧ t.config = c ∧ t.host = [] ∧
    (∀ b, (readFreq b t).toNat < 2 ^ c.width) ∧ ∀ b, (readCode b t).length ≤ 255) ∧
  State.reset = State.afterReset Config.standard 0 ∧
  Config.standard.intSize.bytes = 4 ∧ Config.standard.byteOrder = .little ∧
  (∀ c : Config,
    (c.intSize = .two → c.intSize.bytes = 2 ∧ c.width = 16 ∧ c.maxCount = 32767) ∧
    (c.intSize = .four → c.intSize.bytes = 4 ∧ c.width = 32 ∧ c.maxCount = 2147483647)) ∧
  Config.codeMax = 255

/-- 70_reset_and_hazards.md R310: the reset input takes the block to the state of 10_state.md R53 at any time,
whatever it was doing; OUT and RSP are emptied, the tables become unspecified. The model's own: a reset inside a command
stands in the command's place (log 10), what the host has still to present stays (log 2), and `resets`, the counter of
the free values, counts the reset (log 5). -/
def Obligations.HardwareResetAtAnyTime : Prop :=
  ∀ (s : State) (rest : List HostAction), s.host = .hardwareReset :: rest →
    ∃ t, step s = .next t ∧ t = { State.afterReset s.config s.resets with host := rest } ∧
      t.phase = .idle ∧ t.fc = none ∧ t.out = [] ∧ t.rsp = [] ∧ t.resets = s.resets + 1 ∧
      (∀ b, (readFreq b t).toNat < 2 ^ s.config.width) ∧ ∀ b, (readCode b t).length ≤ 255

/-- 10_state.md R54 to R57, which the spec derives from its command rules, and the ranges of its sections 2 and 4 hold
right after every hardware reset of every instance, whatever the host presents afterwards. -/
def Obligations.InvariantHoldsAtReset : Prop :=
  (∀ (c : Config) (n : Nat) (actions : List HostAction), Inv { State.afterReset c n with host := actions }) ∧
  Inv State.reset

/-- 10_state.md R54 to R57, which the spec derives from its command rules, and the ranges of its sections 2 and 4:
every step from a state that meets the invariant, reached or not, answers a state that meets it. -/
def Obligations.InvariantIsKeptByEveryStep : Prop :=
  ∀ s t : State, Inv s → step s = .next t → Inv t

/-- 10_state.md R54, R55, R56, which the spec derives from its command rules, in every state the block can come to,
with any commands and resets before it. -/
def Obligations.SessionRegistersStayConsistent : Prop :=
  ∀ s : State, Reachable s →
    (s.phase = .enc → s.nacc.toNat = s.bitcnt.toNat % 8 ∧ s.acc.toNat < 2 ^ s.nacc.toNat) ∧
    s.dcnt.toNat ≤ s.dtotal.toNat ∧
    (s.phase = .dec → s.dcnt.toNat < s.dtotal.toNat ∧ s.dcnt.toNat = 8 * s.dbytes.toNat) ∧
    (s.ddone = true → s.dcnt = s.dtotal ∧ s.dbytes.toNat = (s.dtotal.toNat + 7) / 8) ∧
    (s.fc = some .corruption →
      8 * s.dbytes.toNat ≤ s.dcnt.toNat ∧ s.dcnt.toNat ≤ 8 * s.dbytes.toNat + 7 ∧ s.dcnt.toNat < s.dtotal.toNat) ∧
    (s.phase = .dec → s.cursor = s.root ∨ (readNode s.cursor s).isLeaf = false) ∧
    (faultOutput s = true ↔ s.fc ≠ none)

/-! ## System commands -/

/-- 44_system.md R211: NOP is the all-zero word and no other, it has no effect in any phase, and a word with its `op`
and any other bit 1 raises IllegalCommand in IDLE, ENC and DEC. -/
def Obligations.NopHasNoEffect : Prop :=
  (∀ s : State, exec .nop s = .next s) ∧
  (∀ w : Command, decode w = .ok .nop ↔ w = 0x0000000000000000) ∧
  ∀ (s : State) (w : Command) (rest : List HostAction), s.host = .command w :: rest → opField w = 0x00 → w ≠ 0 →
    s.phase ≠ .fault → step s = .next { s with
      host := rest, fc := some .illegalCommand, fphase := s.phase, fop := 0x00
      finfo := w.extractLsb' 32 32, phase := .fault }

/-- 44_system.md R212, R213; 70_reset_and_hazards.md R312: RST, legal in every phase, gives every control register the
value hardware reset gives it and leaves the tables and the traces alone. -/
def Obligations.RstResetsTheControlRegisters : Prop :=
  ∀ s : State, exec .rst s = .next
    { State.afterReset s.config 0 with
      freq := s.freq, code := s.code, node := s.node, out := s.out, rsp := s.rsp, host := s.host
      resets := s.resets }

/-- 44_system.md R214; 10_state.md R37: RDREG r responds in every phase with the word of register r and changes
nothing else; the word field by field, PHASE and FPHASE with the numbers of 10_state.md R23, FC with the codes of
60_exceptions.md R271; every field not listed reads 0, and so does every register from 10 to 255. -/
def Obligations.RdregRespondsTheRegisterMap : Prop :=
  ∀ s : State,
    (∀ r : Byte, exec (.rdreg r) s = .next { s with rsp := s.rsp ++ [regword r s] }) ∧
    ((regword 0 s).extractLsb' 0 4).toNat = s.config.intSize.bytes ∧
    (regword 0 s).getLsbD 4 = (s.config.byteOrder == .big) ∧ (regword 0 s).extractLsb' 5 27 = 0 ∧
    ((regword 1 s).extractLsb' 0 2).toNat =
      (match s.phase with | .idle => 0 | .enc => 1 | .dec => 2 | .fault => 3) ∧
    (regword 1 s).getLsbD 2 = s.ddone ∧ (regword 1 s).extractLsb' 3 29 = 0 ∧
    ((regword 2 s).extractLsb' 0 4).toNat =
      (match s.fc with
        | none => 0
        | some .illegalCommand => 1
        | some .seqError => 2
        | some .illegalOperand => 3
        | some .histOverflow => 4
        | some .codeTooLong => 5
        | some .bitcountOverflow => 6
        | some .corruption => 7) ∧
    ((regword 2 s).extractLsb' 4 2).toNat =
      (match s.fphase with | .idle => 0 | .enc => 1 | .dec => 2 | .fault => 3) ∧
    (regword 2 s).extractLsb' 6 2 = 0 ∧ (regword 2 s).extractLsb' 8 8 = s.fop ∧
    (regword 2 s).extractLsb' 16 16 = 0 ∧
    regword 3 s = s.finfo ∧
    (regword 4 s).extractLsb' 0 8 = s.acc ∧ (regword 4 s).extractLsb' 8 3 = s.nacc ∧
    (regword 4 s).extractLsb' 11 21 = 0 ∧
    regword 5 s = s.bitcnt ∧ regword 6 s = s.dtotal ∧ regword 7 s = s.dcnt ∧ regword 8 s = s.dbytes ∧
    ((regword 9 s).extractLsb' 0 9).toNat = s.cursor.val ∧ (regword 9 s).extractLsb' 9 7 = 0 ∧
    ((regword 9 s).extractLsb' 16 9).toNat = s.root.val ∧ (regword 9 s).extractLsb' 25 7 = 0 ∧
    ∀ r : Byte, 10 ≤ r.toNat → regword r s = 0

/-- 44_system.md R210: the system commands are the only ones that act in phase FAULT, RST and RDREG are legal in every
phase, and none of the three reads or writes a table: with other tables they do the same, and leave those tables. -/
def Obligations.SystemCommandsIgnoreTheTables : Prop :=
  (∀ (i : Instr) (s : State), s.phase = .fault → (∀ r, i ≠ .rdreg r) → i ≠ .rst → exec i s = .next s) ∧
  (∀ p : Phase, legalIn .rst p = true ∧ legalIn .rdreg p = true) ∧
  ∀ (i : Instr) (s t : State) (freq : Vector Word 256) (code : Vector (List Bool) 256) (node : Vector Node 511),
    (i = .nop ∨ i = .rst ∨ ∃ r, i = .rdreg r) → exec i s = .next t →
      t.freq = s.freq ∧ t.code = s.code ∧ t.node = s.node ∧
      exec i { s with freq := freq, code := code, node := node } =
        .next { t with freq := freq, code := code, node := node }

/-! ## Histogram -/

/-- 40_histogram.md R131: HCLR in phase IDLE makes every count 0 and changes nothing else. -/
def Obligations.HclrClearsEveryCount : Prop :=
  ∀ s : State, s.phase = .idle → ∃ t, exec .hclr s = .next t ∧ t = { s with freq := t.freq } ∧
    ∀ b, readFreq b t = 0

/-- 40_histogram.md R132, R135: HACC b in phase IDLE adds 1 to one count and changes nothing else; at MAXCOUNT or
above it raises HistOverflow, with FINFO = b, and the counts stay. -/
def Obligations.HaccCountsOneOccurrence : Prop :=
  ∀ (s : State) (b : Byte), s.phase = .idle →
    ((readFreq b s).toNat < s.config.maxCount →
      ∃ t, exec (.hacc b) s = .next t ∧ t = { s with freq := t.freq } ∧
        (readFreq b t).toNat = (readFreq b s).toNat + 1 ∧ ∀ b', b' ≠ b → readFreq b' t = readFreq b' s) ∧
    (s.config.maxCount ≤ (readFreq b s).toNat →
      exec (.hacc b) s = .next { s with
        fc := some .histOverflow, fphase := .idle, fop := 0x11, finfo := b.setWidth 32, phase := .fault })

/-- 40_histogram.md R133: HLD i, v in phase IDLE writes one count; a v above MAXCOUNT raises IllegalOperand with FINFO
= v and writes nothing. -/
def Obligations.HldLoadsOneCount : Prop :=
  ∀ (s : State) (i : Byte) (v : Word), s.phase = .idle →
    (v.toNat ≤ s.config.maxCount →
      ∃ t, exec (.hld i v) s = .next t ∧ t = { s with freq := t.freq } ∧
        readFreq i t = v ∧ ∀ b, b ≠ i → readFreq b t = readFreq b s) ∧
    (s.config.maxCount < v.toNat →
      exec (.hld i v) s = .next { s with
        fc := some .illegalOperand, fphase := .idle, fop := 0x12, finfo := v, phase := .fault })

/-- 40_histogram.md R134, 20_memory.md R62: HRD i in phase IDLE responds with the count and changes nothing else; read
again it responds with the same word. -/
def Obligations.HrdRespondsTheCount : Prop :=
  ∀ (s : State) (i : Byte), s.phase = .idle →
    ∃ t u, exec (.hrd i) s = .next t ∧ t = { s with rsp := s.rsp ++ [readFreq i s] } ∧
      exec (.hrd i) t = .next u ∧ u.rsp = s.rsp ++ [readFreq i s, readFreq i s]

/-- 40_histogram.md R130, which the spec derives from R131 and R132: after HCLR and one HACC for each byte of an
input, in any order, every entry of FREQ is the number of occurrences of its byte value, the counts sum to the length
of the input, and nothing else has changed. -/
def Obligations.HistogramCountsOccurrences : Prop :=
  ∀ (s : State) (input : List Byte), s.phase = .idle → (∀ b, input.count b ≤ s.config.maxCount) →
    ∃ t, runsTo (hist input) s t ∧ t = { s with freq := t.freq, host := [] } ∧
      (∀ b, (readFreq b t).toNat = input.count b) ∧
      (allSymbols.map fun b => (readFreq b t).toNat).sum = input.length

/-! ## Code table and tree -/

/-- 41_tables.md R151: CCLR b in phase IDLE makes one code word empty and changes nothing else. -/
def Obligations.CclrEmptiesOneCodeWord : Prop :=
  ∀ (s : State) (b : Byte), s.phase = .idle →
    ∃ t, exec (.cclr b) s = .next t ∧ t = { s with code := t.code } ∧
      readCode b t = [] ∧ ∀ b', b' ≠ b → readCode b' t = readCode b' s

/-- 41_tables.md R152: CAPP b, bit in phase IDLE appends one bit to one code word; a word of 255 bits raises
CodeTooLong with FINFO = b and stays. -/
def Obligations.CappAppendsOneBit : Prop :=
  ∀ (s : State) (b : Byte) (bit : Bool), s.phase = .idle →
    ((readCode b s).length < 255 →
      ∃ t, exec (.capp b bit) s = .next t ∧ t = { s with code := t.code } ∧
        readCode b t = readCode b s ++ [bit] ∧ ∀ b', b' ≠ b → readCode b' t = readCode b' s) ∧
    (255 ≤ (readCode b s).length →
      exec (.capp b bit) s = .next { s with
        fc := some .codeTooLong, fphase := .idle, fop := 0x21, finfo := b.setWidth 32, phase := .fault })

/-- 41_tables.md R153: NLD n, v, l, r in phase IDLE writes one entry of NODE, 511 being the absent child; the first
operand out of range in the order n, l, r raises IllegalOperand with its value, and NODE stays. -/
def Obligations.NldLoadsOneNode : Prop :=
  ∀ (s : State) (n : BitVec 16) (v : Byte) (l r : BitVec 16), s.phase = .idle →
    (∀ k : NodeIdx, n.toNat = k.val → l.toNat ≤ 511 → r.toNat ≤ 511 →
      ∃ t, exec (.nld n v l r) s = .next t ∧ t = { s with node := t.node } ∧
        (readNode k t).value = v ∧
        (∀ c, (readNode k t).left = some c ↔ l.toNat = c.val) ∧ ((readNode k t).left = none ↔ l.toNat = 511) ∧
        (∀ c, (readNode k t).right = some c ↔ r.toNat = c.val) ∧ ((readNode k t).right = none ↔ r.toNat = 511) ∧
        ∀ m, m ≠ k → readNode m t = readNode m s) ∧
    (510 < n.toNat → exec (.nld n v l r) s = .next { s with
      fc := some .illegalOperand, fphase := .idle, fop := 0x28, finfo := n.setWidth 32, phase := .fault }) ∧
    (n.toNat ≤ 510 → 511 < l.toNat → exec (.nld n v l r) s = .next { s with
      fc := some .illegalOperand, fphase := .idle, fop := 0x28, finfo := l.setWidth 32, phase := .fault }) ∧
    (n.toNat ≤ 510 → l.toNat ≤ 511 → 511 < r.toNat → exec (.nld n v l r) s = .next { s with
      fc := some .illegalOperand, fphase := .idle, fop := 0x28, finfo := r.setWidth 32, phase := .fault })

/-- 41_tables.md R150, which the spec derives from R151 and R152: after LOADCODE b with a word of at most 255 bits the
code word of b is that word; the other code words and everything else are as before. -/
def Obligations.LoadcodeLoadsACodeWord : Prop :=
  ∀ (s : State) (b : Byte) (bits : List Bool), s.phase = .idle → bits.length ≤ 255 →
    ∃ t, runsTo (loadCode b bits) s t ∧ t = { s with code := t.code, host := [] } ∧
      readCode b t = bits ∧ ∀ b', b' ≠ b → readCode b' t = readCode b' s

/-! ## Encoder -/

/-- 42_encoder.md R171: EBEGIN in phase IDLE emits the header, 256 * INTSIZE bytes with the integer of symbol b at
offset b * INTSIZE, clears ACC, NACC and BITCNT and opens the session; nothing else changes. -/
def Obligations.EbeginWritesTheHeader : Prop :=
  ∀ s : State, s.phase = .idle →
    ∃ t header, exec .ebegin s = .next t ∧
      t = { s with out := s.out ++ header, acc := 0, nacc := 0, bitcnt := 0, phase := .enc } ∧
      header.length = 256 * s.config.intSize.bytes ∧
      ∀ b : Byte, (header.drop (b.toNat * s.config.intSize.bytes)).take s.config.intSize.bytes =
        intBytes s.config (readFreq b s)

/-- 42_encoder.md R172, R176: ESYM b in phase ENC appends the code word of b to the bits ACC holds, emits every byte
that is filled, and holds the rest; when BITCNT would pass MAXCOUNT it raises BitcountOverflow with FINFO = b and
changes nothing else. The premise on ACC is 10_state.md R54, which `InvariantIsKeptByEveryStep` states. -/
def Obligations.EsymAppendsACodeWord : Prop :=
  ∀ (s : State) (b : Byte), s.phase = .enc → s.acc.toNat < 2 ^ s.nacc.toNat →
    (s.bitcnt.toNat + (readCode b s).length ≤ s.config.maxCount →
      ∃ t, exec (.esym b) s = .next t ∧
        t = { s with acc := t.acc, nacc := t.nacc, bitcnt := t.bitcnt, out := t.out } ∧
        t.out = s.out ++ (packBits (pendingBits s ++ readCode b s)).take
          ((s.nacc.toNat + (readCode b s).length) / 8) ∧
        pendingBits t = (pendingBits s ++ readCode b s).drop (8 * ((s.nacc.toNat + (readCode b s).length) / 8)) ∧
        t.nacc.toNat = (s.nacc.toNat + (readCode b s).length) % 8 ∧
        t.acc.toNat < 2 ^ t.nacc.toNat ∧ t.bitcnt.toNat = s.bitcnt.toNat + (readCode b s).length) ∧
    (s.config.maxCount < s.bitcnt.toNat + (readCode b s).length →
      exec (.esym b) s = .next { s with
        fc := some .bitcountOverflow, fphase := .enc, fop := 0x31, finfo := b.setWidth 32, phase := .fault })

/-- 42_encoder.md R173: ESYM of a symbol whose code word is empty changes nothing and raises no fault. The premise on
BITCNT is 10_state.md R27, which `InvariantIsKeptByEveryStep` states. -/
def Obligations.EsymOfAnEmptyCodeWord : Prop :=
  ∀ (s : State) (b : Byte), s.phase = .enc → s.bitcnt.toNat ≤ s.config.maxCount → readCode b s = [] →
    exec (.esym b) s = .next s

/-- 42_encoder.md R174: EEND in phase ENC emits the bits held as one padded byte, if there are any, and then the bit
count, responds with the bit count and closes the session; BITCNT stays. The premise on ACC is 10_state.md R54, which
`InvariantIsKeptByEveryStep` states. -/
def Obligations.EendClosesTheSession : Prop :=
  ∀ s : State, s.phase = .enc → s.acc.toNat < 2 ^ s.nacc.toNat →
    exec .eend s = .next { s with
      out := s.out ++ packBits (pendingBits s) ++ intBytes s.config s.bitcnt
      rsp := s.rsp ++ [s.bitcnt], acc := 0, nacc := 0, phase := .idle }

/-- 42_encoder.md R170, R175, which the spec derives from R171, R172 and R174; 20_memory.md R65; 30_encoding.md R107:
an encode session with any NOP and RDREG commands between its own appends to OUT exactly the encoded stream of FREQ
and of the concatenated code words of its input, its last response is the number of code bits, and it ends in phase
IDLE; nothing else changes. -/
def Obligations.EncodeSessionWritesTheEncodedStream : Prop :=
  ∀ (s : State) (inner : List Instr) (input : List Byte), s.phase = .idle →
    (∀ i ∈ inner, isWatch i = true ∨ ∃ b, i = .esym b) → inner.filterMap esymOperand = input →
    (codeBits s input).length ≤ s.config.maxCount →
    ∃ t, runsTo (.ebegin :: (inner ++ [.eend])) s t ∧
      t = { s with
        out := s.out ++ encodedStream s.config s.freq (codeBits s input)
        rsp := s.rsp ++ registerWords (.ebegin :: inner) s ++ [t.bitcnt]
        acc := 0, nacc := 0, bitcnt := t.bitcnt, host := [] } ∧
      t.rsp.length = s.rsp.length + (inner.filterMap rdregOperand).length + 1 ∧
      t.bitcnt.toNat = (input.map fun b => (readCode b s).length).sum ∧
      t.out.length = s.out.length + 256 * s.config.intSize.bytes + (t.bitcnt.toNat + 7) / 8 + s.config.intSize.bytes

/-- 20_memory.md R68, R69: bit number m of a packed section is bit 7 - (m mod 8) of its byte m div 8; the bits of the
last byte that belong to no code word are 0; there is no byte beyond the last bit's. -/
def Obligations.PackedBitPositions : Prop :=
  ∀ bits : List Bool, (packBits bits).length = (bits.length + 7) / 8 ∧
    ∀ m, m < 8 * (packBits bits).length →
      ((packBits bits).getD (m / 8) 0).getLsbD (7 - m % 8) = bits.getD m false

/-- 20_memory.md R71: the size of an encoded stream. -/
def Obligations.EncodedStreamSize : Prop :=
  ∀ (c : Config) (freq : Vector Word 256) (bits : List Bool),
    (encodedStream c freq bits).length =
      256 * c.intSize.bytes + (bits.length + 7) / 8 + c.intSize.bytes

/-- 20_memory.md R65, R70; 49_host_contract.md R251: a host that reads a stream back finds the frequency table in the
header, the bit count in the trailer and the packed section between them. -/
def Obligations.EncodedStreamReadsBack : Prop :=
  ∀ (c : Config) (freq : Vector Word 256) (bits : List Bool),
    (∀ b, (symGet freq b).toNat < 2 ^ c.width) → bits.length ≤ c.maxCount →
    (∀ b, headerOf c (encodedStream c freq bits) b = (symGet freq b).toNat) ∧
    (trailerOf c (encodedStream c freq bits)).toNat = bits.length ∧
    packedOf c (encodedStream c freq bits) = packBits bits

/-- 20_memory.md R66: `int_bytes` of a W-bit number is its INTSIZE bytes, least significant first when BYTE_ORDER
is little and last when it is big; and R67, which the spec derives from R66: `bytes_int` is its inverse. -/
def Obligations.IntBytesAndBytesInt : Prop :=
  ∀ (c : Config) (v : Word), v.toNat < 2 ^ c.width →
    (intBytes c v).length = c.intSize.bytes ∧
    (∀ k, k < c.intSize.bytes → c.byteOrder = .little → (intBytes c v).getD k 0 = v.extractLsb' (8 * k) 8) ∧
    (∀ k, k < c.intSize.bytes → c.byteOrder = .big →
      (intBytes c v).getD (c.intSize.bytes - 1 - k) 0 = v.extractLsb' (8 * k) 8) ∧
    bytesInt c (intBytes c v) = v ∧
    ∀ l : List Byte, l.length = c.intSize.bytes → bytesInt c l = v → l = intBytes c v

/-! ## Decoder -/

/-- 43_decoder.md R191: DBEGIN root, total in phase IDLE opens a decode session; with a bit count of 0 the session is
complete at once; the first operand out of range in the order root, total raises IllegalOperand with its value. -/
def Obligations.DbeginOpensADecodeSession : Prop :=
  ∀ (s : State) (root : BitVec 16) (total : Word), s.phase = .idle →
    (∀ k : NodeIdx, root.toNat = k.val → total.toNat ≤ s.config.maxCount → total ≠ 0 →
      exec (.dbegin root total) s = .next { s with
        root := k, cursor := k, dtotal := total, dcnt := 0, dbytes := 0, ddone := false, phase := .dec }) ∧
    (∀ k : NodeIdx, root.toNat = k.val → total = 0 →
      exec (.dbegin root total) s = .next { s with
        root := k, cursor := k, dtotal := 0, dcnt := 0, dbytes := 0, ddone := true }) ∧
    (510 < root.toNat → exec (.dbegin root total) s = .next { s with
      fc := some .illegalOperand, fphase := .idle, fop := 0x40, finfo := root.setWidth 32, phase := .fault }) ∧
    (root.toNat ≤ 510 → s.config.maxCount < total.toNat → exec (.dbegin root total) s = .next { s with
      fc := some .illegalOperand, fphase := .idle, fop := 0x40, finfo := total, phase := .fault })

/-- 43_decoder.md R193, R195: DBYTE in phase DEC, when every bit it wants finds a child, walks the tree by those bits,
emits the values of the leaves reached, counts the bits and the byte, and closes the session exactly when the bit
count is reached, also inside a code word. The premise on DCNT is 10_state.md R55, which `InvariantIsKeptByEveryStep`
states. -/
def Obligations.DbyteWalksTheTree : Prop :=
  ∀ (s : State) (b : Byte) (n : NodeIdx) (emitted : List Byte), s.phase = .dec →
    s.dcnt.toNat < s.dtotal.toNat → treeWalk s (wantedBits b s) s.cursor = some (n, emitted) →
    ∃ t, exec (.dbyte b) s = .next t ∧
      t = { s with
        cursor := n, out := s.out ++ emitted, dbytes := s.dbytes + 1
        dcnt := t.dcnt, phase := t.phase, ddone := t.ddone } ∧
      t.dcnt.toNat = min (s.dcnt.toNat + 8) s.dtotal.toNat ∧
      (s.dtotal.toNat ≤ s.dcnt.toNat + 8 → t.phase = .idle ∧ t.ddone = true) ∧
      (s.dcnt.toNat + 8 < s.dtotal.toNat → t.phase = .dec ∧ t.ddone = s.ddone)

/-- 43_decoder.md R194: when a wanted bit selects an absent child DBYTE raises Corruption with FINFO = DBYTES; the
bits before it have had their effect, the offending bit is not counted, DBYTES stays. The premise on DCNT is
10_state.md R55. -/
def Obligations.DbyteCorruptionFault : Prop :=
  ∀ (s : State) (b : Byte) (good : List Bool) (bad : Bool) (rest : List Bool) (n : NodeIdx) (emitted : List Byte),
    s.phase = .dec → s.dcnt.toNat ≤ s.dtotal.toNat → wantedBits b s = good ++ bad :: rest →
    treeWalk s good s.cursor = some (n, emitted) → (readNode n s).child bad = none →
    exec (.dbyte b) s = .next { s with
      cursor := n, out := s.out ++ emitted, dcnt := s.dcnt + BitVec.ofNat 32 good.length
      fc := some .corruption, fphase := .dec, fop := 0x41, finfo := s.dbytes, phase := .fault }

/-- 43_decoder.md R196: padding is ignored: two bytes that agree in the bits up to bit number DTOTAL-1 do the same.
The premise on DCNT is 10_state.md R55. -/
def Obligations.PaddingIsIgnored : Prop :=
  ∀ (s : State) (b b' : Byte), s.dcnt.toNat ≤ s.dtotal.toNat →
    (∀ k, k < 8 → k < s.dtotal.toNat - s.dcnt.toNat → b.getLsbD (7 - k) = b'.getLsbD (7 - k)) →
    exec (.dbyte b) s = exec (.dbyte b') s

/-- 43_decoder.md R198, which the spec derives from R193: DBYTE never reads FREQ, CODE, an entry its walk does not
visit, or the value of an entry that is no leaf, and never writes a table: with all of those changed it does the same.
The premise on DCNT is 10_state.md R55. -/
def Obligations.DecoderReadsOnlyItsWalk : Prop :=
  ∀ (s t : State) (b : Byte) (freq : Vector Word 256) (code : Vector (List Bool) 256) (node : Vector Node 511),
    s.dcnt.toNat ≤ s.dtotal.toNat →
    (∀ n ∈ visited s (wantedBits b s) s.cursor,
      (readNode n s).left = node[n.val].left ∧ (readNode n s).right = node[n.val].right ∧
      ((readNode n s).isLeaf = true → (readNode n s).value = node[n.val].value)) →
    exec (.dbyte b) s = .next t →
      t.freq = s.freq ∧ t.code = s.code ∧ t.node = s.node ∧
      exec (.dbyte b) { s with freq := freq, code := code, node := node } =
        .next { t with freq := freq, code := code, node := node }

/-- 43_decoder.md R190, which the spec derives from R191 and R193: a decode session with any NOP and RDREG commands
between its own, its packed bytes being exactly as many as the bit count needs and all their bits finding a child,
appends to OUT the values of the leaves reached, in order, and closes by itself; nothing else changes but the
decoder's registers and the responses of the RDREG commands. -/
def Obligations.DecodeSessionEmitsTheLeaves : Prop :=
  ∀ (s : State) (root : BitVec 16) (k : NodeIdx) (total : Word) (inner : List Instr) (packed : List Byte)
    (n : NodeIdx) (emitted : List Byte), s.phase = .idle → root.toNat = k.val →
    total.toNat ≤ s.config.maxCount → total ≠ 0 →
    (∀ i ∈ inner, isWatch i = true ∨ ∃ b, i = .dbyte b) → inner.filterMap dbyteOperand = packed →
    packed.length = (total.toNat + 7) / 8 →
    treeWalk { s with root := k } ((packed.flatMap bitsOf).take total.toNat) k = some (n, emitted) →
    ∃ t, runsTo (.dbegin root total :: inner) s t ∧
      t = { s with
        root := k, cursor := n, dtotal := total, dcnt := total, dbytes := BitVec.ofNat 32 packed.length
        out := s.out ++ emitted, rsp := s.rsp ++ registerWords (.dbegin root total :: inner) s, ddone := true
        host := [] } ∧
      t.rsp.length = s.rsp.length + (inner.filterMap rdregOperand).length

/-! ## Faults and phases -/

/-- 60_exceptions.md R275, R276: a command that raises a fault records the phase, its opcode byte and a cause, raises
the FAULT output and, for every cause but Corruption, changes nothing else; Corruption leaves besides only what the
bits before the offending one did to CURSOR, DCNT and OUT. -/
def Obligations.FaultsArePrecise : Prop :=
  ∀ (i : Instr) (s t : State), s.phase ≠ .fault → exec i s = .next t → t.phase = .fault →
    faultOutput t = true ∧ t.fphase = s.phase ∧ t.fop = i.opcode.byte ∧ t.fc ≠ none ∧
    (t.fc ≠ some .corruption →
      t = { s with fc := t.fc, fphase := t.fphase, fop := t.fop, finfo := t.finfo, phase := .fault }) ∧
    (t.fc = some .corruption →
      (∃ b, i = .dbyte b) ∧ t.finfo = s.dbytes ∧ s.out <+: t.out ∧
      t = { s with
        fc := t.fc, fphase := t.fphase, fop := t.fop, finfo := t.finfo, phase := .fault
        cursor := t.cursor, dcnt := t.dcnt, out := t.out })

/-- 60_exceptions.md R277: in phase FAULT a well-formed RST and a well-formed RDREG act, and every other word, well
formed or not, is dropped: only the word itself is taken from what the host presents. -/
def Obligations.FaultPhaseDropsOtherWords : Prop :=
  ∀ (s : State) (w : Command) (rest : List HostAction), s.phase = .fault → s.host = .command w :: rest →
    (w ≠ 0x0100000000000000 → (∀ r : Byte, w ≠ 0x02#8 ++ r ++ 0#48) → step s = .next { s with host := rest }) ∧
    (w = 0x0100000000000000 → step s = exec .rst { s with host := rest }) ∧
    (∀ r : Byte, w = 0x02#8 ++ r ++ 0#48 →
      step s = exec (.rdreg r) { s with host := rest })

/-- 60_exceptions.md R278: the only ways out of phase FAULT are the RST command and hardware reset; both clear the
fault registers, return to IDLE and leave every control register at its reset value. -/
def Obligations.OnlyRstOrResetLeavesFault : Prop :=
  ∀ s t : State, s.phase = .fault → step s = .next t →
    (t.phase ≠ .fault →
      ∃ rest, s.host = .command 0x0100000000000000 :: rest ∨ s.host = .hardwareReset :: rest) ∧
    ((∃ rest, s.host = .command 0x0100000000000000 :: rest ∨ s.host = .hardwareReset :: rest) →
      t.phase = .idle ∧ t.fc = none ∧ t.fphase = .idle ∧ t.fop = 0 ∧ t.finfo = 0 ∧
      t.ddone = false ∧ t.acc = 0 ∧ t.nacc = 0 ∧ t.bitcnt = 0 ∧ t.root = 0 ∧ t.cursor = 0 ∧
      t.dtotal = 0 ∧ t.dcnt = 0 ∧ t.dbytes = 0)

/-- 30_encoding.md R104: the matrix of commands and phases. Where it says SeqError the command raises SeqError and
does nothing else, where it says drop it does nothing, and where it says ok it raises no SeqError; RST and RDREG act
in every phase. -/
def Obligations.PhaseMatrix : Prop :=
  ∀ (i : Instr) (s : State),
    let ok := match i.opcode with
      | .nop => s.phase ≠ .fault
      | .rst | .rdreg => True
      | .hclr | .hacc | .hld | .hrd | .cclr | .capp | .nld | .ebegin | .dbegin => s.phase = .idle
      | .esym | .eend => s.phase = .enc
      | .dbyte => s.phase = .dec
    (¬ ok → s.phase ≠ .fault → exec i s = .next { s with
      fc := some .seqError, fphase := s.phase, fop := i.opcode.byte, finfo := 0, phase := .fault }) ∧
    (¬ ok → s.phase = .fault → exec i s = .next s) ∧
    (ok → ∀ t, exec i s = .next t → t.fc = some .seqError → s.fc = some .seqError) ∧
    (i = .rst → exec i s = .next (resetControl s)) ∧
    ∀ r, i = .rdreg r → exec i s = .next { s with rsp := s.rsp ++ [regword r s] }

/-- 60_exceptions.md R273: the order of the checks of one word in IDLE, ENC and DEC: encoding, phase, operand ranges
in the order the command's rule lists them, and only then the command's own condition. -/
def Obligations.OrderOfChecks : Prop :=
  ∀ (s : State) (w : Command) (rest : List HostAction), s.phase ≠ .fault → s.host = .command w :: rest →
    match decode w with
    | .error _ => step s = .next { s with
        host := rest, fc := some .illegalCommand, fphase := s.phase, fop := w.extractLsb' 56 8
        finfo := w.extractLsb' 32 32, phase := .fault }
    | .ok i =>
      (legalIn i.opcode s.phase = false → step s = .next { s with
        host := rest, fc := some .seqError, fphase := s.phase, fop := w.extractLsb' 56 8, finfo := 0
        phase := .fault }) ∧
      (legalIn i.opcode s.phase = true → i.wellFormed s.config = false →
        step s = .next { s with
          host := rest, fc := some .illegalOperand, fphase := s.phase, fop := w.extractLsb' 56 8
          finfo := match i with
            | .hld _ v => v
            | .nld n _ l r =>
              if 510 < n.toNat then n.setWidth 32 else if 511 < l.toNat then l.setWidth 32 else r.setWidth 32
            | .dbegin root total => if 510 < root.toNat then root.setWidth 32 else total
            | _ => 0
          phase := .fault }) ∧
      (legalIn i.opcode s.phase = true → i.wellFormed s.config = true → ∀ t, step s = .next t →
        t.phase = .fault → t.fc = some .histOverflow ∨ t.fc = some .codeTooLong ∨
          t.fc = some .bitcountOverflow ∨ t.fc = some .corruption)

/-- 44_system.md R215, which the spec derives from the command rules: the transitions of PHASE. Every pair the table
does not list keeps PHASE, or raises a fault. -/
def Obligations.PhaseTransitions : Prop :=
  (∀ (s : State) (rest : List HostAction), s.host = .hardwareReset :: rest → ∃ t, step s = .next t ∧ t.phase = .idle) ∧
  ∀ (i : Instr) (s t : State), exec i s = .next t →
    (s.phase = .idle → i = .ebegin → t.phase = .enc) ∧
    (s.phase = .idle → ∀ root total, i = .dbegin root total → i.wellFormed s.config = true →
      t.phase = if total = 0 then .idle else .dec) ∧
    (s.phase = .enc → i = .eend → t.phase = .idle) ∧
    (s.phase = .dec → (∃ b, i = .dbyte b) → t.phase ≠ .fault →
      t.phase = if t.dcnt = t.dtotal then .idle else .dec) ∧
    (i = .rst → t.phase = .idle) ∧
    (s.phase = .fault → i ≠ .rst → t.phase = .fault) ∧
    (t.phase ≠ s.phase → t.phase = .fault ∨ i = .rst ∨ (s.phase = .idle ∧ i = .ebegin) ∨
      (s.phase = .idle ∧ ∃ root total, i = .dbegin root total) ∨ (s.phase = .enc ∧ i = .eend) ∨
      (s.phase = .dec ∧ ∃ b, i = .dbyte b))

/-! ## The whole machine -/

/-- 10_state.md R48, R49: OUT and RSP are append-only under every step but hardware reset; a command responds only
when it is HRD, RDREG or EEND, and emits only when it is EBEGIN, ESYM, EEND or DBYTE. -/
def Obligations.TracesAreAppendOnly : Prop :=
  (∀ s t : State, step s = .next t → (∀ rest, s.host ≠ .hardwareReset :: rest) → s.out <+: t.out ∧ s.rsp <+: t.rsp) ∧
  ∀ (i : Instr) (s t : State), exec i s = .next t →
    (t.rsp ≠ s.rsp → i.opcode ∈ [Opcode.hrd, .rdreg, .eend]) ∧
    (t.out ≠ s.out → i.opcode ∈ [Opcode.ebegin, .esym, .eend, .dbyte])

/-- 20_memory.md R79; 10_state.md R45, R46, R47: the tables change in phase IDLE alone, FREQ by HCLR, HACC and HLD,
CODE by CCLR and CAPP, NODE by NLD. -/
def Obligations.TablesChangeOnlyInIdle : Prop :=
  ∀ (i : Instr) (s t : State), exec i s = .next t →
    (s.phase ≠ .idle → t.freq = s.freq ∧ t.code = s.code ∧ t.node = s.node) ∧
    (t.freq ≠ s.freq → i.opcode ∈ [Opcode.hclr, .hacc, .hld]) ∧
    (t.code ≠ s.code → i.opcode ∈ [Opcode.cclr, .capp]) ∧
    (t.node ≠ s.node → i.opcode = .nld)

/-- 10_state.md R21, R24 to R32, R38: each working register and DDONE change only by the commands its rule lists. -/
def Obligations.RegistersChangeOnlyByTheirCommands : Prop :=
  ∀ (i : Instr) (s t : State), exec i s = .next t →
    (t.ddone ≠ s.ddone → i.opcode ∈ [Opcode.dbegin, .dbyte, .rst]) ∧
    (t.acc ≠ s.acc → i.opcode ∈ [Opcode.ebegin, .esym, .eend, .rst]) ∧
    (t.nacc ≠ s.nacc → i.opcode ∈ [Opcode.ebegin, .esym, .eend, .rst]) ∧
    (t.bitcnt ≠ s.bitcnt → i.opcode ∈ [Opcode.ebegin, .esym, .rst]) ∧
    (t.root ≠ s.root → i.opcode ∈ [Opcode.dbegin, .rst]) ∧
    (t.cursor ≠ s.cursor → i.opcode ∈ [Opcode.dbegin, .dbyte, .rst]) ∧
    (t.dtotal ≠ s.dtotal → i.opcode ∈ [Opcode.dbegin, .rst]) ∧
    (t.dcnt ≠ s.dcnt → i.opcode ∈ [Opcode.dbegin, .dbyte, .rst]) ∧
    (t.dbytes ≠ s.dbytes → i.opcode ∈ [Opcode.dbegin, .dbyte, .rst])

/-! ## The block and a correct host -/

/-- 49_host_contract.md R235, R237, R242, and R236 and R241, which the spec derives: with every tie-break and every
frequency table the builder makes a tree; it has a leaf for each of the 256 byte values and 511 nodes, its root's
frequency is the sum of the table, every code word has 1 to 255 bits, and no code word is a prefix of another. The heap,
the tie-break as a function of it (log 13) and frequencies without a bound (log 16) are the model's choice. -/
def Obligations.BuilderMakesAPrefixCode : Prop :=
  ∀ (tie : TieBreak) (freq : Byte → Nat), ∃ tree, buildTree tie freq = some tree ∧
    tree.size = 511 ∧ (tree.codes.map Prod.fst).Perm allSymbols ∧
    tree.frequency = (allSymbols.map freq).sum ∧
    (∀ b, 1 ≤ (tree.codeOf b).length ∧ (tree.codeOf b).length ≤ 255) ∧
    ∀ b b', b ≠ b' → ¬ tree.codeOf b <+: tree.codeOf b'

/-- 49_host_contract.md R259: the empty input. HCLR, EBEGIN, EEND emit 257 * INTSIZE zero bytes and respond 0; DBEGIN
with bit count 0 completes at once, walks no tree and emits nothing, and STATUS reads as complete. -/
def Obligations.EmptyInputRoundTrip : Prop :=
  ∀ (s : State) (root : BitVec 16), s.phase = .idle → root.toNat ≤ 510 →
    ∃ t, runsTo [.hclr, .ebegin, .eend, .dbegin root 0, .rdreg 1] s t ∧
      t.out = s.out ++ List.replicate (257 * s.config.intSize.bytes) 0 ∧
      t.rsp = s.rsp ++ [0, decodeComplete] ∧ t.phase = .idle ∧ t.ddone = true ∧
      t.cursor = t.root ∧ t.root.val = root.toNat ∧ t.dcnt = 0 ∧ t.dbytes = 0

/-- 41_tables.md R154, 49_host_contract.md R255: when CODE and NODE describe the same tree for the symbols of an
input, decoding what an encode session wrote gives the input back, without a fault. That a code word takes at least one
step from the root, so that an empty one describes no leaf, is the model's reading of R154 (log 13). -/
def Obligations.BlockRoundTrip : Prop :=
  ∀ (s : State) (root : BitVec 16) (k : NodeIdx) (input : List Byte), s.phase = .idle → root.toNat = k.val →
    tablesAgree s k input → (codeBits s input).length ≤ s.config.maxCount →
    ∃ t u stream, runsTo (encodeSession input) s t ∧ t.out = s.out ++ stream ∧
      runsTo (decodeSession root (trailerOf s.config stream) (packedOf s.config stream)) t u ∧
      u.out = t.out ++ input ∧ u.phase = .idle ∧ u.ddone = true ∧ u.fc = s.fc

/-- 49_host_contract.md R255: the round trip with the source's host: count the input, read the counts, build the tree
with any one tie-break, load its codes and encode; then rebuild the tree from the stream's header alone, load it and
decode. The reconstructed bytes are the input, for every input whose counts and bit count stay in range. The model's
choice (log 13): the numbering of the nodes, a LOADCODE for each of the 256 symbols, and a tie-break that is a function
of the heap; and frequencies without a bound (log 16). -/
def Obligations.RoundTripWithTheHost : Prop :=
  ∀ (s : State) (tie : TieBreak) (input : List Byte), s.phase = .idle → input.length ≤ s.config.maxCount →
    (∀ tree, buildTree tie (fun b => input.count b) = some tree →
      (input.flatMap tree.codeOf).length ≤ s.config.maxCount) →
    ∃ t u v stream coding decoding,
      runsTo (countingCommands input) s t ∧
      codingCommands tie (countsOf (t.rsp.drop s.rsp.length)) input = some coding ∧
      runsTo coding t u ∧ u.out = s.out ++ stream ∧
      decodingCommands tie s.config stream = some decoding ∧
      runsTo decoding u v ∧ v.out = u.out ++ input ∧
      v.rsp.getLast? = some decodeComplete ∧ v.phase = .idle ∧ v.fc = s.fc

/-- 49_host_contract.md R250, which the spec derives; 40_histogram.md R133: 256 HLD commands load a whole frequency
table and change nothing else, and loaded with the counts of an input they leave what counting it and reading the counts
leaves, but for the responses. Their ascending order is the model's choice (log 13). -/
def Obligations.LoadingCountsReplacesCounting : Prop :=
  (∀ (s : State) (freq : Byte → Word), s.phase = .idle → (∀ b, (freq b).toNat ≤ s.config.maxCount) →
    ∃ t, runsTo (loadingCommands freq) s t ∧ t = { s with freq := t.freq, host := [] } ∧
      ∀ b, readFreq b t = freq b) ∧
  ∀ (s : State) (freq : Byte → Word) (input : List Byte), s.phase = .idle →
    (∀ b, input.count b ≤ s.config.maxCount) → (∀ b, (freq b).toNat = input.count b) →
    ∃ t u, runsTo (countingCommands input) s t ∧ runsTo (loadingCommands freq) s u ∧ u = { t with rsp := s.rsp } ∧
      t.rsp = s.rsp ++ allSymbols.map freq

/-- 49_host_contract.md R250, R251, which the spec derives, and R255; 40_histogram.md R133: the round trip with a host
that already has a frequency table, its counts those of the input or not: load it, build the tree with any one tie-break,
load its codes and encode; then rebuild the tree from the stream's header alone, load it and decode. The reconstructed
bytes are the input, for every table and bit count in range. The model's choice (log 13): the order of the HLD commands,
the numbering of the nodes, a LOADCODE for each of the 256 symbols, and a tie-break that is a function of the heap; and
frequencies without a bound (log 16). -/
def Obligations.RoundTripWithLoadedCounts : Prop :=
  ∀ (s : State) (tie : TieBreak) (freq : Byte → Word) (input : List Byte), s.phase = .idle →
    (∀ b, (freq b).toNat ≤ s.config.maxCount) →
    (∀ tree, buildTree tie (fun b => (freq b).toNat) = some tree →
      (input.flatMap tree.codeOf).length ≤ s.config.maxCount) →
    ∃ u v stream coding decoding,
      codingCommands tie (fun b => (freq b).toNat) input = some coding ∧
      runsTo (loadingCommands freq ++ coding) s u ∧ u.out = s.out ++ stream ∧
      decodingCommands tie s.config stream = some decoding ∧
      runsTo decoding u v ∧ v.out = u.out ++ input ∧
      v.rsp.getLast? = some decodeComplete ∧ v.phase = .idle ∧ v.fc = s.fc
end

