-- ==== Sys2Proof/Laws/Decode.lean ====
section
/-! SUPPORT. Laws/Decode.lean: the fields of a word, the opcode map, and what each check of the decoder says. -/

namespace Sys2Proof

/-! ## Fields of a word made of fields -/

@[simp] theorem opField_word (f : Fields) : opField f.word = f.op := by
  unfold opField Fields.word
  apply BitVec.eq_of_getLsbD_eq
  intro k hk
  simp only [BitVec.getLsbD_extractLsb', BitVec.getLsbD_append]
  have h1 : ¬ (56 + k < 32) := by omega
  have h2 : ¬ (56 + k - 32 < 16) := by omega
  have h3 : ¬ (56 + k - 32 - 16 < 8) := by omega
  have h4 : 56 + k - 32 - 16 - 8 = k := by omega
  simp [hk, h1, h2, h3, h4]

@[simp] theorem symField_word (f : Fields) : symField f.word = f.sym := by
  unfold symField Fields.word
  apply BitVec.eq_of_getLsbD_eq
  intro k hk
  simp only [BitVec.getLsbD_extractLsb', BitVec.getLsbD_append]
  have h1 : ¬ (48 + k < 32) := by omega
  have h2 : ¬ (48 + k - 32 < 16) := by omega
  have h3 : 48 + k - 32 - 16 < 8 := by omega
  have h4 : 48 + k - 32 - 16 = k := by omega
  simp [hk, h1, h2, h4]

@[simp] theorem idxField_word (f : Fields) : idxField f.word = f.idx := by
  unfold idxField Fields.word
  apply BitVec.eq_of_getLsbD_eq
  intro k hk
  simp only [BitVec.getLsbD_extractLsb', BitVec.getLsbD_append]
  have h1 : ¬ (32 + k < 32) := by omega
  have h2 : 32 + k - 32 = k := by omega
  simp [hk, h1, h2]

@[simp] theorem dataField_word (f : Fields) : dataField f.word = f.data := by
  unfold dataField Fields.word
  apply BitVec.eq_of_getLsbD_eq
  intro k hk
  simp only [BitVec.getLsbD_extractLsb', BitVec.getLsbD_append]
  simp [hk]

/-- A word is the word of its own four fields. -/
theorem word_of_fields (w : Command) :
    Fields.word { op := opField w, sym := symField w, idx := idxField w, data := dataField w } = w := by
  unfold Fields.word opField symField idxField dataField
  apply BitVec.eq_of_getLsbD_eq
  intro k hk
  simp only [BitVec.getLsbD_extractLsb', BitVec.getLsbD_append]
  by_cases h1 : k < 32
  · simp [h1]
  · by_cases h2 : k - 32 < 16
    · have : 32 + (k - 32) = k := by omega
      simp [h1, h2, this]
    · by_cases h3 : k - 32 - 16 < 8
      · have : 48 + (k - 32 - 16) = k := by omega
        simp [h1, h2, h3, this]
      · have h4 : k - 32 - 16 - 8 < 8 := by omega
        have : 56 + (k - 32 - 16 - 8) = k := by omega
        simp [h1, h2, h3, h4, this]

/-- Two words with the same four fields are the same word. -/
theorem word_ext {w w' : Command} (ho : opField w = opField w') (hs : symField w = symField w')
    (hi : idxField w = idxField w') (hd : dataField w = dataField w') : w = w' := by
  rw [← word_of_fields w, ← word_of_fields w', ho, hs, hi, hd]

/-- The left child is the low half of `data`. -/
theorem leftField_eq (w : Command) : leftField w = (dataField w).extractLsb' 0 16 := by
  unfold leftField dataField
  apply BitVec.eq_of_getLsbD_eq
  intro k hk
  simp [hk]

/-- The right child is the high half of `data`. -/
theorem rightField_eq (w : Command) : rightField w = (dataField w).extractLsb' 16 16 := by
  unfold rightField dataField
  apply BitVec.eq_of_getLsbD_eq
  intro k hk
  simp [hk]

/-- The bit of format SB is bit 0 of `data`. -/
theorem bitField_eq (w : Command) : bitField w = (dataField w).getLsbD 0 := by
  simp [bitField, dataField]

/-- Bits 31:1 of a word are bits 31:1 of `data`. -/
theorem dataTop_eq (w : Command) : w.extractLsb' 1 31 = (dataField w).extractLsb' 1 31 := by
  unfold dataField
  apply BitVec.eq_of_getLsbD_eq
  intro k hk
  simp [hk]

/-- The two halves of a word made by appending. -/
theorem extract_append_halves (r l : BitVec 16) :
    (r ++ l).extractLsb' 0 16 = l ∧ (r ++ l).extractLsb' 16 16 = r := by
  constructor <;> apply BitVec.eq_of_getLsbD_eq <;> intro k hk <;>
    simp only [BitVec.getLsbD_extractLsb', BitVec.getLsbD_append, hk, decide_true, Bool.true_and]
  · simp [hk]
  · have h1 : ¬ (16 + k < 16) := by omega
    have h2 : 16 + k - 16 = k := by omega
    simp [h1, h2]

/-- A word is its two halves appended. -/
theorem append_extract_halves (d : Word) : d.extractLsb' 16 16 ++ d.extractLsb' 0 16 = d := by
  apply BitVec.eq_of_getLsbD_eq
  intro k hk
  simp only [BitVec.getLsbD_append, BitVec.getLsbD_extractLsb']
  by_cases h : k < 16
  · simp [h]
  · have h1 : k - 16 < 16 := by omega
    have h2 : 16 + (k - 16) = k := by omega
    simp [h, h1, h2]

/-- A `data` field whose bits 31:1 are 0 is its bit 0. -/
theorem data_of_bit {d : Word} (h : d.extractLsb' 1 31 = 0) : d = if d.getLsbD 0 then 1 else 0 := by
  have hb : ∀ k, 0 < k → k < 32 → d.getLsbD k = false := by
    intro k h0 hk
    have := congrArg (fun v => v.getLsbD (k - 1)) h
    have h1 : k - 1 < 31 := by omega
    have h2 : 1 + (k - 1) = k := by omega
    simpa [h1, h2] using this
  apply BitVec.eq_of_getLsbD_eq
  intro k hk
  rcases Nat.eq_zero_or_pos k with rfl | h0
  · cases hd : d.getLsbD 0 <;> rfl
  · rw [hb k h0 hk]
    have h3 : k ≠ 0 := by omega
    cases d.getLsbD 0 <;> simp [BitVec.getLsbD_one, h3]

/-! ## The opcode map -/

@[simp] theorem opcodeOf_byte (o : Opcode) : opcodeOf o.byte = some o := by cases o <;> rfl

/-- An `op` value names at most one command, and it is that command's. -/
theorem byte_of_opcodeOf {b : Byte} {o : Opcode} (h : opcodeOf b = some o) : b = o.byte := by
  unfold opcodeOf at h
  split at h <;> cases h <;> exact BitVec.eq_of_toNat_eq (by assumption)

/-- The opcode byte is the top byte of the pattern, whose other bits are 0. -/
theorem pattern_eq (o : Opcode) : o.pattern = Fields.word { op := o.byte, sym := 0, idx := 0, data := 0 } := by
  cases o <;> decide

/-! ## Selection by mask and match -/

theorem word_inj {f g : Fields} (h : f.word = g.word) : f = g := by
  have ho := congrArg opField h
  have hs := congrArg symField h
  have hi := congrArg idxField h
  have hd := congrArg dataField h
  simp only [opField_word, symField_word, idxField_word, dataField_word] at ho hs hi hd
  cases f; cases g
  simp_all

/-- Masking a word masks its fields. -/
theorem word_and (f g : Fields) :
    f.word &&& g.word = Fields.word
      { op := f.op &&& g.op, sym := f.sym &&& g.sym, idx := f.idx &&& g.idx, data := f.data &&& g.data } := by
  unfold Fields.word
  rw [BitVec.and_append, BitVec.and_append, BitVec.and_append]

/-- The fields of a mask. -/
theorem mask_eq (f : Format) : f.mask = Fields.word
    { op := 0xFF
      sym := if f = .z ∨ f = .d then 0xFF else 0
      idx := if f = .n ∨ f = .d then 0 else 0xFFFF
      data := if f = .z ∨ f = .s then 0xFFFFFFFF else if f = .sb then 0xFFFFFFFE else 0 } := by
  cases f <;> decide

theorem and_ones (n : Nat) (v : BitVec n) : v &&& BitVec.allOnes n = v := BitVec.and_allOnes

/-- Masking off bit 0 leaves 0 exactly when bits 31:1 are 0. -/
theorem mask_sb_data (d : Word) : d &&& 4294967294#32 = 0#32 ↔ d.extractLsb' 1 31 = 0#31 := by
  have hm : ∀ k, (4294967294#32).getLsbD k = (decide (0 < k) && decide (k < 32)) := by
    intro k
    by_cases hk : k < 32
    · interval_cases k <;> decide
    · rw [BitVec.getLsbD_of_ge _ _ (by omega)]; simp [hk]
  constructor
  · intro h
    apply BitVec.eq_of_getLsbD_eq
    intro k hk
    have := congrArg (fun v => v.getLsbD (1 + k)) h
    simp only [BitVec.getLsbD_and, hm] at this
    have h1 : 1 + k < 32 := by omega
    simpa [hk, h1] using this
  · intro h
    rw [data_of_bit h]
    cases d.getLsbD 0 <;> decide

/-- A row of the opcode map selects a word exactly when the word has the row's opcode byte and the reserved fields of
its format are 0 (30_encoding.md R92, R94). -/
theorem selects_iff (o : Opcode) (w : Command) :
    o.selects w = true ↔ opField w = o.byte ∧ reservedZero o.format w = true := by
  have h8 : ∀ v : BitVec 8, v &&& 255#8 = v := fun v => and_ones 8 v
  have h16 : ∀ v : BitVec 16, v &&& 65535#16 = v := fun v => and_ones 16 v
  have h32 : ∀ v : BitVec 32, v &&& 4294967295#32 = v := fun v => and_ones 32 v
  unfold Opcode.selects
  rw [beq_iff_eq, mask_eq, pattern_eq]
  conv_lhs => rw [← word_of_fields w, word_and]
  have hw : ∀ a b c d, (Fields.word { op := a, sym := b, idx := c, data := d } =
      Fields.word { op := o.byte, sym := 0, idx := 0, data := 0 }) ↔ (a = o.byte ∧ b = 0 ∧ c = 0 ∧ d = 0) := by
    intro a b c d
    constructor
    · intro h; have := word_inj h; simpa using this
    · rintro ⟨rfl, rfl, rfl, rfl⟩; rfl
  rw [hw, show opField w &&& 0xFF = opField w from h8 _]
  apply and_congr_right
  intro _
  cases o.format <;> simp [reservedZero, h8, h16, h32, dataTop_eq, mask_sb_data, and_assoc]

/-! ## What the decoder's answer says -/

/-- A word that decodes has its command's opcode byte, its format's reserved fields 0, and its operands in its
fields. -/
theorem decode_ok {w : Command} {i : Instr} (h : decode w = .ok i) :
    ∃ o, opField w = o.byte ∧ reservedZero o.format w = true ∧ i = operandsOf o w := by
  unfold decode at h
  split at h
  · cases h
  · rename_i o ho
    split at h
    · rename_i hz
      injection h with h
      exact ⟨o, byte_of_opcodeOf ho, hz, h.symm⟩
    · cases h

/-- The decoder accepts a word with a defined opcode byte whose reserved fields are 0. -/
theorem decode_of_fields {w : Command} {o : Opcode} (ho : opField w = o.byte)
    (hz : reservedZero o.format w = true) : decode w = .ok (operandsOf o w) := by
  simp [decode, ho, hz]

/-- The decoder refuses a word with a defined opcode byte and a reserved field that is not 0. -/
theorem decode_reservedField {w : Command} {o : Opcode} (ho : opField w = o.byte)
    (hz : reservedZero o.format w = false) : decode w = .error (.reservedField o) := by
  simp [decode, ho, hz]

@[simp] theorem operandsOf_opcode (o : Opcode) (w : Command) : (operandsOf o w).opcode = o := by
  cases o <;> rfl

@[simp] theorem encode_opField (i : Instr) : opField (encode i) = i.opcode.byte := by
  cases i <;> simp [encode, Instr.fields]

/-- The word of a command has its format's reserved fields 0 (30_encoding.md R92). -/
theorem encode_reservedZero (i : Instr) : reservedZero i.opcode.format (encode i) = true := by
  cases i <;> simp [encode, Instr.fields, Instr.opcode, Opcode.format, reservedZero, dataTop_eq]
  split <;> decide

/-- Reading the operand fields of a command's word gives the command (30_encoding.md R93, R110). -/
theorem operandsOf_encode (i : Instr) : operandsOf i.opcode (encode i) = i := by
  cases i <;> simp [encode, Instr.fields, Instr.opcode, operandsOf, bitField_eq, leftField_eq, rightField_eq,
    extract_append_halves]
  rename_i bit
  cases bit <;> decide

/-- The words of the two commands that act in phase FAULT (30_encoding.md R94). -/
theorem encode_rst : encode .rst = 0x0100000000000000 := by decide

theorem encode_rdreg (r : Byte) : encode (.rdreg r) = 0x02#8 ++ r ++ 0#48 := by
  apply BitVec.eq_of_getLsbD_eq
  intro k hk
  simp only [encode, Instr.fields, Fields.word, Instr.opcode, Opcode.byte, BitVec.getLsbD_append]
  by_cases h : k < 48
  · by_cases h1 : k < 32
    · simp [h1, h]
    · simp [h1, h, show k - 32 < 16 by omega]
  · have h1 : ¬ k < 32 := by omega
    have h2 : ¬ k - 32 < 16 := by omega
    have h3 : k - 32 - 16 = k - 48 := by omega
    simp [h, h1, h2, h3]

end Sys2Proof
end

