-- ==== Sys2Proof/Laws/State.lean ====
section
/-! SUPPORT. Laws/State.lean: what each update of the state does to each field, one lemma a field. -/

namespace Sys2Proof.Machine

variable (s : State)

/-! ## `emitAll` -/

@[simp] theorem emitAll_config (bs : List Byte) : (emitAll bs s).config = s.config := rfl
@[simp] theorem emitAll_phase (bs : List Byte) : (emitAll bs s).phase = s.phase := rfl
@[simp] theorem emitAll_ddone (bs : List Byte) : (emitAll bs s).ddone = s.ddone := rfl
@[simp] theorem emitAll_acc (bs : List Byte) : (emitAll bs s).acc = s.acc := rfl
@[simp] theorem emitAll_nacc (bs : List Byte) : (emitAll bs s).nacc = s.nacc := rfl
@[simp] theorem emitAll_bitcnt (bs : List Byte) : (emitAll bs s).bitcnt = s.bitcnt := rfl
@[simp] theorem emitAll_root (bs : List Byte) : (emitAll bs s).root = s.root := rfl
@[simp] theorem emitAll_cursor (bs : List Byte) : (emitAll bs s).cursor = s.cursor := rfl
@[simp] theorem emitAll_dtotal (bs : List Byte) : (emitAll bs s).dtotal = s.dtotal := rfl
@[simp] theorem emitAll_dcnt (bs : List Byte) : (emitAll bs s).dcnt = s.dcnt := rfl
@[simp] theorem emitAll_dbytes (bs : List Byte) : (emitAll bs s).dbytes = s.dbytes := rfl
@[simp] theorem emitAll_fc (bs : List Byte) : (emitAll bs s).fc = s.fc := rfl
@[simp] theorem emitAll_fphase (bs : List Byte) : (emitAll bs s).fphase = s.fphase := rfl
@[simp] theorem emitAll_fop (bs : List Byte) : (emitAll bs s).fop = s.fop := rfl
@[simp] theorem emitAll_finfo (bs : List Byte) : (emitAll bs s).finfo = s.finfo := rfl
@[simp] theorem emitAll_freq (bs : List Byte) : (emitAll bs s).freq = s.freq := rfl
@[simp] theorem emitAll_code (bs : List Byte) : (emitAll bs s).code = s.code := rfl
@[simp] theorem emitAll_node (bs : List Byte) : (emitAll bs s).node = s.node := rfl
@[simp] theorem emitAll_out (bs : List Byte) : (emitAll bs s).out = s.out ++ bs := rfl
@[simp] theorem emitAll_rsp (bs : List Byte) : (emitAll bs s).rsp = s.rsp := rfl
@[simp] theorem emitAll_host (bs : List Byte) : (emitAll bs s).host = s.host := rfl
@[simp] theorem emitAll_resets (bs : List Byte) : (emitAll bs s).resets = s.resets := rfl

/-! ## `emit` -/

@[simp] theorem emit_config (b : Byte) : (emit b s).config = s.config := rfl
@[simp] theorem emit_phase (b : Byte) : (emit b s).phase = s.phase := rfl
@[simp] theorem emit_ddone (b : Byte) : (emit b s).ddone = s.ddone := rfl
@[simp] theorem emit_acc (b : Byte) : (emit b s).acc = s.acc := rfl
@[simp] theorem emit_nacc (b : Byte) : (emit b s).nacc = s.nacc := rfl
@[simp] theorem emit_bitcnt (b : Byte) : (emit b s).bitcnt = s.bitcnt := rfl
@[simp] theorem emit_root (b : Byte) : (emit b s).root = s.root := rfl
@[simp] theorem emit_cursor (b : Byte) : (emit b s).cursor = s.cursor := rfl
@[simp] theorem emit_dtotal (b : Byte) : (emit b s).dtotal = s.dtotal := rfl
@[simp] theorem emit_dcnt (b : Byte) : (emit b s).dcnt = s.dcnt := rfl
@[simp] theorem emit_dbytes (b : Byte) : (emit b s).dbytes = s.dbytes := rfl
@[simp] theorem emit_fc (b : Byte) : (emit b s).fc = s.fc := rfl
@[simp] theorem emit_fphase (b : Byte) : (emit b s).fphase = s.fphase := rfl
@[simp] theorem emit_fop (b : Byte) : (emit b s).fop = s.fop := rfl
@[simp] theorem emit_finfo (b : Byte) : (emit b s).finfo = s.finfo := rfl
@[simp] theorem emit_freq (b : Byte) : (emit b s).freq = s.freq := rfl
@[simp] theorem emit_code (b : Byte) : (emit b s).code = s.code := rfl
@[simp] theorem emit_node (b : Byte) : (emit b s).node = s.node := rfl
@[simp] theorem emit_out (b : Byte) : (emit b s).out = s.out ++ [b] := rfl
@[simp] theorem emit_rsp (b : Byte) : (emit b s).rsp = s.rsp := rfl
@[simp] theorem emit_host (b : Byte) : (emit b s).host = s.host := rfl
@[simp] theorem emit_resets (b : Byte) : (emit b s).resets = s.resets := rfl

/-! ## `respond` -/

@[simp] theorem respond_config (v : Word) : (respond v s).config = s.config := rfl
@[simp] theorem respond_phase (v : Word) : (respond v s).phase = s.phase := rfl
@[simp] theorem respond_ddone (v : Word) : (respond v s).ddone = s.ddone := rfl
@[simp] theorem respond_acc (v : Word) : (respond v s).acc = s.acc := rfl
@[simp] theorem respond_nacc (v : Word) : (respond v s).nacc = s.nacc := rfl
@[simp] theorem respond_bitcnt (v : Word) : (respond v s).bitcnt = s.bitcnt := rfl
@[simp] theorem respond_root (v : Word) : (respond v s).root = s.root := rfl
@[simp] theorem respond_cursor (v : Word) : (respond v s).cursor = s.cursor := rfl
@[simp] theorem respond_dtotal (v : Word) : (respond v s).dtotal = s.dtotal := rfl
@[simp] theorem respond_dcnt (v : Word) : (respond v s).dcnt = s.dcnt := rfl
@[simp] theorem respond_dbytes (v : Word) : (respond v s).dbytes = s.dbytes := rfl
@[simp] theorem respond_fc (v : Word) : (respond v s).fc = s.fc := rfl
@[simp] theorem respond_fphase (v : Word) : (respond v s).fphase = s.fphase := rfl
@[simp] theorem respond_fop (v : Word) : (respond v s).fop = s.fop := rfl
@[simp] theorem respond_finfo (v : Word) : (respond v s).finfo = s.finfo := rfl
@[simp] theorem respond_freq (v : Word) : (respond v s).freq = s.freq := rfl
@[simp] theorem respond_code (v : Word) : (respond v s).code = s.code := rfl
@[simp] theorem respond_node (v : Word) : (respond v s).node = s.node := rfl
@[simp] theorem respond_out (v : Word) : (respond v s).out = s.out := rfl
@[simp] theorem respond_rsp (v : Word) : (respond v s).rsp = s.rsp ++ [v] := rfl
@[simp] theorem respond_host (v : Word) : (respond v s).host = s.host := rfl
@[simp] theorem respond_resets (v : Word) : (respond v s).resets = s.resets := rfl

/-! ## `writeFreq` -/

@[simp] theorem writeFreq_config (b : Byte) (v : Word) : (writeFreq b v s).config = s.config := rfl
@[simp] theorem writeFreq_phase (b : Byte) (v : Word) : (writeFreq b v s).phase = s.phase := rfl
@[simp] theorem writeFreq_ddone (b : Byte) (v : Word) : (writeFreq b v s).ddone = s.ddone := rfl
@[simp] theorem writeFreq_acc (b : Byte) (v : Word) : (writeFreq b v s).acc = s.acc := rfl
@[simp] theorem writeFreq_nacc (b : Byte) (v : Word) : (writeFreq b v s).nacc = s.nacc := rfl
@[simp] theorem writeFreq_bitcnt (b : Byte) (v : Word) : (writeFreq b v s).bitcnt = s.bitcnt := rfl
@[simp] theorem writeFreq_root (b : Byte) (v : Word) : (writeFreq b v s).root = s.root := rfl
@[simp] theorem writeFreq_cursor (b : Byte) (v : Word) : (writeFreq b v s).cursor = s.cursor := rfl
@[simp] theorem writeFreq_dtotal (b : Byte) (v : Word) : (writeFreq b v s).dtotal = s.dtotal := rfl
@[simp] theorem writeFreq_dcnt (b : Byte) (v : Word) : (writeFreq b v s).dcnt = s.dcnt := rfl
@[simp] theorem writeFreq_dbytes (b : Byte) (v : Word) : (writeFreq b v s).dbytes = s.dbytes := rfl
@[simp] theorem writeFreq_fc (b : Byte) (v : Word) : (writeFreq b v s).fc = s.fc := rfl
@[simp] theorem writeFreq_fphase (b : Byte) (v : Word) : (writeFreq b v s).fphase = s.fphase := rfl
@[simp] theorem writeFreq_fop (b : Byte) (v : Word) : (writeFreq b v s).fop = s.fop := rfl
@[simp] theorem writeFreq_finfo (b : Byte) (v : Word) : (writeFreq b v s).finfo = s.finfo := rfl
@[simp] theorem writeFreq_freq (b : Byte) (v : Word) : (writeFreq b v s).freq = symSet s.freq b v := rfl
@[simp] theorem writeFreq_code (b : Byte) (v : Word) : (writeFreq b v s).code = s.code := rfl
@[simp] theorem writeFreq_node (b : Byte) (v : Word) : (writeFreq b v s).node = s.node := rfl
@[simp] theorem writeFreq_out (b : Byte) (v : Word) : (writeFreq b v s).out = s.out := rfl
@[simp] theorem writeFreq_rsp (b : Byte) (v : Word) : (writeFreq b v s).rsp = s.rsp := rfl
@[simp] theorem writeFreq_host (b : Byte) (v : Word) : (writeFreq b v s).host = s.host := rfl
@[simp] theorem writeFreq_resets (b : Byte) (v : Word) : (writeFreq b v s).resets = s.resets := rfl

/-! ## `writeCode` -/

@[simp] theorem writeCode_config (b : Byte) (bits : List Bool) : (writeCode b bits s).config = s.config := rfl
@[simp] theorem writeCode_phase (b : Byte) (bits : List Bool) : (writeCode b bits s).phase = s.phase := rfl
@[simp] theorem writeCode_ddone (b : Byte) (bits : List Bool) : (writeCode b bits s).ddone = s.ddone := rfl
@[simp] theorem writeCode_acc (b : Byte) (bits : List Bool) : (writeCode b bits s).acc = s.acc := rfl
@[simp] theorem writeCode_nacc (b : Byte) (bits : List Bool) : (writeCode b bits s).nacc = s.nacc := rfl
@[simp] theorem writeCode_bitcnt (b : Byte) (bits : List Bool) : (writeCode b bits s).bitcnt = s.bitcnt := rfl
@[simp] theorem writeCode_root (b : Byte) (bits : List Bool) : (writeCode b bits s).root = s.root := rfl
@[simp] theorem writeCode_cursor (b : Byte) (bits : List Bool) : (writeCode b bits s).cursor = s.cursor := rfl
@[simp] theorem writeCode_dtotal (b : Byte) (bits : List Bool) : (writeCode b bits s).dtotal = s.dtotal := rfl
@[simp] theorem writeCode_dcnt (b : Byte) (bits : List Bool) : (writeCode b bits s).dcnt = s.dcnt := rfl
@[simp] theorem writeCode_dbytes (b : Byte) (bits : List Bool) : (writeCode b bits s).dbytes = s.dbytes := rfl
@[simp] theorem writeCode_fc (b : Byte) (bits : List Bool) : (writeCode b bits s).fc = s.fc := rfl
@[simp] theorem writeCode_fphase (b : Byte) (bits : List Bool) : (writeCode b bits s).fphase = s.fphase := rfl
@[simp] theorem writeCode_fop (b : Byte) (bits : List Bool) : (writeCode b bits s).fop = s.fop := rfl
@[simp] theorem writeCode_finfo (b : Byte) (bits : List Bool) : (writeCode b bits s).finfo = s.finfo := rfl
@[simp] theorem writeCode_freq (b : Byte) (bits : List Bool) : (writeCode b bits s).freq = s.freq := rfl
@[simp] theorem writeCode_code (b : Byte) (bits : List Bool) : (writeCode b bits s).code = symSet s.code b bits := rfl
@[simp] theorem writeCode_node (b : Byte) (bits : List Bool) : (writeCode b bits s).node = s.node := rfl
@[simp] theorem writeCode_out (b : Byte) (bits : List Bool) : (writeCode b bits s).out = s.out := rfl
@[simp] theorem writeCode_rsp (b : Byte) (bits : List Bool) : (writeCode b bits s).rsp = s.rsp := rfl
@[simp] theorem writeCode_host (b : Byte) (bits : List Bool) : (writeCode b bits s).host = s.host := rfl
@[simp] theorem writeCode_resets (b : Byte) (bits : List Bool) : (writeCode b bits s).resets = s.resets := rfl

/-! ## `writeNode` -/

@[simp] theorem writeNode_config (n : NodeIdx) (e : Node) : (writeNode n e s).config = s.config := rfl
@[simp] theorem writeNode_phase (n : NodeIdx) (e : Node) : (writeNode n e s).phase = s.phase := rfl
@[simp] theorem writeNode_ddone (n : NodeIdx) (e : Node) : (writeNode n e s).ddone = s.ddone := rfl
@[simp] theorem writeNode_acc (n : NodeIdx) (e : Node) : (writeNode n e s).acc = s.acc := rfl
@[simp] theorem writeNode_nacc (n : NodeIdx) (e : Node) : (writeNode n e s).nacc = s.nacc := rfl
@[simp] theorem writeNode_bitcnt (n : NodeIdx) (e : Node) : (writeNode n e s).bitcnt = s.bitcnt := rfl
@[simp] theorem writeNode_root (n : NodeIdx) (e : Node) : (writeNode n e s).root = s.root := rfl
@[simp] theorem writeNode_cursor (n : NodeIdx) (e : Node) : (writeNode n e s).cursor = s.cursor := rfl
@[simp] theorem writeNode_dtotal (n : NodeIdx) (e : Node) : (writeNode n e s).dtotal = s.dtotal := rfl
@[simp] theorem writeNode_dcnt (n : NodeIdx) (e : Node) : (writeNode n e s).dcnt = s.dcnt := rfl
@[simp] theorem writeNode_dbytes (n : NodeIdx) (e : Node) : (writeNode n e s).dbytes = s.dbytes := rfl
@[simp] theorem writeNode_fc (n : NodeIdx) (e : Node) : (writeNode n e s).fc = s.fc := rfl
@[simp] theorem writeNode_fphase (n : NodeIdx) (e : Node) : (writeNode n e s).fphase = s.fphase := rfl
@[simp] theorem writeNode_fop (n : NodeIdx) (e : Node) : (writeNode n e s).fop = s.fop := rfl
@[simp] theorem writeNode_finfo (n : NodeIdx) (e : Node) : (writeNode n e s).finfo = s.finfo := rfl
@[simp] theorem writeNode_freq (n : NodeIdx) (e : Node) : (writeNode n e s).freq = s.freq := rfl
@[simp] theorem writeNode_code (n : NodeIdx) (e : Node) : (writeNode n e s).code = s.code := rfl
@[simp] theorem writeNode_node (n : NodeIdx) (e : Node) : (writeNode n e s).node = s.node.set n.val e n.isLt := rfl
@[simp] theorem writeNode_out (n : NodeIdx) (e : Node) : (writeNode n e s).out = s.out := rfl
@[simp] theorem writeNode_rsp (n : NodeIdx) (e : Node) : (writeNode n e s).rsp = s.rsp := rfl
@[simp] theorem writeNode_host (n : NodeIdx) (e : Node) : (writeNode n e s).host = s.host := rfl
@[simp] theorem writeNode_resets (n : NodeIdx) (e : Node) : (writeNode n e s).resets = s.resets := rfl

/-! ## `raiseFault` -/

@[simp] theorem raiseFault_config (c : Cause) (op : Byte) (v : Word) : (raiseFault c op v s).config = s.config := rfl
@[simp] theorem raiseFault_phase (c : Cause) (op : Byte) (v : Word) : (raiseFault c op v s).phase = .fault := rfl
@[simp] theorem raiseFault_ddone (c : Cause) (op : Byte) (v : Word) : (raiseFault c op v s).ddone = s.ddone := rfl
@[simp] theorem raiseFault_acc (c : Cause) (op : Byte) (v : Word) : (raiseFault c op v s).acc = s.acc := rfl
@[simp] theorem raiseFault_nacc (c : Cause) (op : Byte) (v : Word) : (raiseFault c op v s).nacc = s.nacc := rfl
@[simp] theorem raiseFault_bitcnt (c : Cause) (op : Byte) (v : Word) : (raiseFault c op v s).bitcnt = s.bitcnt := rfl
@[simp] theorem raiseFault_root (c : Cause) (op : Byte) (v : Word) : (raiseFault c op v s).root = s.root := rfl
@[simp] theorem raiseFault_cursor (c : Cause) (op : Byte) (v : Word) : (raiseFault c op v s).cursor = s.cursor := rfl
@[simp] theorem raiseFault_dtotal (c : Cause) (op : Byte) (v : Word) : (raiseFault c op v s).dtotal = s.dtotal := rfl
@[simp] theorem raiseFault_dcnt (c : Cause) (op : Byte) (v : Word) : (raiseFault c op v s).dcnt = s.dcnt := rfl
@[simp] theorem raiseFault_dbytes (c : Cause) (op : Byte) (v : Word) : (raiseFault c op v s).dbytes = s.dbytes := rfl
@[simp] theorem raiseFault_fc (c : Cause) (op : Byte) (v : Word) : (raiseFault c op v s).fc = some c := rfl
@[simp] theorem raiseFault_fphase (c : Cause) (op : Byte) (v : Word) : (raiseFault c op v s).fphase = s.phase := rfl
@[simp] theorem raiseFault_fop (c : Cause) (op : Byte) (v : Word) : (raiseFault c op v s).fop = op := rfl
@[simp] theorem raiseFault_finfo (c : Cause) (op : Byte) (v : Word) : (raiseFault c op v s).finfo = v := rfl
@[simp] theorem raiseFault_freq (c : Cause) (op : Byte) (v : Word) : (raiseFault c op v s).freq = s.freq := rfl
@[simp] theorem raiseFault_code (c : Cause) (op : Byte) (v : Word) : (raiseFault c op v s).code = s.code := rfl
@[simp] theorem raiseFault_node (c : Cause) (op : Byte) (v : Word) : (raiseFault c op v s).node = s.node := rfl
@[simp] theorem raiseFault_out (c : Cause) (op : Byte) (v : Word) : (raiseFault c op v s).out = s.out := rfl
@[simp] theorem raiseFault_rsp (c : Cause) (op : Byte) (v : Word) : (raiseFault c op v s).rsp = s.rsp := rfl
@[simp] theorem raiseFault_host (c : Cause) (op : Byte) (v : Word) : (raiseFault c op v s).host = s.host := rfl
@[simp] theorem raiseFault_resets (c : Cause) (op : Byte) (v : Word) : (raiseFault c op v s).resets = s.resets := rfl

/-! ## `resetControl` -/

@[simp] theorem resetControl_config : (resetControl s).config = s.config := rfl
@[simp] theorem resetControl_phase : (resetControl s).phase = .idle := rfl
@[simp] theorem resetControl_ddone : (resetControl s).ddone = false := rfl
@[simp] theorem resetControl_acc : (resetControl s).acc = 0 := rfl
@[simp] theorem resetControl_nacc : (resetControl s).nacc = 0 := rfl
@[simp] theorem resetControl_bitcnt : (resetControl s).bitcnt = 0 := rfl
@[simp] theorem resetControl_root : (resetControl s).root = 0 := rfl
@[simp] theorem resetControl_cursor : (resetControl s).cursor = 0 := rfl
@[simp] theorem resetControl_dtotal : (resetControl s).dtotal = 0 := rfl
@[simp] theorem resetControl_dcnt : (resetControl s).dcnt = 0 := rfl
@[simp] theorem resetControl_dbytes : (resetControl s).dbytes = 0 := rfl
@[simp] theorem resetControl_fc : (resetControl s).fc = none := rfl
@[simp] theorem resetControl_fphase : (resetControl s).fphase = .idle := rfl
@[simp] theorem resetControl_fop : (resetControl s).fop = 0 := rfl
@[simp] theorem resetControl_finfo : (resetControl s).finfo = 0 := rfl
@[simp] theorem resetControl_freq : (resetControl s).freq = s.freq := rfl
@[simp] theorem resetControl_code : (resetControl s).code = s.code := rfl
@[simp] theorem resetControl_node : (resetControl s).node = s.node := rfl
@[simp] theorem resetControl_out : (resetControl s).out = s.out := rfl
@[simp] theorem resetControl_rsp : (resetControl s).rsp = s.rsp := rfl
@[simp] theorem resetControl_host : (resetControl s).host = s.host := rfl
@[simp] theorem resetControl_resets : (resetControl s).resets = s.resets := rfl

/-! ## `clearFreq` -/

@[simp] theorem clearFreq_config : (clearFreq s).config = s.config := rfl
@[simp] theorem clearFreq_phase : (clearFreq s).phase = s.phase := rfl
@[simp] theorem clearFreq_ddone : (clearFreq s).ddone = s.ddone := rfl
@[simp] theorem clearFreq_acc : (clearFreq s).acc = s.acc := rfl
@[simp] theorem clearFreq_nacc : (clearFreq s).nacc = s.nacc := rfl
@[simp] theorem clearFreq_bitcnt : (clearFreq s).bitcnt = s.bitcnt := rfl
@[simp] theorem clearFreq_root : (clearFreq s).root = s.root := rfl
@[simp] theorem clearFreq_cursor : (clearFreq s).cursor = s.cursor := rfl
@[simp] theorem clearFreq_dtotal : (clearFreq s).dtotal = s.dtotal := rfl
@[simp] theorem clearFreq_dcnt : (clearFreq s).dcnt = s.dcnt := rfl
@[simp] theorem clearFreq_dbytes : (clearFreq s).dbytes = s.dbytes := rfl
@[simp] theorem clearFreq_fc : (clearFreq s).fc = s.fc := rfl
@[simp] theorem clearFreq_fphase : (clearFreq s).fphase = s.fphase := rfl
@[simp] theorem clearFreq_fop : (clearFreq s).fop = s.fop := rfl
@[simp] theorem clearFreq_finfo : (clearFreq s).finfo = s.finfo := rfl
@[simp] theorem clearFreq_freq : (clearFreq s).freq = Vector.replicate 256 0 := rfl
@[simp] theorem clearFreq_code : (clearFreq s).code = s.code := rfl
@[simp] theorem clearFreq_node : (clearFreq s).node = s.node := rfl
@[simp] theorem clearFreq_out : (clearFreq s).out = s.out := rfl
@[simp] theorem clearFreq_rsp : (clearFreq s).rsp = s.rsp := rfl
@[simp] theorem clearFreq_host : (clearFreq s).host = s.host := rfl
@[simp] theorem clearFreq_resets : (clearFreq s).resets = s.resets := rfl

/-! ## `openEncode` -/

@[simp] theorem openEncode_config : (openEncode s).config = s.config := rfl
@[simp] theorem openEncode_phase : (openEncode s).phase = .enc := rfl
@[simp] theorem openEncode_ddone : (openEncode s).ddone = s.ddone := rfl
@[simp] theorem openEncode_acc : (openEncode s).acc = 0 := rfl
@[simp] theorem openEncode_nacc : (openEncode s).nacc = 0 := rfl
@[simp] theorem openEncode_bitcnt : (openEncode s).bitcnt = 0 := rfl
@[simp] theorem openEncode_root : (openEncode s).root = s.root := rfl
@[simp] theorem openEncode_cursor : (openEncode s).cursor = s.cursor := rfl
@[simp] theorem openEncode_dtotal : (openEncode s).dtotal = s.dtotal := rfl
@[simp] theorem openEncode_dcnt : (openEncode s).dcnt = s.dcnt := rfl
@[simp] theorem openEncode_dbytes : (openEncode s).dbytes = s.dbytes := rfl
@[simp] theorem openEncode_fc : (openEncode s).fc = s.fc := rfl
@[simp] theorem openEncode_fphase : (openEncode s).fphase = s.fphase := rfl
@[simp] theorem openEncode_fop : (openEncode s).fop = s.fop := rfl
@[simp] theorem openEncode_finfo : (openEncode s).finfo = s.finfo := rfl
@[simp] theorem openEncode_freq : (openEncode s).freq = s.freq := rfl
@[simp] theorem openEncode_code : (openEncode s).code = s.code := rfl
@[simp] theorem openEncode_node : (openEncode s).node = s.node := rfl
@[simp] theorem openEncode_out : (openEncode s).out = s.out ++ headerBytes s := rfl
@[simp] theorem openEncode_rsp : (openEncode s).rsp = s.rsp := rfl
@[simp] theorem openEncode_host : (openEncode s).host = s.host := rfl
@[simp] theorem openEncode_resets : (openEncode s).resets = s.resets := rfl

/-! ## `hardwareReset` -/

@[simp] theorem hardwareReset_config : (hardwareReset s).config = s.config := rfl
@[simp] theorem hardwareReset_phase : (hardwareReset s).phase = .idle := rfl
@[simp] theorem hardwareReset_ddone : (hardwareReset s).ddone = false := rfl
@[simp] theorem hardwareReset_acc : (hardwareReset s).acc = 0 := rfl
@[simp] theorem hardwareReset_nacc : (hardwareReset s).nacc = 0 := rfl
@[simp] theorem hardwareReset_bitcnt : (hardwareReset s).bitcnt = 0 := rfl
@[simp] theorem hardwareReset_root : (hardwareReset s).root = 0 := rfl
@[simp] theorem hardwareReset_cursor : (hardwareReset s).cursor = 0 := rfl
@[simp] theorem hardwareReset_dtotal : (hardwareReset s).dtotal = 0 := rfl
@[simp] theorem hardwareReset_dcnt : (hardwareReset s).dcnt = 0 := rfl
@[simp] theorem hardwareReset_dbytes : (hardwareReset s).dbytes = 0 := rfl
@[simp] theorem hardwareReset_fc : (hardwareReset s).fc = none := rfl
@[simp] theorem hardwareReset_fphase : (hardwareReset s).fphase = .idle := rfl
@[simp] theorem hardwareReset_fop : (hardwareReset s).fop = 0 := rfl
@[simp] theorem hardwareReset_finfo : (hardwareReset s).finfo = 0 := rfl
@[simp] theorem hardwareReset_freq : (hardwareReset s).freq = freqContents s.config s.resets := rfl
@[simp] theorem hardwareReset_code : (hardwareReset s).code = codeContents s.resets := rfl
@[simp] theorem hardwareReset_node : (hardwareReset s).node = nodeContents s.resets := rfl
@[simp] theorem hardwareReset_out : (hardwareReset s).out = [] := rfl
@[simp] theorem hardwareReset_rsp : (hardwareReset s).rsp = [] := rfl
@[simp] theorem hardwareReset_host : (hardwareReset s).host = s.host := rfl
@[simp] theorem hardwareReset_resets : (hardwareReset s).resets = s.resets + 1 := rfl

end Sys2Proof.Machine
end

