-- ==== Sys2Proof/Laws/Ops.lean ====
section
/-! SUPPORT. Laws/Ops.lean: table reads after writes, the phase check, operand ranges, and that every command answers a
next state. -/

namespace Sys2Proof

/-! ## The parameters -/

theorem Config.width_eq (c : Config) : c.width = 16 ∨ c.width = 32 := by
  rcases c with ⟨⟨⟩, _⟩ <;> simp [Config.width, IntSize.bytes]

theorem Config.maxCount_eq (c : Config) : c.maxCount = 32767 ∨ c.maxCount = 2147483647 := by
  rcases c with ⟨⟨⟩, _⟩ <;> simp [Config.maxCount, Config.width, IntSize.bytes]

/-- MAXCOUNT is the largest number below half the range of a count. -/
theorem Config.maxCount_lt (c : Config) : c.maxCount < 2 ^ c.width := by
  rcases c with ⟨⟨⟩, _⟩ <;> simp [Config.maxCount, Config.width, IntSize.bytes]

theorem Config.maxCount_lt_word (c : Config) : c.maxCount < 2 ^ 31 := by
  rcases c.maxCount_eq with h | h <;> omega

theorem Config.truncate_lt (c : Config) (v : Word) : (c.truncate v).toNat < 2 ^ c.width := by
  rcases c with ⟨⟨⟩, _⟩
  · simp [Config.truncate, Config.width, IntSize.bytes]; omega
  · simpa [Config.truncate, Config.width, IntSize.bytes] using v.isLt

end Sys2Proof

namespace Sys2Proof.Machine

/-! ## Tables -/

@[simp] theorem symGet_symSet_same {α : Type} (t : Vector α 256) (b : Byte) (v : α) : symGet (symSet t b v) b = v := by
  simp [symGet, symSet]

theorem symGet_symSet_ne {α : Type} (t : Vector α 256) {b b' : Byte} (v : α) (h : b' ≠ b) :
    symGet (symSet t b v) b' = symGet t b' := by
  have hn : b.toNat ≠ b'.toNat := fun e => h (BitVec.eq_of_toNat_eq e.symm)
  simp only [symGet, symSet]
  exact Vector.getElem_set_ne b.isLt b'.isLt hn

theorem symGet_symSet {α : Type} (t : Vector α 256) (b b' : Byte) (v : α) :
    symGet (symSet t b v) b' = if b' = b then v else symGet t b' := by
  by_cases h : b' = b
  · subst h; simp
  · simp [h, symGet_symSet_ne]

@[simp] theorem symGet_replicate {α : Type} (v : α) (b : Byte) : symGet (Vector.replicate 256 v) b = v := by
  simp [symGet]

/-- Two tables with the same entries are the same table. -/
theorem symGet_ext {α : Type} {t t' : Vector α 256} (h : ∀ b, symGet t b = symGet t' b) : t = t' := by
  apply Vector.ext
  intro k hk
  have := h (BitVec.ofNat 8 k)
  simp only [symGet, BitVec.toNat_ofNat, Nat.mod_eq_of_lt (show k < 2 ^ 8 from hk)] at this
  exact this

@[simp] theorem readFreq_writeFreq_same (b : Byte) (v : Word) (s : State) : readFreq b (writeFreq b v s) = v := by
  simp [readFreq]

theorem readFreq_writeFreq_ne {b b' : Byte} (v : Word) (s : State) (h : b' ≠ b) :
    readFreq b' (writeFreq b v s) = readFreq b' s := by
  simp [readFreq, symGet_symSet_ne, h]

@[simp] theorem readCode_writeCode_same (b : Byte) (bits : List Bool) (s : State) :
    readCode b (writeCode b bits s) = bits := by
  simp [readCode]

theorem readCode_writeCode_ne {b b' : Byte} (bits : List Bool) (s : State) (h : b' ≠ b) :
    readCode b' (writeCode b bits s) = readCode b' s := by
  simp [readCode, symGet_symSet_ne, h]

@[simp] theorem readNode_writeNode_same (n : NodeIdx) (e : Node) (s : State) :
    readNode n (writeNode n e s) = e := by
  simp [readNode]

theorem readNode_writeNode_ne {n n' : NodeIdx} (e : Node) (s : State) (h : n' ≠ n) :
    readNode n' (writeNode n e s) = readNode n' s := by
  have hn : n.val ≠ n'.val := fun h' => h (Fin.ext h'.symm)
  exact Vector.getElem_set_ne n.isLt n'.isLt hn

@[simp] theorem readFreq_clearFreq (b : Byte) (s : State) : readFreq b (clearFreq s) = 0 := by
  simp [readFreq]

/-- A read of a table sees that table alone. -/
theorem readFreq_congr {s t : State} (h : s.freq = t.freq) (b : Byte) : readFreq b s = readFreq b t := by
  simp [readFreq, h]

theorem readCode_congr {s t : State} (h : s.code = t.code) (b : Byte) : readCode b s = readCode b t := by
  simp [readCode, h]

theorem readNode_congr {s t : State} (h : s.node = t.node) (n : NodeIdx) : readNode n s = readNode n t := by
  simp [readNode, h]

/-! ## Operands -/

theorem nodeIndexOperand_eq_none {n : BitVec 16} : nodeIndexOperand n = none ↔ 510 < n.toNat := by
  unfold nodeIndexOperand
  split <;> simp <;> omega

theorem nodeIndexOperand_eq_some {n : BitVec 16} {k : NodeIdx} : nodeIndexOperand n = some k ↔ n.toNat = k.val := by
  unfold nodeIndexOperand
  split
  · simp [Fin.ext_iff]
  · have := k.isLt
    simp; omega

theorem childOperand_eq_none {l : BitVec 16} : childOperand l = none ↔ 511 < l.toNat := by
  unfold childOperand
  split
  · simp; omega
  · split <;> simp <;> omega

theorem childOperand_eq_nil {l : BitVec 16} : childOperand l = some none ↔ l.toNat = 511 := by
  unfold childOperand
  split
  · simp; omega
  · split <;> simp [*]

theorem childOperand_eq_index {l : BitVec 16} {k : NodeIdx} : childOperand l = some (some k) ↔ l.toNat = k.val := by
  unfold childOperand
  split
  · simp [Fin.ext_iff]
  · have := k.isLt
    split <;> simp <;> omega

theorem countOperand_eq_none {c : Config} {v : Word} : countOperand c v = none ↔ c.maxCount < v.toNat := by
  unfold countOperand
  split <;> simp <;> omega

theorem countOperand_eq_some {c : Config} {v n : Word} : countOperand c v = some n ↔ v.toNat ≤ c.maxCount ∧ n = v := by
  unfold countOperand
  split <;> simp [*, eq_comm]

/-! ## Phases and the phase check -/

/-- RST and RDREG are the commands that act in phase FAULT (60_exceptions.md R277). -/
theorem legalIn_fault (o : Opcode) : legalIn o .fault = true ↔ o = .rst ∨ o = .rdreg := by
  cases o <;> simp [legalIn]

theorem whenLegal_legal {o : Opcode} {act : State → State} {s : State} (h : legalIn o s.phase = true) :
    whenLegal o act s = act s := by
  simp [whenLegal, h]

theorem whenLegal_dropped {o : Opcode} {act : State → State} {s : State} (h : s.phase = .fault)
    (ho : legalIn o .fault = false) : whenLegal o act s = s := by
  simp [whenLegal, h, ho]

theorem whenLegal_seqError {o : Opcode} {act : State → State} {s : State} (h : legalIn o s.phase = false)
    (hf : s.phase ≠ .fault) : whenLegal o act s = raiseFault .seqError o.byte 0 s := by
  simp [whenLegal, h, hf]

/-- Everything the phase check can do. -/
theorem whenLegal_cases (o : Opcode) (act : State → State) (s : State) :
    (legalIn o s.phase = true ∧ whenLegal o act s = act s) ∨
    (legalIn o s.phase = false ∧ s.phase = .fault ∧ whenLegal o act s = s) ∨
    (legalIn o s.phase = false ∧ s.phase ≠ .fault ∧ whenLegal o act s = raiseFault .seqError o.byte 0 s) := by
  by_cases h : legalIn o s.phase = true
  · exact .inl ⟨h, whenLegal_legal h⟩
  · have h' : legalIn o s.phase = false := by simpa using h
    by_cases hf : s.phase = .fault
    · exact .inr (.inl ⟨h', hf, whenLegal_dropped hf (hf ▸ h')⟩)
    · exact .inr (.inr ⟨h', hf, whenLegal_seqError h' hf⟩)

/-! ## The register map -/

/-- Register numbers 10 to 255 read 0 (44_system.md R214). -/
theorem regword_ge {r : Byte} (h : 10 ≤ r.toNat) (s : State) : regword r s = 0 := by
  unfold regword
  split <;> first | rfl | (exfalso; omega)

/-! ## Every command answers a next state -/

/-- What a command does in a phase it is legal in. -/
def action : Instr → State → State
  | .nop => id
  | .rst => resetControl
  | .rdreg r => fun s => respond (regword r s) s
  | .hclr => clearFreq
  | .hacc b => countSymbol b
  | .hld i v => loadCount i v
  | .hrd i => fun s => respond (readFreq i s) s
  | .cclr b => writeCode b []
  | .capp b bit => appendCodeBit b bit
  | .nld n v l r => loadNode n v l r
  | .ebegin => openEncode
  | .esym b => encodeSymbol b
  | .eend => closeEncode
  | .dbegin root total => openDecode root total
  | .dbyte b => decodeByte b

/-- The state a command leads to. -/
def effect (i : Instr) (s : State) : State := whenLegal i.opcode (action i) s

/-- Every command answers a next state, in every state: the phase check around its action. -/
theorem exec_eq (i : Instr) (s : State) : exec i s = .next (effect i s) := by
  cases i <;> rfl

/-- Everything a command can do: act, be dropped, or raise SeqError. -/
theorem effect_cases (i : Instr) (s : State) :
    (legalIn i.opcode s.phase = true ∧ effect i s = action i s) ∨
    (legalIn i.opcode s.phase = false ∧ s.phase = .fault ∧ effect i s = s) ∨
    (legalIn i.opcode s.phase = false ∧ s.phase ≠ .fault ∧
      effect i s = raiseFault .seqError i.opcode.byte 0 s) :=
  whenLegal_cases _ _ _

theorem effect_legal {i : Instr} {s : State} (h : legalIn i.opcode s.phase = true) : effect i s = action i s :=
  whenLegal_legal h

/-- Everything an illegal word can do. -/
theorem illegalWord_cases (w : Command) (s : State) :
    (s.phase = .fault ∧ illegalWord w s = s) ∨
    (s.phase ≠ .fault ∧ illegalWord w s = raiseFault .illegalCommand (opField w) (upperHalf w) s) := by
  by_cases h : s.phase = .fault
  · exact .inl ⟨h, by simp [illegalWord, h]⟩
  · exact .inr ⟨h, by simp [illegalWord, h]⟩

/-- Everything one step can do. -/
theorem step_cases (s : State) :
    (s.host = [] ∧ step s = .next s) ∨
    (∃ rest, s.host = .hardwareReset :: rest ∧ step s = .next (hardwareReset { s with host := rest })) ∨
    (∃ w rest i, s.host = .command w :: rest ∧ decode w = .ok i ∧ step s = .next (effect i { s with host := rest })) ∨
    (∃ w rest e, s.host = .command w :: rest ∧ decode w = .error e ∧
      step s = .next (illegalWord w { s with host := rest })) := by
  unfold step
  split
  · rename_i h; exact .inl ⟨h, rfl⟩
  · rename_i rest h; exact .inr (.inl ⟨rest, h, rfl⟩)
  · rename_i w rest h
    split
    · rename_i i hd; exact .inr (.inr (.inl ⟨w, rest, i, h, hd, exec_eq _ _⟩))
    · rename_i e hd; exact .inr (.inr (.inr ⟨w, rest, e, h, hd, rfl⟩))

/-- A step on a word that decodes. -/
theorem step_command {s : State} {w : Command} {rest : List HostAction} {i : Instr}
    (hh : s.host = .command w :: rest) (hd : decode w = .ok i) :
    step s = .next (effect i { s with host := rest }) := by
  unfold step
  rw [hh]
  simp only [hd]
  exact exec_eq _ _

/-- A step on an illegal word. -/
theorem step_illegal {s : State} {w : Command} {rest : List HostAction} {e : DecodeError}
    (hh : s.host = .command w :: rest) (hd : decode w = .error e) :
    step s = .next (illegalWord w { s with host := rest }) := by
  unfold step
  rw [hh]
  simp only [hd]

/-- Everything a command can do in phase FAULT (60_exceptions.md R277). -/
theorem effect_in_fault {s : State} (hp : s.phase = .fault) (i : Instr) :
    effect i s = s ∨ (i = .rst ∧ effect i s = resetControl s) ∨
      ∃ r, i = .rdreg r ∧ effect i s = respond (regword r s) s := by
  rcases effect_cases i s with ⟨hl, e⟩ | ⟨-, -, e⟩ | ⟨-, hn, -⟩
  · rw [hp, legalIn_fault] at hl
    cases i <;> simp only [Instr.opcode, reduceCtorEq, or_self, or_false, or_true] at hl
    · exact .inr (.inl ⟨rfl, e⟩)
    · exact .inr (.inr ⟨_, rfl, e⟩)
  · exact .inl e
  · exact absurd hp hn

end Sys2Proof.Machine
end

