-- ==== Sys2Proof/Laws/Stream.lean ====
section
/-! SUPPORT. Laws/Stream.lean: bit strings as numbers, cutting a bit string into packed bytes, and the bytes of an
integer. -/

namespace Sys2Proof.Machine

/-! ## Bit strings as numbers, first bit most significant -/

/-- The number a bit string writes, first bit most significant. -/
def bitsValue : List Bool → Nat
  | [] => 0
  | b :: l => b.toNat * 2 ^ l.length + bitsValue l

theorem bitsValue_append_one (l : List Bool) (b : Bool) : bitsValue (l ++ [b]) = 2 * bitsValue l + b.toNat := by
  induction l with
  | nil => simp [bitsValue]
  | cons a l ih =>
    simp only [List.cons_append, bitsValue, ih, List.length_append, List.length_singleton, Nat.pow_succ]
    ring

theorem bitsValue_lt (l : List Bool) : bitsValue l < 2 ^ l.length := by
  induction l with
  | nil => simp [bitsValue]
  | cons a l ih =>
    simp only [bitsValue, List.length_cons, Nat.pow_succ]
    cases a <;> simp <;> omega

/-! ## Packed bytes -/

/-- A packed byte is the number of its bits moved to the high positions (20_memory.md R68, R69). -/
theorem packedByte_eq_shift (l : List Bool) (h : l.length ≤ 8) :
    packedByte l = BitVec.ofNat 8 (bitsValue l) <<< (8 - l.length) := by
  match l, h with
  | [], _ => decide
  | [a], _ => revert a; decide
  | [a, b], _ => revert a b; decide
  | [a, b, c], _ => revert a b c; decide
  | [a, b, c, d], _ => revert a b c d; decide
  | [a, b, c, d, e], _ => revert a b c d e; decide
  | [a, b, c, d, e, f], _ => revert a b c d e f; decide
  | [a, b, c, d, e, f, g], _ => revert a b c d e f g; decide
  | [a, b, c, d, e, f, g, i], _ => revert a b c d e f g i; decide
  | _ :: _ :: _ :: _ :: _ :: _ :: _ :: _ :: _ :: _, h => simp only [List.length_cons] at h; omega

/-- A packed byte sees only the first eight bits. -/
theorem packedByte_append {l : List Bool} (h : l.length = 8) (m : List Bool) : packedByte (l ++ m) = packedByte l := by
  have hg : ∀ k, k < 8 → (l ++ m).getD k false = l.getD k false := by
    intro k hk
    simp [List.getD_eq_getElem?_getD, List.getElem?_append_left (show k < l.length by omega)]
  simp only [packedByte, hg 0 (by omega), hg 1 (by omega), hg 2 (by omega), hg 3 (by omega), hg 4 (by omega),
    hg 5 (by omega), hg 6 (by omega), hg 7 (by omega)]

/-- Bit `7 - k` of a packed byte is bit number `k` of the string, 0 past its end (20_memory.md R68, R69). -/
theorem packedByte_bit (l : List Bool) {k : Nat} (h : k < 8) : (packedByte l).getLsbD (7 - k) = l.getD k false := by
  unfold packedByte
  interval_cases k <;> simp only [BitVec.getLsbD_append, BitVec.getLsbD_ofBool] <;> simp

/-- The bytes a bit string fills, without the bits left over. -/
def fullBytes (l : List Bool) : List Byte :=
  (List.range (l.length / 8)).map fun j => packedByte (l.drop (8 * j))

/-- The bits left over when a bit string is cut into bytes: fewer than eight. -/
def leftover (l : List Bool) : List Bool := l.drop (8 * (l.length / 8))

theorem leftover_length (l : List Bool) : (leftover l).length = l.length % 8 := by
  simp [leftover]; omega

theorem fullBytes_length (l : List Bool) : (fullBytes l).length = l.length / 8 := by simp [fullBytes]

theorem fullBytes_short {l : List Bool} (h : l.length < 8) : fullBytes l = [] := by
  simp [fullBytes, Nat.div_eq_of_lt h]

theorem leftover_short {l : List Bool} (h : l.length < 8) : leftover l = l := by
  simp [leftover, Nat.div_eq_of_lt h]

/-- Cutting off the first byte. -/
theorem fullBytes_append {r : List Bool} (h : r.length = 8) (l : List Bool) :
    fullBytes (r ++ l) = packedByte r :: fullBytes l := by
  have hd : (r ++ l).length / 8 = l.length / 8 + 1 := by rw [List.length_append]; omega
  rw [fullBytes, hd, List.range_succ_eq_map]
  simp only [List.map_cons, Nat.mul_zero, List.drop_zero, packedByte_append h, List.map_map, fullBytes]
  congr 1
  apply List.map_congr_left
  intro j _
  have : 8 * (j + 1) = r.length + 8 * j := by omega
  have hr : r.drop (r.length + 8 * j) = [] := List.drop_eq_nil_of_le (by omega)
  simp [Function.comp, this, List.drop_append, hr]

theorem leftover_append {r : List Bool} (h : r.length = 8) (l : List Bool) : leftover (r ++ l) = leftover l := by
  have hd : 8 * ((r ++ l).length / 8) = r.length + 8 * (l.length / 8) := by
    rw [List.length_append]; omega
  rw [leftover, hd, List.drop_append]
  simp [leftover]

/-- The packed section is the full bytes and, when bits are left over, one padded byte (30_encoding.md R107). -/
theorem packBits_eq (l : List Bool) :
    packBits l = fullBytes l ++ if l.length % 8 = 0 then [] else [packedByte (leftover l)] := by
  unfold packBits fullBytes leftover packedLength
  split
  · have : (l.length + 7) / 8 = l.length / 8 := by omega
    simp [this]
  · have : (l.length + 7) / 8 = l.length / 8 + 1 := by omega
    rw [this, List.range_succ]
    simp

@[simp] theorem packBits_length (l : List Bool) : (packBits l).length = packedLength l.length := by
  simp [packBits]

/-- The bits of a packed byte are the bits packed into it (20_memory.md R68; 43_decoder.md R193). -/
theorem bitsOf_packedByte (l : List Bool) (h : l.length ≤ 8) : (bitsOf (packedByte l)).take l.length = l := by
  match l, h with
  | [], _ => rfl
  | [a], _ => revert a; decide
  | [a, b], _ => revert a b; decide
  | [a, b, c], _ => revert a b c; decide
  | [a, b, c, d], _ => revert a b c d; decide
  | [a, b, c, d, e], _ => revert a b c d e; decide
  | [a, b, c, d, e, f], _ => revert a b c d e f; decide
  | [a, b, c, d, e, f, g], _ => revert a b c d e f g; decide
  | [a, b, c, d, e, f, g, i], _ => revert a b c d e f g i; decide
  | _ :: _ :: _ :: _ :: _ :: _ :: _ :: _ :: _ :: _, h => simp only [List.length_cons] at h; omega

/-- The packed section of a bit string with its first byte taken off. -/
theorem packBits_append {r : List Bool} (h : r.length = 8) (l : List Bool) :
    packBits (r ++ l) = packedByte r :: packBits l := by
  have hm : (r ++ l).length % 8 = l.length % 8 := by rw [List.length_append]; omega
  rw [packBits_eq, packBits_eq, fullBytes_append h, leftover_append h, hm]
  rfl

/-- Unpacking a packed section gives the bit string back (20_memory.md R68, R69). -/
theorem bits_of_packBits (l : List Bool) : ((packBits l).flatMap bitsOf).take l.length = l := by
  induction hn : l.length / 8 generalizing l with
  | zero =>
    have h : l.length < 8 := by omega
    rw [packBits_eq, fullBytes_short h, leftover_short h, Nat.mod_eq_of_lt h]
    split
    · rename_i h0; rw [List.length_eq_zero_iff.mp h0]; rfl
    · simpa using bitsOf_packedByte l (by omega)
  | succ n ih =>
    have ht : (l.take 8).length = 8 := by simp; omega
    have hb := bitsOf_packedByte (l.take 8) (by omega)
    rw [ht, List.take_of_length_le (by exact Nat.le_refl 8)] at hb
    have hd := ih (l.drop 8) (by simp; omega)
    have hl : l.length = (l.take 8).length + (l.drop 8).length := by simp; omega
    have hp : packBits l = packedByte (l.take 8) :: packBits (l.drop 8) := by
      rw [← packBits_append ht, List.take_append_drop]
    rw [hp, List.flatMap_cons, hb, hl, List.take_length_add_append, hd, List.take_append_drop]

/-! ## The bytes of an integer -/

@[simp] theorem intBytes_length (c : Config) (v : Word) : (intBytes c v).length = c.intSize.bytes := by
  rcases c with ⟨⟨⟩, ⟨⟩⟩ <;> rfl

/-- The number the bytes of an integer write (20_memory.md R66, R67). -/
theorem wordOfBytes_bytesLsbFirst (c : Config) (v : Word) :
    wordOfBytes (bytesLsbFirst c v) = v.toNat % 2 ^ c.width := by
  rcases c with ⟨⟨⟩, _⟩ <;>
    simp only [bytesLsbFirst, wordOfBytes, BitVec.extractLsb'_toNat, Nat.shiftRight_eq_div_pow, Config.width,
      IntSize.bytes] <;> omega

theorem flatMap_intBytes_length (c : Config) (l : List Word) :
    (l.flatMap (intBytes c)).length = l.length * c.intSize.bytes := by
  induction l with
  | nil => simp
  | cons v l ih => rw [List.flatMap_cons, List.length_append, ih, intBytes_length, List.length_cons]; ring

/-- The header is 256 * INTSIZE bytes (20_memory.md R65). -/
theorem header_length (c : Config) (f : Vector Word 256) :
    (f.toList.flatMap (intBytes c)).length = 256 * c.intSize.bytes := by
  rw [flatMap_intBytes_length, Vector.length_toList]

/-- The piece of a concatenation of pieces of one length. -/
theorem flatMap_piece {α β : Type} (f : α → List β) (n : Nat) (hf : ∀ a, (f a).length = n) (l : List α) (k : Nat)
    (hk : k < l.length) : ((l.flatMap f).drop (k * n)).take n = f l[k] := by
  induction l generalizing k with
  | nil => simp at hk
  | cons a l ih =>
    cases k with
    | zero => simp [hf]
    | succ k =>
      have h : (k + 1) * n = (f a).length + k * n := by rw [hf]; ring
      rw [List.flatMap_cons, h, List.drop_append, List.drop_eq_nil_of_le (Nat.le_add_right _ _), List.nil_append,
        Nat.add_sub_cancel_left, ih k (by simpa using hk)]
      rfl

/-- The integer of symbol `b` stands at offset `b * INTSIZE` of the header (20_memory.md R65). -/
theorem header_piece (c : Config) (f : Vector Word 256) (b : Byte) :
    ((f.toList.flatMap (intBytes c)).drop (b.toNat * c.intSize.bytes)).take c.intSize.bytes =
      intBytes c (symGet f b) := by
  have hb : b.toNat < f.toList.length := by rw [Vector.length_toList]; exact b.isLt
  rw [flatMap_piece _ _ (intBytes_length c) _ _ hb]
  simp [symGet]

/-- Reading back the bytes of a W-bit number (20_memory.md R67). -/
theorem bytesInt_intBytes {c : Config} {v : Word} (h : v.toNat < 2 ^ c.width) : bytesInt c (intBytes c v) = v := by
  have hw := wordOfBytes_bytesLsbFirst c v
  rw [Nat.mod_eq_of_lt h] at hw
  unfold bytesInt intBytes
  cases c.byteOrder <;> simp [hw]

theorem wordOfBytes_lt (l : List Byte) : wordOfBytes l < 256 ^ l.length := by
  induction l with
  | nil => simp [wordOfBytes]
  | cons b l ih =>
    simp only [wordOfBytes, List.length_cons, Nat.pow_succ]
    have := b.isLt
    omega

theorem wordOfBytes_inj : ∀ {l m : List Byte}, l.length = m.length → wordOfBytes l = wordOfBytes m → l = m
  | [], [], _, _ => rfl
  | a :: l, b :: m, hl, hv => by
    have h1 := a.isLt
    have h2 := b.isLt
    simp only [wordOfBytes] at hv
    have ha : a = b := BitVec.eq_of_toNat_eq (by omega)
    rw [ha, wordOfBytes_inj (by simpa using hl) (by omega : wordOfBytes l = wordOfBytes m)]

/-- INTSIZE bytes write a number of 32 bits at most. -/
theorem wordOfBytes_lt_word {c : Config} {l : List Byte} (h : l.length = c.intSize.bytes) : wordOfBytes l < 2 ^ 32 := by
  have h4 : l.length ≤ 4 := by rw [h]; cases c.intSize <;> decide
  have h1 := wordOfBytes_lt l
  have h2 := Nat.pow_le_pow_right (n := 256) (by omega) h4
  omega

/-- No two sequences of INTSIZE bytes are read as the same number (20_memory.md R67). -/
theorem bytesInt_inj {c : Config} {l m : List Byte} (hl : l.length = c.intSize.bytes)
    (hm : m.length = c.intSize.bytes) (h : bytesInt c l = bytesInt c m) : l = m := by
  have hl' : l.reverse.length = c.intSize.bytes := by simpa using hl
  have hm' : m.reverse.length = c.intSize.bytes := by simpa using hm
  unfold bytesInt at h
  split at h <;> have h := congrArg BitVec.toNat h <;> rw [BitVec.toNat_ofNat, BitVec.toNat_ofNat] at h
  · rw [Nat.mod_eq_of_lt (wordOfBytes_lt_word hl), Nat.mod_eq_of_lt (wordOfBytes_lt_word hm)] at h
    exact wordOfBytes_inj (hl.trans hm.symm) h
  · rw [Nat.mod_eq_of_lt (wordOfBytes_lt_word hl'), Nat.mod_eq_of_lt (wordOfBytes_lt_word hm')] at h
    exact List.reverse_injective (wordOfBytes_inj (hl'.trans hm'.symm) h)

end Sys2Proof.Machine
end

