-- ==== Sys2Proof/Laws/Decoder.lean ====
section
/-! SUPPORT. Laws/Decoder.lean: the decoder's loop is the walk of the tree by the bits it still wants. -/

namespace Sys2Proof.Machine

/-! ## One bit -/

/-- Everything one bit changes: CURSOR, DCNT and OUT (43_decoder.md R193). -/
theorem takeChild_eq (k : NodeIdx) (s : State) :
    takeChild k s =
      { s with
        cursor := if (readNode k s).isLeaf then s.root else k
        dcnt := s.dcnt + 1
        out := s.out ++ if (readNode k s).isLeaf then [(readNode k s).value] else [] } := by
  unfold takeChild
  split <;> simp [emit, emitAll]

theorem takeChild_dcnt (k : NodeIdx) (s : State) : (takeChild k s).dcnt = s.dcnt + 1 := by rw [takeChild_eq]

theorem readNode_takeChild (n k : NodeIdx) (s : State) : readNode n (takeChild k s) = readNode n s := by
  rw [takeChild_eq]; rfl

/-! ## The walk apart from the machine -/

/-- A walk sees NODE and ROOT alone (43_decoder.md R198). -/
theorem treeWalk_congr {s t : State} (hn : s.node = t.node) (hr : s.root = t.root) (bits : List Bool) (n : NodeIdx) :
    treeWalk s bits n = treeWalk t bits n := by
  induction bits generalizing n with
  | nil => rfl
  | cons bit bits ih =>
    simp only [treeWalk, readNode_congr hn, hr]
    split
    · rfl
    · simp [ih]

/-- A walk along two bit strings one after the other. -/
theorem treeWalk_append (s : State) (l m : List Bool) (n : NodeIdx) :
    treeWalk s (l ++ m) n =
      (treeWalk s l n).bind fun p => (treeWalk s m p.1).map fun q => (q.1, p.2 ++ q.2) := by
  induction l generalizing n with
  | nil => simp [treeWalk]
  | cons bit l ih =>
    simp only [List.cons_append, treeWalk]
    split
    · rfl
    · split
      · rw [ih]
        cases treeWalk s l s.root with
        | none => rfl
        | some p => cases h : treeWalk s m p.1 <;> simp [h]
      · rw [ih]

/-! ## The loop of DBYTE -/

/-- The state after the good bits of a byte: where the walk is, how many bits were counted, what was emitted. -/
def walkedTo (s : State) (n : NodeIdx) (count : Nat) (vs : List Byte) : State :=
  { s with cursor := n, dcnt := s.dcnt + BitVec.ofNat 32 count, out := s.out ++ vs }

theorem take_bits_succ {d e : Word} (h : d.toNat ≤ e.toNat) (hne : d ≠ e) :
    (d + 1).toNat = d.toNat + 1 ∧ e.toNat - d.toNat = e.toNat - (d + 1).toNat + 1 := by
  have hlt : d.toNat < e.toNat := by
    rcases Nat.lt_or_eq_of_le h with h | h
    · exact h
    · exact absurd (BitVec.eq_of_toNat_eq h) hne
  have := e.isLt
  have h1 : (d + 1).toNat = d.toNat + 1 := by
    rw [BitVec.toNat_add]; simp; omega
  omega

/-- What a step onto entry `k` emits: the value of a leaf, nothing on the way. -/
def leafValue (k : NodeIdx) (s : State) : List Byte :=
  if (readNode k s).isLeaf then [(readNode k s).value] else []

theorem takeChild_walkedTo (k : NodeIdx) (s : State) :
    takeChild k s = walkedTo s (if (readNode k s).isLeaf then s.root else k) 1 (leafValue k s) := by
  rw [takeChild_eq]; rfl

theorem walkedTo_walkedTo (s : State) (n m : NodeIdx) (c d : Nat) (vs ws : List Byte) :
    walkedTo (walkedTo s n c vs) m d ws = walkedTo s m (c + d) (vs ++ ws) := by
  simp [walkedTo, BitVec.ofNat_add, BitVec.add_assoc]

theorem walkedTo_zero (s : State) : walkedTo s s.cursor 0 [] = s := by simp [walkedTo]

/-- The walk by one bit more. -/
theorem treeWalk_cons {s : State} {bit : Bool} {bits : List Bool} {n k : NodeIdx}
    (h : (readNode n s).child bit = some k) :
    treeWalk s (bit :: bits) n =
      (treeWalk s bits (takeChild k s).cursor).map fun p => (p.1, leafValue k s ++ p.2) := by
  rw [takeChild_walkedTo]
  simp only [treeWalk, h, leafValue, walkedTo]
  split <;> simp

theorem treeWalk_takeChild (k : NodeIdx) (s : State) (bits : List Bool) (n : NodeIdx) :
    treeWalk (takeChild k s) bits n = treeWalk s bits n :=
  treeWalk_congr (by rw [takeChild_eq]) (by rw [takeChild_eq]) bits n

theorem walk_done (bits : List Bool) {s : State} (h : s.dcnt = s.dtotal) : walk bits s = .done s := by
  cases bits <;> simp [walk, h]

theorem walk_cons {s : State} {bit : Bool} {bits : List Bool} {k : NodeIdx} (he : s.dcnt ≠ s.dtotal)
    (hc : (readNode s.cursor s).child bit = some k) : walk (bit :: bits) s = walk bits (takeChild k s) := by
  simp [walk, he, hc]

theorem dcnt_lt {d e : Word} (h : d.toNat ≤ e.toNat) (hne : d ≠ e) : d.toNat < e.toNat :=
  Nat.lt_of_le_of_ne h fun he => hne (BitVec.eq_of_toNat_eq he)

/-- The loop of DBYTE when every wanted bit finds its child (43_decoder.md R193). -/
theorem walk_of_some (bits : List Bool) {s : State} {n : NodeIdx} {vs : List Byte}
    (hle : s.dcnt.toNat ≤ s.dtotal.toNat)
    (h : treeWalk s (bits.take (s.dtotal.toNat - s.dcnt.toNat)) s.cursor = some (n, vs)) :
    walk bits s = .done (walkedTo s n (min bits.length (s.dtotal.toNat - s.dcnt.toNat)) vs) := by
  induction bits generalizing s n vs with
  | nil =>
    simp only [List.take_nil, treeWalk, Option.some.injEq, Prod.mk.injEq] at h
    obtain ⟨rfl, rfl⟩ := h
    simp [walk, walkedTo_zero]
  | cons bit bits ih =>
    by_cases he : s.dcnt = s.dtotal
    · have h0 : s.dtotal.toNat - s.dcnt.toNat = 0 := by simp [he]
      rw [h0, List.take_zero] at h
      simp only [treeWalk, Option.some.injEq, Prod.mk.injEq] at h
      obtain ⟨rfl, rfl⟩ := h
      rw [walk_done _ he, h0, Nat.min_zero, walkedTo_zero]
    · obtain ⟨h1, h2⟩ := take_bits_succ hle he
      have hlt := dcnt_lt hle he
      rw [h2, List.take_succ_cons] at h
      cases hc : (readNode s.cursor s).child bit with
      | none => simp [treeWalk, hc] at h
      | some k =>
        rw [walk_cons he hc]
        rw [treeWalk_cons hc] at h
        have hd := takeChild_dcnt k s
        have ht : (takeChild k s).dtotal = s.dtotal := by rw [takeChild_eq]
        cases hw : treeWalk s (bits.take (s.dtotal.toNat - (s.dcnt + 1).toNat)) (takeChild k s).cursor with
        | none => rw [hw] at h; cases h
        | some p =>
          rw [hw, Option.map_some, Option.some.injEq, Prod.mk.injEq] at h
          obtain ⟨rfl, rfl⟩ := h
          rw [ih (s := takeChild k s) (n := p.1) (vs := p.2) (by rw [hd, ht]; omega)
            (by rw [hd, ht, treeWalk_takeChild, hw]), hd, ht, takeChild_walkedTo, walkedTo_walkedTo, h2,
            List.length_cons, Nat.add_comm 1, Nat.succ_min_succ]

/-- The loop of DBYTE when a wanted bit selects an absent child: the bits before it have had their effect
(43_decoder.md R194). -/
theorem walk_of_none (bits : List Bool) {s : State} (hle : s.dcnt.toNat ≤ s.dtotal.toNat)
    (h : treeWalk s (bits.take (s.dtotal.toNat - s.dcnt.toNat)) s.cursor = none) :
    ∃ good bad rest n vs, bits.take (s.dtotal.toNat - s.dcnt.toNat) = good ++ bad :: rest ∧
      treeWalk s good s.cursor = some (n, vs) ∧ (readNode n s).child bad = none ∧
      walk bits s = .absent (walkedTo s n good.length vs) := by
  induction bits generalizing s with
  | nil => simp [treeWalk] at h
  | cons bit bits ih =>
    by_cases he : s.dcnt = s.dtotal
    · simp [he, treeWalk] at h
    · obtain ⟨h1, h2⟩ := take_bits_succ hle he
      have hlt := dcnt_lt hle he
      rw [h2, List.take_succ_cons] at h ⊢
      cases hc : (readNode s.cursor s).child bit with
      | none =>
        exact ⟨[], bit, _, s.cursor, [], rfl, rfl, hc, by simp [walk, he, hc, walkedTo_zero]⟩
      | some k =>
        rw [treeWalk_cons hc, Option.map_eq_none_iff] at h
        have hd := takeChild_dcnt k s
        have ht : (takeChild k s).dtotal = s.dtotal := by rw [takeChild_eq]
        obtain ⟨good, bad, rest, n, vs, hb, hg, ha, hw⟩ :=
          ih (s := takeChild k s) (by rw [hd, ht]; omega) (by rw [hd, ht, treeWalk_takeChild, h])
        rw [hd, ht] at hb
        rw [treeWalk_takeChild] at hg
        rw [readNode_takeChild] at ha
        refine ⟨bit :: good, bad, rest, n, leafValue k s ++ vs, by rw [hb]; rfl, ?_, ha, ?_⟩
        · rw [treeWalk_cons hc, hg]; rfl
        · rw [walk_cons he hc, hw, takeChild_walkedTo, walkedTo_walkedTo, List.length_cons, Nat.add_comm 1]

/-- The loop of DBYTE over good bits that are still wanted, followed by others (43_decoder.md R193). -/
theorem walk_append (good rest : List Bool) {s : State} {n : NodeIdx} {vs : List Byte}
    (hle : s.dcnt.toNat ≤ s.dtotal.toNat) (hl : good.length ≤ s.dtotal.toNat - s.dcnt.toNat)
    (h : treeWalk s good s.cursor = some (n, vs)) :
    walk (good ++ rest) s = walk rest (walkedTo s n good.length vs) := by
  induction good generalizing s n vs with
  | nil =>
    simp only [treeWalk, Option.some.injEq, Prod.mk.injEq] at h
    obtain ⟨rfl, rfl⟩ := h
    rw [List.length_nil, walkedTo_zero, List.nil_append]
  | cons bit good ih =>
    rw [List.length_cons] at hl
    have he : s.dcnt ≠ s.dtotal := by intro e; rw [e] at hl; omega
    obtain ⟨h1, h2⟩ := take_bits_succ hle he
    cases hc : (readNode s.cursor s).child bit with
    | none => simp [treeWalk, hc] at h
    | some k =>
      rw [List.cons_append, walk_cons he hc]
      rw [treeWalk_cons hc] at h
      have hd := takeChild_dcnt k s
      have ht : (takeChild k s).dtotal = s.dtotal := by rw [takeChild_eq]
      cases hw : treeWalk s good (takeChild k s).cursor with
      | none => rw [hw] at h; cases h
      | some p =>
        rw [hw, Option.map_some, Option.some.injEq, Prod.mk.injEq] at h
        obtain ⟨rfl, rfl⟩ := h
        rw [ih (s := takeChild k s) (n := p.1) (vs := p.2) (by rw [hd, ht]; omega) (by rw [hd, ht]; omega)
          (by rw [treeWalk_takeChild, hw]), takeChild_walkedTo, walkedTo_walkedTo, List.length_cons, Nat.add_comm 1]

/-- The loop of DBYTE never looks at a bit past the bit count (43_decoder.md R196). -/
theorem walk_take (bits : List Bool) {s : State} (hle : s.dcnt.toNat ≤ s.dtotal.toNat) :
    walk bits s = walk (bits.take (s.dtotal.toNat - s.dcnt.toNat)) s := by
  induction bits generalizing s with
  | nil => rw [List.take_nil]
  | cons bit bits ih =>
    by_cases he : s.dcnt = s.dtotal
    · rw [walk_done _ he, walk_done _ he]
    · obtain ⟨h1, h2⟩ := take_bits_succ hle he
      have hlt := dcnt_lt hle he
      rw [h2, List.take_succ_cons]
      cases hc : (readNode s.cursor s).child bit with
      | none => simp [walk, he, hc]
      | some k =>
        have hd := takeChild_dcnt k s
        have ht : (takeChild k s).dtotal = s.dtotal := by rw [takeChild_eq]
        rw [walk_cons he hc, walk_cons he hc, ih (by rw [hd, ht]; omega), hd, ht]

/-! ## DBYTE -/

@[simp] theorem bitsOf_length (b : Byte) : (bitsOf b).length = 8 := rfl

theorem wantedBits_length (b : Byte) (s : State) :
    (wantedBits b s).length = min (s.dtotal.toNat - s.dcnt.toNat) 8 := by
  simp [wantedBits]

/-- DBYTE when every wanted bit finds its child (43_decoder.md R193). -/
theorem decodeByte_of_some {b : Byte} {s : State} {n : NodeIdx} {vs : List Byte}
    (hle : s.dcnt.toNat ≤ s.dtotal.toNat) (h : treeWalk s (wantedBits b s) s.cursor = some (n, vs)) :
    decodeByte b s = finishByte (walkedTo s n (wantedBits b s).length vs) := by
  rw [decodeByte, walk_of_some (bitsOf b) hle h, wantedBits_length, bitsOf_length, Nat.min_comm]

/-- DBYTE when a wanted bit selects an absent child (43_decoder.md R194). -/
theorem decodeByte_of_none {b : Byte} {s : State} (hle : s.dcnt.toNat ≤ s.dtotal.toNat)
    (h : treeWalk s (wantedBits b s) s.cursor = none) :
    ∃ good bad rest n vs, wantedBits b s = good ++ bad :: rest ∧
      treeWalk s good s.cursor = some (n, vs) ∧ (readNode n s).child bad = none ∧
      decodeByte b s = raiseFault .corruption Opcode.dbyte.byte s.dbytes (walkedTo s n good.length vs) := by
  obtain ⟨good, bad, rest, n, vs, hb, hg, ha, hw⟩ := walk_of_none (bitsOf b) hle h
  exact ⟨good, bad, rest, n, vs, hb, hg, ha, by rw [decodeByte, hw]; rfl⟩

/-- DBYTE sees the wanted bits of its byte alone (43_decoder.md R196). -/
theorem decodeByte_congr {b b' : Byte} {s : State} (hle : s.dcnt.toNat ≤ s.dtotal.toNat)
    (h : wantedBits b s = wantedBits b' s) : decodeByte b s = decodeByte b' s := by
  unfold wantedBits at h
  rw [decodeByte, decodeByte, walk_take _ hle, h, ← walk_take _ hle]

/-- DBYTE up to the first wanted bit that selects an absent child (43_decoder.md R194). -/
theorem decodeByte_of_absent {b : Byte} {s : State} {good rest : List Bool} {bad : Bool} {n : NodeIdx} {vs : List Byte}
    (hle : s.dcnt.toNat ≤ s.dtotal.toNat) (hb : wantedBits b s = good ++ bad :: rest)
    (h : treeWalk s good s.cursor = some (n, vs)) (hc : (readNode n s).child bad = none) :
    decodeByte b s = raiseFault .corruption Opcode.dbyte.byte s.dbytes (walkedTo s n good.length vs) := by
  have hl := congrArg List.length hb
  rw [wantedBits_length, List.length_append, List.length_cons] at hl
  have hd := s.dtotal.isLt
  unfold wantedBits at hb
  rw [decodeByte, walk_take _ hle, hb, walk_append good _ hle (by omega) h]
  have hne : (walkedTo s n good.length vs).dcnt ≠ (walkedTo s n good.length vs).dtotal := by
    intro e
    have e := congrArg BitVec.toNat (show s.dcnt + BitVec.ofNat 32 good.length = s.dtotal from e)
    rw [BitVec.toNat_add, BitVec.toNat_ofNat] at e
    omega
  have hr : (readNode (walkedTo s n good.length vs).cursor (walkedTo s n good.length vs)).child bad = none := hc
  simp only [walk, if_neg hne, hr]
  rfl

/-- Everything DBYTE can do while the count is in range. -/
theorem decodeByte_cases (b : Byte) {s : State} (hle : s.dcnt.toNat ≤ s.dtotal.toNat) :
    (∃ n vs, treeWalk s (wantedBits b s) s.cursor = some (n, vs) ∧
      decodeByte b s = finishByte (walkedTo s n (wantedBits b s).length vs)) ∨
    (∃ good bad rest n vs, wantedBits b s = good ++ bad :: rest ∧
      treeWalk s good s.cursor = some (n, vs) ∧ (readNode n s).child bad = none ∧
      decodeByte b s = raiseFault .corruption Opcode.dbyte.byte s.dbytes (walkedTo s n good.length vs)) := by
  cases h : treeWalk s (wantedBits b s) s.cursor with
  | none => exact .inr (decodeByte_of_none hle h)
  | some p => exact .inl ⟨p.1, p.2, rfl, decodeByte_of_some hle h⟩

/-- A walk that starts at the root or at an entry that is no leaf ends at one (10_state.md R56). -/
theorem treeWalk_end {s : State} (bits : List Bool) {n m : NodeIdx} {vs : List Byte}
    (hn : n = s.root ∨ (readNode n s).isLeaf = false) (h : treeWalk s bits n = some (m, vs)) :
    m = s.root ∨ (readNode m s).isLeaf = false := by
  induction bits generalizing n vs with
  | nil =>
    simp only [treeWalk, Option.some.injEq, Prod.mk.injEq] at h
    exact h.1 ▸ hn
  | cons bit bits ih =>
    simp only [treeWalk] at h
    split at h
    · cases h
    · rename_i k _
      split at h
      · cases hw : treeWalk s bits s.root with
        | none => rw [hw] at h; cases h
        | some p =>
          rw [hw, Option.map_some, Option.some.injEq, Prod.mk.injEq] at h
          exact ih (.inl rfl) (hw.trans (by rw [← h.1]))
      · rename_i hl
        exact ih (.inr (by simpa using hl)) h

/-! ## What the decoder reads -/

/-- Which entries a walk reads is decided by NODE and ROOT alone. -/
theorem visited_congr {s t : State} (hn : s.node = t.node) (hr : s.root = t.root) (bits : List Bool) (n : NodeIdx) :
    visited s bits n = visited t bits n := by
  induction bits generalizing n with
  | nil => rfl
  | cons bit bits ih =>
    simp only [visited, readNode_congr hn, hr]
    split
    · rfl
    · rw [ih]

/-- The state with other tables. -/
def withTables (freq : Vector Word 256) (code : Vector (List Bool) 256) (node : Vector Node 511) (s : State) : State :=
  { s with freq := freq, code := code, node := node }

/-- Two entries a walk cannot tell apart: the same children and, for a leaf, the same value (43_decoder.md R198). -/
def sameEntry (e e' : Node) : Prop := e.left = e'.left ∧ e.right = e'.right ∧ (e.isLeaf = true → e.value = e'.value)

theorem sameEntry.isLeaf {e e' : Node} (h : sameEntry e e') : e.isLeaf = e'.isLeaf := by
  simp [Node.isLeaf, h.1, h.2.1]

theorem sameEntry.child {e e' : Node} (h : sameEntry e e') (bit : Bool) : e.child bit = e'.child bit := by
  simp [Node.child, h.1, h.2.1]

theorem takeChild_withTables {freq : Vector Word 256} {code : Vector (List Bool) 256} {node : Vector Node 511} {s : State}
    {k : NodeIdx} (h : sameEntry (readNode k s) node[k.val]) :
    takeChild k (withTables freq code node s) = withTables freq code node (takeChild k s) := by
  have hr : readNode k (withTables freq code node s) = node[k.val] := rfl
  rw [takeChild_eq, takeChild_eq, hr, ← h.isLeaf]
  cases hl : (readNode k s).isLeaf with
  | true => simp [withTables, h.2.2 hl]
  | false => simp [withTables]

/-- The loop of DBYTE does the same with any tables that agree on the entries it reads (43_decoder.md R198). -/
theorem walk_withTables (freq : Vector Word 256) (code : Vector (List Bool) 256) (node : Vector Node 511)
    (bits : List Bool) {s : State} (h : ∀ n ∈ visited s bits s.cursor, sameEntry (readNode n s) node[n.val]) :
    walk bits (withTables freq code node s) =
      match walk bits s with
      | .done t => .done (withTables freq code node t)
      | .absent t => .absent (withTables freq code node t) := by
  induction bits generalizing s with
  | nil => rfl
  | cons bit bits ih =>
    by_cases he : s.dcnt = s.dtotal
    · rw [walk_done _ he, walk_done]; exact he
    · have h0 : sameEntry (readNode s.cursor s) node[s.cursor.val] := h _ List.mem_cons_self
      have hr : (readNode (withTables freq code node s).cursor (withTables freq code node s)).child bit =
          (readNode s.cursor s).child bit := (h0.child bit).symm
      cases hc : (readNode s.cursor s).child bit with
      | none =>
        have h1 : walk (bit :: bits) s = .absent s := by simp [walk, he, hc]
        have h2 : walk (bit :: bits) (withTables freq code node s) = .absent (withTables freq code node s) := by
          simp only [walk, hr, hc]
          exact if_neg he
        rw [h1, h2]
      | some k =>
        have hv : visited s (bit :: bits) s.cursor =
            s.cursor :: k :: visited s bits (if (readNode k s).isLeaf then s.root else k) := by
          simp [visited, hc]
        rw [hv] at h
        have hk := h k (by simp)
        rw [walk_cons he hc, walk_cons (k := k) (show (withTables freq code node s).dcnt ≠ _ from he) (hr.trans hc),
          takeChild_withTables hk]
        refine ih fun n hn => ?_
        rw [visited_congr (t := s) (by rw [takeChild_eq]) (by rw [takeChild_eq]), takeChild_eq] at hn
        rw [readNode_takeChild]
        exact h n (List.mem_cons_of_mem _ (List.mem_cons_of_mem _ hn))

/-- DBYTE does the same with any tables that agree on the entries its walk reads (43_decoder.md R198). -/
theorem decodeByte_withTables (freq : Vector Word 256) (code : Vector (List Bool) 256) (node : Vector Node 511)
    {b : Byte} {s : State} (hle : s.dcnt.toNat ≤ s.dtotal.toNat)
    (h : ∀ n ∈ visited s (wantedBits b s) s.cursor, sameEntry (readNode n s) node[n.val]) :
    decodeByte b (withTables freq code node s) = withTables freq code node (decodeByte b s) := by
  have hw := walk_withTables freq code node (wantedBits b s) h
  have h1 : walk (bitsOf b) s = walk (wantedBits b s) s := walk_take _ hle
  have h2 : walk (bitsOf b) (withTables freq code node s) = walk (wantedBits b s) (withTables freq code node s) :=
    walk_take _ hle
  rw [decodeByte, decodeByte, h1, h2, hw]
  cases walk (wantedBits b s) s with
  | absent t => rfl
  | done t => simp only [finishByte]; rw [apply_ite (withTables freq code node)]; rfl

/-! ## A session -/

/-- What a decode session still wants: the bits of its bytes up to the bit count. -/
def sessionBits (packed : List Byte) (s : State) : List Bool :=
  (packed.flatMap bitsOf).take (s.dtotal.toNat - s.dcnt.toNat)

/-- The end of a byte, in one record. -/
theorem finishByte_walkedTo (s : State) (n : NodeIdx) (c : Nat) (vs : List Byte) :
    finishByte (walkedTo s n c vs) =
      { s with
        cursor := n
        dcnt := s.dcnt + BitVec.ofNat 32 c
        out := s.out ++ vs
        dbytes := s.dbytes + 1
        phase := if s.dcnt + BitVec.ofNat 32 c = s.dtotal then .idle else s.phase
        ddone := if s.dcnt + BitVec.ofNat 32 c = s.dtotal then true else s.ddone } := by
  unfold finishByte walkedTo
  split <;> rename_i h <;> simp only at h <;> simp [h]

/-- The bytes of a decode session, when all its bits find their children and there are exactly as many bytes as the bit
count needs (43_decoder.md R190). -/
theorem decodeBytes_of_some (packed : List Byte) {s : State} {n : NodeIdx} {vs : List Byte}
    (hp : s.phase = .dec) (hlt : s.dcnt.toNat < s.dtotal.toNat)
    (hlen : packed.length = packedLength (s.dtotal.toNat - s.dcnt.toNat))
    (h : treeWalk s (sessionBits packed s) s.cursor = some (n, vs)) :
    (packed.map Instr.dbyte).foldl (fun t i => effect i t) s =
      { s with
        cursor := n
        dcnt := s.dtotal
        out := s.out ++ vs
        dbytes := s.dbytes + BitVec.ofNat 32 packed.length
        phase := .idle
        ddone := true } := by
  induction packed generalizing s n vs with
  | nil => simp [packedLength] at hlen; omega
  | cons b packed ih =>
    have hd := s.dtotal.isLt
    have hL : (wantedBits b s).length = min (s.dtotal.toNat - s.dcnt.toNat) 8 := wantedBits_length b s
    have hsplit : sessionBits (b :: packed) s =
        wantedBits b s ++ (packed.flatMap bitsOf).take (s.dtotal.toNat - s.dcnt.toNat - 8) := by
      simp [sessionBits, wantedBits, List.take_append]
    rw [hsplit, treeWalk_append] at h
    cases hw : treeWalk s (wantedBits b s) s.cursor with
    | none => rw [hw] at h; cases h
    | some p =>
      rw [hw, Option.bind_some] at h
      cases hr : treeWalk s ((packed.flatMap bitsOf).take (s.dtotal.toNat - s.dcnt.toNat - 8)) p.1 with
      | none => rw [hr] at h; cases h
      | some q =>
        rw [hr, Option.map_some, Option.some.injEq, Prod.mk.injEq] at h
        obtain ⟨rfl, rfl⟩ := h
        have he : effect (.dbyte b) s = finishByte (walkedTo s p.1 (wantedBits b s).length p.2) := by
          rw [effect_legal (by simp [Instr.opcode, legalIn, hp])]
          exact decodeByte_of_some (Nat.le_of_lt hlt) hw
        rw [List.map_cons, List.foldl_cons, he, finishByte_walkedTo]
        have hcnt : (s.dcnt + BitVec.ofNat 32 (wantedBits b s).length).toNat
            = s.dcnt.toNat + min (s.dtotal.toNat - s.dcnt.toNat) 8 := by
          rw [hL, BitVec.toNat_add, BitVec.toNat_ofNat]; omega
        by_cases hlast : s.dtotal.toNat - s.dcnt.toNat ≤ 8
        · have hnil : packed = [] := by
            apply List.length_eq_zero_iff.mp
            simp [packedLength] at hlen; omega
          have heq : s.dcnt + BitVec.ofNat 32 (wantedBits b s).length = s.dtotal := by
            apply BitVec.eq_of_toNat_eq; rw [hcnt]; omega
          subst hnil
          simp only [List.flatMap_nil, List.take_nil, treeWalk, Option.some.injEq] at hr
          subst hr
          simp [heq]
        · have hne : s.dcnt + BitVec.ofNat 32 (wantedBits b s).length ≠ s.dtotal := by
            intro e; rw [e] at hcnt; omega
          rw [if_neg hne, if_neg hne]
          have hmin : s.dtotal.toNat - (s.dcnt.toNat + min (s.dtotal.toNat - s.dcnt.toNat) 8)
              = s.dtotal.toNat - s.dcnt.toNat - 8 := by omega
          refine Eq.trans (ih (n := q.1) (vs := q.2) (by exact hp) ?_ ?_ ?_) ?_
          · show (s.dcnt + _).toNat < s.dtotal.toNat
            rw [hcnt]; omega
          · show packed.length = packedLength (s.dtotal.toNat - (s.dcnt + _).toNat)
            rw [hcnt, hmin]
            simp only [List.length_cons, packedLength] at hlen ⊢
            omega
          · show treeWalk _ ((packed.flatMap bitsOf).take (s.dtotal.toNat - (s.dcnt + _).toNat)) p.1 = _
            rw [hcnt, hmin]
            exact (treeWalk_congr (s := { s with
              cursor := p.1, dcnt := s.dcnt + BitVec.ofNat 32 (wantedBits b s).length
              dbytes := s.dbytes + 1, out := s.out ++ p.2 }) (t := s) rfl rfl _ _).trans hr
          · simp only [List.append_assoc, List.length_cons, BitVec.add_assoc]
            rw [BitVec.ofNat_add, BitVec.add_comm (1 : Word)]; rfl

end Sys2Proof.Machine
end

