-- ==== Sys2Proof/Laws/Encoder.lean ====
section
/-! SUPPORT. Laws/Encoder.lean: what the encoder's accumulator holds, what pushing bits does to it, and what ESYM and
EEND come to. -/

namespace Sys2Proof.Machine

/-- The accumulator holds exactly the bits `r` (10_state.md R25, R26). -/
structure Holds (s : State) (r : List Bool) : Prop where
  length : s.nacc.toNat = r.length
  value : s.acc.toNat = bitsValue r

/-- The accumulator of state `s` replaced by one that holds `r`. -/
def setPending (s : State) (r : List Bool) : State :=
  { s with acc := BitVec.ofNat 8 (bitsValue r), nacc := BitVec.ofNat 3 r.length }

theorem Holds.length_lt {s : State} {r : List Bool} (h : Holds s r) : r.length < 8 := by
  have := s.nacc.isLt
  have := h.length
  omega

theorem Holds.acc_eq {s : State} {r : List Bool} (h : Holds s r) : s.acc = BitVec.ofNat 8 (bitsValue r) := by
  apply BitVec.eq_of_toNat_eq
  rw [← h.value]; simp

theorem Holds.nacc_eq {s : State} {r : List Bool} (h : Holds s r) : s.nacc = BitVec.ofNat 3 r.length := by
  apply BitVec.eq_of_toNat_eq
  rw [← h.length]; simp

theorem Holds.setPending_eq {s : State} {r : List Bool} (h : Holds s r) : setPending s r = s := by
  simp [setPending, ← h.acc_eq, ← h.nacc_eq]

theorem holds_setPending (s : State) {r : List Bool} (h : r.length < 8) : Holds (setPending s r) r := by
  constructor
  · simp [setPending]; omega
  · have := bitsValue_lt r
    have h2 : 2 ^ r.length ≤ 2 ^ 8 := Nat.pow_le_pow_right (by omega) (by omega)
    simp [setPending]; omega

/-- Shifting a bit into the accumulator doubles it and adds the bit (42_encoder.md R176). -/
theorem shiftIn_toNat : ∀ (a : BitVec 8) (b : Bool),
    (a <<< 1 ||| (BitVec.ofBool b).setWidth 8).toNat = (2 * a.toNat + b.toNat) % 256 := by decide

/-- One bit: append it to the bits held, and emit the byte when it is the eighth (42_encoder.md R172). -/
theorem pushBit_of_holds {s : State} {r : List Bool} (h : Holds s r) (b : Bool) :
    pushBit s b = setPending (emitAll (fullBytes (r ++ [b])) s) (leftover (r ++ [b])) := by
  have hl := h.length_lt
  have hacc : s.acc <<< 1 ||| (BitVec.ofBool b).setWidth 8 = BitVec.ofNat 8 (bitsValue (r ++ [b])) := by
    apply BitVec.eq_of_toNat_eq
    rw [shiftIn_toNat, h.value, bitsValue_append_one, BitVec.toNat_ofNat]
  have hlen : (r ++ [b]).length = r.length + 1 := by simp
  unfold pushBit
  rw [hacc, h.length]
  by_cases hf : r.length + 1 = 8
  · have h8 : (r ++ [b]).length = 8 := by omega
    have e := fullBytes_append h8 []
    have e' := leftover_append h8 []
    rw [List.append_nil] at e e'
    have hp := packedByte_eq_shift (r ++ [b]) (by omega)
    rw [h8] at hp
    simp [hf, e, e', hp, fullBytes_short, leftover_short, setPending, emit, bitsValue]
  · have h7 : (r ++ [b]).length < 8 := by omega
    simp [hf, fullBytes_short h7, leftover_short h7, setPending, emitAll, h.nacc_eq]
    apply BitVec.eq_of_toNat_eq
    simp

/-- Pushing bits: the bits held and the new ones, cut into bytes; the full ones are emitted, the rest is held
(42_encoder.md R172, R176). -/
theorem pushBits_of_holds (bits : List Bool) {s : State} {r : List Bool} (h : Holds s r) :
    pushBits bits s = setPending (emitAll (fullBytes (r ++ bits)) s) (leftover (r ++ bits)) := by
  induction bits generalizing s r with
  | nil =>
    have hl := h.length_lt
    simp [pushBits, fullBytes_short, leftover_short, hl]
    rw [show emitAll [] s = s by simp [emitAll], h.setPending_eq]
  | cons b bits ih =>
    have hs : pushBits (b :: bits) s = pushBits bits (pushBit s b) := rfl
    rw [hs, pushBit_of_holds h b]
    have hr : (leftover (r ++ [b])).length < 8 := by rw [leftover_length]; omega
    rw [ih (holds_setPending _ hr)]
    have happ : r ++ b :: bits = (r ++ [b]) ++ bits := by simp
    by_cases hf : (r ++ [b]).length = 8
    · have e := fullBytes_append hf []
      have e' := leftover_append hf []
      rw [List.append_nil] at e e'
      rw [happ, fullBytes_append hf, leftover_append hf, e, e']
      simp [fullBytes_short, leftover_short, setPending, emitAll]
    · have hl := h.length_lt
      have h7 : (r ++ [b]).length < 8 := by simp at hf ⊢; omega
      rw [happ, fullBytes_short h7, leftover_short h7]
      simp [setPending, emitAll]

/-! ## The bits held, read off the registers -/

theorem mod_two_pow_succ (a n : Nat) : a % 2 ^ (n + 1) = (a.testBit n).toNat * 2 ^ n + a % 2 ^ n := by
  rw [Nat.mod_pow_succ, Nat.testBit_eq_decide_div_mod_eq]
  rcases Nat.mod_two_eq_zero_or_one (a / 2 ^ n) with h | h <;> simp [h]
  omega

theorem bitsValue_bits (a n : Nat) :
    bitsValue ((List.range n).map fun j => a.testBit (n - 1 - j)) = a % 2 ^ n := by
  induction n with
  | zero => simp [bitsValue, Nat.mod_one]
  | succ n ih =>
    rw [List.range_succ_eq_map, List.map_cons, List.map_map, bitsValue, mod_two_pow_succ]
    have hm : (List.range n).map ((fun j => a.testBit (n + 1 - 1 - j)) ∘ Nat.succ)
        = (List.range n).map fun j => a.testBit (n - 1 - j) := by
      apply List.map_congr_left
      intro j _
      have : n - (j + 1) = n - 1 - j := by omega
      simp [this]
    rw [hm, ih]
    simp

theorem bitsValue_inj : ∀ {l m : List Bool}, l.length = m.length → bitsValue l = bitsValue m → l = m
  | [], [], _, _ => rfl
  | a :: l, b :: m, hl, hv => by
    have hl' : l.length = m.length := by simpa using hl
    have h1 := bitsValue_lt l
    have h2 := bitsValue_lt m
    simp only [bitsValue, hl'] at hv h1
    cases a <;> cases b <;> simp at hv <;> first
      | (exfalso; omega)
      | (rw [bitsValue_inj hl' (by omega)])

/-- With no bits above NACC set, the accumulator holds the bits its registers show (10_state.md R25). -/
theorem holds_pendingBits {s : State} (h : s.acc.toNat < 2 ^ s.nacc.toNat) : Holds s (pendingBits s) := by
  constructor
  · simp [pendingBits]
  · have := bitsValue_bits s.acc.toNat s.nacc.toNat
    rw [Nat.mod_eq_of_lt h] at this
    exact this.symm

theorem Holds.acc_lt {s : State} {r : List Bool} (h : Holds s r) : s.acc.toNat < 2 ^ s.nacc.toNat := by
  rw [h.value, h.length]; exact bitsValue_lt r

/-- The bits an accumulator holds are the bits its registers show. -/
theorem Holds.pendingBits_eq {s : State} {r : List Bool} (h : Holds s r) : pendingBits s = r := by
  have hp := holds_pendingBits h.acc_lt
  exact bitsValue_inj (by rw [← hp.length, h.length]) (by rw [← hp.value, h.value])

/-! ## The commands -/

/-- ESYM without an overflow (42_encoder.md R172). -/
theorem encodeSymbol_of_holds {s : State} {r : List Bool} (h : Holds s r) (b : Byte)
    (hb : s.bitcnt.toNat + (readCode b s).length ≤ s.config.maxCount) :
    encodeSymbol b s =
      { setPending (emitAll (fullBytes (r ++ readCode b s)) s) (leftover (r ++ readCode b s)) with
        bitcnt := s.bitcnt + BitVec.ofNat 32 (readCode b s).length } := by
  unfold encodeSymbol
  rw [if_neg (by omega), pushBits_of_holds _ h]

/-- The flush of EEND emits the bits held, padded, and nothing when none are held (42_encoder.md R174). -/
theorem flushPartial_of_holds {s : State} {r : List Bool} (h : Holds s r) :
    flushPartial s =
      { emitAll (if r.length = 0 then [] else [packedByte r]) s with acc := 0, nacc := 0 } := by
  have hl := h.length_lt
  have hn : s.nacc = 0 ↔ r.length = 0 := by
    rw [← h.length]
    constructor
    · intro e; simp [e]
    · intro e; apply BitVec.eq_of_toNat_eq; simpa using e
  unfold flushPartial
  by_cases h0 : r.length = 0
  · have hr : r = [] := List.length_eq_zero_iff.mp h0
    have ha := h.acc_eq
    have hz := hn.mpr h0
    subst hr
    simp only [bitsValue] at ha
    rw [if_pos hz]
    cases s
    simp only at hz ha
    simp [emitAll, hz, ha]
  · rw [if_neg (fun e => h0 (hn.mp e)), h.length, h.acc_eq, ← packedByte_eq_shift r (by omega), if_neg h0]
    rfl

/-- The state of an encode session opened in state `s` after the code bits `bits` (42_encoder.md R170). -/
def inSession (s : State) (bits : List Bool) : State :=
  { setPending (emitAll (headerBytes s ++ fullBytes bits) s) (leftover bits) with
    bitcnt := BitVec.ofNat 32 bits.length
    phase := .enc }

theorem openEncode_eq (s : State) : openEncode s = inSession s [] := by
  simp [openEncode, inSession, setPending, fullBytes, leftover, bitsValue, emitAll]

theorem inSession_holds (s : State) (bits : List Bool) : Holds (inSession s bits) (leftover bits) := by
  have h : (leftover bits).length < 8 := by rw [leftover_length]; omega
  have hs := holds_setPending s h
  exact ⟨hs.length, hs.value⟩

/-- Cutting a longer bit string into bytes: first what was cut before, then the bits left over and the new ones. -/
theorem fullBytes_leftover (l m : List Bool) :
    fullBytes (l ++ m) = fullBytes l ++ fullBytes (leftover l ++ m) ∧
      leftover (l ++ m) = leftover (leftover l ++ m) := by
  induction hn : l.length / 8 generalizing l with
  | zero =>
    have h : l.length < 8 := by omega
    simp [fullBytes_short h, leftover_short h]
  | succ n ih =>
    have hl : 8 ≤ l.length := by omega
    have ht : (l.take 8).length = 8 := by simp; omega
    have hd : (l.drop 8).length / 8 = n := by simp; omega
    have he : l = l.take 8 ++ l.drop 8 := by simp
    have := ih (l.drop 8) hd
    constructor
    · conv_lhs => rw [he, List.append_assoc, fullBytes_append ht, this.1]
      conv_rhs => rw [he, fullBytes_append ht, leftover_append ht]
      rfl
    · conv_lhs => rw [he, List.append_assoc, leftover_append ht, this.2]
      conv_rhs => rw [he, leftover_append ht]

/-- ESYM inside a session appends the code word of its symbol to the session's bits (42_encoder.md R172). -/
theorem encodeSymbol_inSession (s : State) (bits : List Bool) (b : Byte)
    (hb : bits.length + (readCode b s).length ≤ s.config.maxCount) :
    encodeSymbol b (inSession s bits) = inSession s (bits ++ readCode b s) := by
  have hm := s.config.maxCount_lt_word
  have hc : readCode b (inSession s bits) = readCode b s := rfl
  rw [encodeSymbol_of_holds (inSession_holds s bits) b, hc]
  · have hf := fullBytes_leftover bits (readCode b s)
    rw [inSession, inSession, hf.1, hf.2]
    simp [setPending, emitAll, List.append_assoc, BitVec.ofNat_add]
  · rw [hc]
    simp [inSession, Nat.mod_eq_of_lt (show bits.length < 4294967296 by omega), setPending]
    omega

/-- EEND inside a session completes the encoded stream of the session's bits (42_encoder.md R170, R174). -/
theorem closeEncode_inSession (s : State) (bits : List Bool) :
    closeEncode (inSession s bits) =
      { s with
        out := s.out ++ encodedStream s.config s.freq bits
        rsp := s.rsp ++ [BitVec.ofNat 32 bits.length]
        acc := 0, nacc := 0
        bitcnt := BitVec.ofNat 32 bits.length
        phase := .idle } := by
  have hl := leftover_length bits
  unfold closeEncode
  rw [flushPartial_of_holds (inSession_holds s bits), hl]
  simp [encodedStream, packBits_eq, inSession, setPending, emitAll, respond, headerBytes, List.append_assoc]

end Sys2Proof.Machine
end

