-- ==== Sys2Proof/Laws/Frame.lean ====
section
/-! SUPPORT. Laws/Frame.lean: everything the action of a command can change, in every state, one lemma an action. -/

namespace Sys2Proof.Machine

/-! ## The loops -/

/-- Everything the loop of ESYM can change (42_encoder.md R172). -/
theorem pushBits_frame (bits : List Bool) (s : State) :
    pushBits bits s = { s with
      acc := (pushBits bits s).acc, nacc := (pushBits bits s).nacc, out := (pushBits bits s).out } ∧
    s.out <+: (pushBits bits s).out := by
  induction bits generalizing s with
  | nil => exact ⟨rfl, List.prefix_refl _⟩
  | cons b bits ih =>
    have hb : pushBit s b = { s with acc := (pushBit s b).acc, nacc := (pushBit s b).nacc, out := (pushBit s b).out } ∧
        s.out <+: (pushBit s b).out := by
      unfold pushBit
      split
      · exact ⟨rfl, List.prefix_append _ _⟩
      · exact ⟨rfl, List.prefix_refl _⟩
    obtain ⟨h1, h2⟩ := ih (pushBit s b)
    rw [show pushBits (b :: bits) s = pushBits bits (pushBit s b) from rfl]
    refine ⟨?_, hb.2.trans h2⟩
    rw [h1]
    generalize pushBits bits (pushBit s b) = t
    rw [hb.1]

/-- The state a walk comes to. -/
def Walk.state : Walk → State
  | .done t => t
  | .absent t => t

/-- Everything the loop of DBYTE can change (43_decoder.md R193). -/
theorem walk_frame (bits : List Bool) (s : State) :
    (walk bits s).state = { s with
      cursor := (walk bits s).state.cursor, dcnt := (walk bits s).state.dcnt, out := (walk bits s).state.out } ∧
    s.out <+: (walk bits s).state.out := by
  induction bits generalizing s with
  | nil => exact ⟨rfl, List.prefix_refl _⟩
  | cons b bits ih =>
    unfold walk
    split
    · exact ⟨rfl, List.prefix_refl _⟩
    · split
      · exact ⟨rfl, List.prefix_refl _⟩
      · rename_i k _
        have hk : takeChild k s = { s with
            cursor := (takeChild k s).cursor, dcnt := (takeChild k s).dcnt, out := (takeChild k s).out } ∧
            s.out <+: (takeChild k s).out := by
          unfold takeChild
          split
          · exact ⟨rfl, List.prefix_append _ _⟩
          · exact ⟨rfl, List.prefix_refl _⟩
        obtain ⟨h1, h2⟩ := ih (takeChild k s)
        refine ⟨?_, hk.2.trans h2⟩
        rw [h1]
        generalize (walk bits (takeChild k s)).state = t
        rw [hk.1]

/-! ## The actions -/

/-- Everything HACC can do. -/
theorem countSymbol_cases (b : Byte) (s : State) :
    countSymbol b s = raiseFault .histOverflow Opcode.hacc.byte (b.setWidth 32) s ∨
    countSymbol b s = writeFreq b (readFreq b s + 1) s := by
  unfold countSymbol
  split
  · exact .inl rfl
  · exact .inr rfl

/-- Everything HLD can do. -/
theorem loadCount_cases (i : Byte) (v : Word) (s : State) :
    loadCount i v s = raiseFault .illegalOperand Opcode.hld.byte v s ∨ loadCount i v s = writeFreq i v s := by
  unfold loadCount
  split
  · exact .inl rfl
  · rename_i n h
    rw [(countOperand_eq_some.mp h).2]
    exact .inr rfl

/-- Everything CAPP can do. -/
theorem appendCodeBit_cases (b : Byte) (bit : Bool) (s : State) :
    appendCodeBit b bit s = raiseFault .codeTooLong Opcode.capp.byte (b.setWidth 32) s ∨
    appendCodeBit b bit s = writeCode b (readCode b s ++ [bit]) s := by
  unfold appendCodeBit
  split
  · exact .inl rfl
  · exact .inr rfl

/-- Everything NLD can do. -/
theorem loadNode_cases (n : BitVec 16) (v : Byte) (l r : BitVec 16) (s : State) :
    (∃ info, loadNode n v l r s = raiseFault .illegalOperand Opcode.nld.byte info s) ∨
    ∃ k left right, loadNode n v l r s = writeNode k { value := v, left := left, right := right } s := by
  unfold loadNode
  split
  · exact .inl ⟨_, rfl⟩
  · split
    · exact .inl ⟨_, rfl⟩
    · split
      · exact .inl ⟨_, rfl⟩
      · exact .inr ⟨_, _, _, rfl⟩

/-- Everything ESYM can do. -/
theorem encodeSymbol_cases (b : Byte) (s : State) :
    encodeSymbol b s = raiseFault .bitcountOverflow Opcode.esym.byte (b.setWidth 32) s ∨
    (encodeSymbol b s = { s with
      acc := (encodeSymbol b s).acc, nacc := (encodeSymbol b s).nacc, bitcnt := (encodeSymbol b s).bitcnt
      out := (encodeSymbol b s).out } ∧ s.out <+: (encodeSymbol b s).out) := by
  unfold encodeSymbol
  simp only
  split
  · exact .inl rfl
  · obtain ⟨h1, h2⟩ := pushBits_frame (readCode b s) s
    refine .inr ⟨?_, h2⟩
    rw [h1]

/-- Everything EEND can do. -/
theorem closeEncode_frame (s : State) :
    closeEncode s = { s with
      acc := (closeEncode s).acc, nacc := (closeEncode s).nacc, phase := .idle
      out := (closeEncode s).out, rsp := s.rsp ++ [s.bitcnt] } ∧ s.out <+: (closeEncode s).out := by
  unfold closeEncode flushPartial
  split
  · exact ⟨rfl, List.prefix_append _ _⟩
  · exact ⟨rfl, (List.prefix_append _ _).trans (List.prefix_append _ _)⟩

/-- Everything DBEGIN can do. -/
theorem openDecode_cases (root : BitVec 16) (total : Word) (s : State) :
    (∃ info, openDecode root total s = raiseFault .illegalOperand Opcode.dbegin.byte info s) ∨
    ∃ k, root.toNat = k.val ∧ total.toNat ≤ s.config.maxCount ∧ openDecode root total s = { s with
      root := k, cursor := k, dtotal := total, dcnt := 0, dbytes := 0
      ddone := decide (total = 0), phase := if total = 0 then s.phase else .dec } := by
  unfold openDecode
  split
  · exact .inl ⟨_, rfl⟩
  · rename_i k hk
    split
    · exact .inl ⟨_, rfl⟩
    · rename_i n hn
      obtain ⟨hle, rfl⟩ := countOperand_eq_some.mp hn
      refine .inr ⟨k, nodeIndexOperand_eq_some.mp hk, hle, ?_⟩
      dsimp only
      split
      · rename_i h; simp [h]
      · rename_i h; rw [decide_eq_false h]

/-- Everything DBYTE can do. -/
theorem decodeByte_frame (b : Byte) (s : State) :
    (∃ t : State, t = { s with cursor := t.cursor, dcnt := t.dcnt, out := t.out } ∧ s.out <+: t.out ∧
      decodeByte b s = raiseFault .corruption Opcode.dbyte.byte s.dbytes t) ∨
    ∃ t : State, t = { s with cursor := t.cursor, dcnt := t.dcnt, out := t.out } ∧ s.out <+: t.out ∧
      decodeByte b s = { t with
        dbytes := s.dbytes + 1
        phase := if t.dcnt = s.dtotal then .idle else s.phase
        ddone := if t.dcnt = s.dtotal then true else s.ddone } := by
  obtain ⟨h1, h2⟩ := walk_frame (bitsOf b) s
  unfold decodeByte
  cases hw : walk (bitsOf b) s with
  | absent t =>
    rw [hw] at h1 h2
    refine .inl ⟨t, h1, h2, ?_⟩
    show raiseFault _ _ t.dbytes t = _
    rw [show t.dbytes = s.dbytes by rw [show t = _ from h1]]
  | done t =>
    rw [hw] at h1 h2
    refine .inr ⟨t, h1, h2, ?_⟩
    have ht : t = { s with cursor := t.cursor, dcnt := t.dcnt, out := t.out } := h1
    show finishByte t = _
    unfold finishByte
    rw [show t.dtotal = s.dtotal by rw [ht], show t.dbytes = s.dbytes by rw [ht]]
    dsimp only
    split
    · rfl
    · rw [show s.phase = t.phase by rw [ht], show s.ddone = t.ddone by rw [ht]]

/-- No command changes the parameters or the model's own fields. -/
theorem action_frame (i : Instr) (s : State) :
    (action i s).config = s.config ∧ (action i s).host = s.host ∧ (action i s).resets = s.resets := by
  cases i <;> simp only [action]
  case hacc b => rcases countSymbol_cases b s with e | e <;> rw [e] <;> exact ⟨rfl, rfl, rfl⟩
  case hld k v => rcases loadCount_cases k v s with e | e <;> rw [e] <;> exact ⟨rfl, rfl, rfl⟩
  case capp b bit => rcases appendCodeBit_cases b bit s with e | e <;> rw [e] <;> exact ⟨rfl, rfl, rfl⟩
  case nld n v l r => rcases loadNode_cases n v l r s with ⟨_, e⟩ | ⟨_, _, _, e⟩ <;> rw [e] <;> exact ⟨rfl, rfl, rfl⟩
  case esym b => rcases encodeSymbol_cases b s with e | ⟨e, -⟩ <;> rw [e] <;> exact ⟨rfl, rfl, rfl⟩
  case eend => rw [(closeEncode_frame s).1]; exact ⟨rfl, rfl, rfl⟩
  case dbegin root total =>
    rcases openDecode_cases root total s with ⟨_, e⟩ | ⟨_, _, _, e⟩ <;> rw [e] <;> exact ⟨rfl, rfl, rfl⟩
  case dbyte b =>
    rcases decodeByte_frame b s with ⟨t, ht, -, e⟩ | ⟨t, ht, -, e⟩ <;> rw [e, ht] <;> exact ⟨rfl, rfl, rfl⟩
  all_goals exact ⟨rfl, rfl, rfl⟩

theorem effect_frame (i : Instr) (s : State) :
    (effect i s).config = s.config ∧ (effect i s).host = s.host ∧ (effect i s).resets = s.resets := by
  rcases effect_cases i s with ⟨-, e⟩ | ⟨-, -, e⟩ | ⟨-, -, e⟩ <;> rw [e]
  · exact action_frame i s
  · exact ⟨rfl, rfl, rfl⟩
  · exact ⟨rfl, rfl, rfl⟩

/-- Which commands can change a table, a trace or a working register (10_state.md R21 to R32, R45 to R49). -/
theorem action_changes (i : Instr) (s : State) :
    ((action i s).freq ≠ s.freq → i.opcode ∈ [Opcode.hclr, .hacc, .hld]) ∧
    ((action i s).code ≠ s.code → i.opcode ∈ [Opcode.cclr, .capp]) ∧
    ((action i s).node ≠ s.node → i.opcode = .nld) ∧
    ((action i s).rsp ≠ s.rsp → i.opcode ∈ [Opcode.hrd, .rdreg, .eend]) ∧
    ((action i s).out ≠ s.out → i.opcode ∈ [Opcode.ebegin, .esym, .eend, .dbyte]) ∧
    s.out <+: (action i s).out ∧ s.rsp <+: (action i s).rsp ∧
    ((action i s).ddone ≠ s.ddone → i.opcode ∈ [Opcode.dbegin, .dbyte, .rst]) ∧
    ((action i s).acc ≠ s.acc → i.opcode ∈ [Opcode.ebegin, .esym, .eend, .rst]) ∧
    ((action i s).nacc ≠ s.nacc → i.opcode ∈ [Opcode.ebegin, .esym, .eend, .rst]) ∧
    ((action i s).bitcnt ≠ s.bitcnt → i.opcode ∈ [Opcode.ebegin, .esym, .rst]) ∧
    ((action i s).root ≠ s.root → i.opcode ∈ [Opcode.dbegin, .rst]) ∧
    ((action i s).cursor ≠ s.cursor → i.opcode ∈ [Opcode.dbegin, .dbyte, .rst]) ∧
    ((action i s).dtotal ≠ s.dtotal → i.opcode ∈ [Opcode.dbegin, .rst]) ∧
    ((action i s).dcnt ≠ s.dcnt → i.opcode ∈ [Opcode.dbegin, .dbyte, .rst]) ∧
    ((action i s).dbytes ≠ s.dbytes → i.opcode ∈ [Opcode.dbegin, .dbyte, .rst]) := by
  cases i <;> simp only [action, Instr.opcode]
  case hacc b => rcases countSymbol_cases b s with e | e <;> rw [e] <;> simp
  case hld k v => rcases loadCount_cases k v s with e | e <;> rw [e] <;> simp
  case capp b bit => rcases appendCodeBit_cases b bit s with e | e <;> rw [e] <;> simp
  case nld n v l r => rcases loadNode_cases n v l r s with ⟨_, e⟩ | ⟨_, _, _, e⟩ <;> rw [e] <;> simp
  case esym b =>
    rcases encodeSymbol_cases b s with e | ⟨e, ho⟩
    · rw [e]; simp
    · rw [e]; simp [ho]
  case eend =>
    have ho := (closeEncode_frame s).2
    rw [(closeEncode_frame s).1]; simp [*]
  case dbegin root total =>
    rcases openDecode_cases root total s with ⟨_, e⟩ | ⟨_, _, _, e⟩ <;> rw [e] <;> simp
  case dbyte b =>
    rcases decodeByte_frame b s with ⟨t, ht, ho, e⟩ | ⟨t, ht, ho, e⟩ <;> rw [e, ht] <;> simp [ho]
  all_goals simp

end Sys2Proof.Machine
end

