-- ==== Sys2Proof/Laws/Run.lean ====
section
/-! SUPPORT. Laws/Run.lean: a run over presented commands is the fold of their effects. -/

namespace Sys2Proof.Machine

/-! ## What the host has still to present plays no part in a command -/

/-- The state with something else for the host to present. -/
def withHost (h : List HostAction) (s : State) : State := { s with host := h }

theorem withHost_self (s : State) : withHost s.host s = s := rfl

theorem pushBits_withHost (h : List HostAction) (bits : List Bool) (s : State) :
    pushBits bits (withHost h s) = withHost h (pushBits bits s) := by
  induction bits generalizing s with
  | nil => rfl
  | cons b bits ih =>
    have hb : pushBit (withHost h s) b = withHost h (pushBit s b) := by
      simp only [pushBit]; rw [apply_ite (withHost h)]; rfl
    show pushBits bits (pushBit (withHost h s) b) = _
    rw [hb, ih]
    rfl

/-- The loop of DBYTE sees CURSOR, DCNT, DTOTAL, ROOT and NODE alone (43_decoder.md R198): an update of something else can
be made before it or after it. -/
theorem walk_map (f : State → State) (hd : ∀ s, (f s).dcnt = s.dcnt) (ht : ∀ s, (f s).dtotal = s.dtotal)
    (hc : ∀ s, (f s).cursor = s.cursor) (hn : ∀ s, (f s).node = s.node)
    (hk : ∀ k s, takeChild k (f s) = f (takeChild k s)) (bits : List Bool) (s : State) :
    walk bits (f s) =
      match walk bits s with
      | .done t => .done (f t)
      | .absent t => .absent (f t) := by
  induction bits generalizing s with
  | nil => rfl
  | cons b bits ih =>
    by_cases he : s.dcnt = s.dtotal
    · rw [walk_done _ he, walk_done _ (by rw [hd, ht, he])]
    · have he' : (f s).dcnt ≠ (f s).dtotal := by rw [hd, ht]; exact he
      have hr : readNode (f s).cursor (f s) = readNode s.cursor s := by rw [hc, readNode_congr (hn s)]
      cases hc : (readNode s.cursor s).child b with
      | none =>
        have h1 : walk (b :: bits) s = .absent s := by simp [walk, he, hc]
        have h2 : walk (b :: bits) (f s) = .absent (f s) := by simp [walk, he', hr, hc]
        rw [h1, h2]
      | some k => rw [walk_cons he hc, walk_cons he' (hr ▸ hc), hk, ih]

theorem decodeByte_withHost (h : List HostAction) (b : Byte) (s : State) :
    decodeByte b (withHost h s) = withHost h (decodeByte b s) := by
  unfold decodeByte
  rw [walk_map (withHost h) (fun _ => rfl) (fun _ => rfl) (fun _ => rfl) (fun _ => rfl)
    (fun k s => by rw [takeChild_eq, takeChild_eq]; rfl)]
  cases walk (bitsOf b) s with
  | absent t => rfl
  | done t => simp only [finishByte]; rw [apply_ite (withHost h)]; rfl

theorem action_withHost (h : List HostAction) (i : Instr) (s : State) :
    action i (withHost h s) = withHost h (action i s) := by
  cases i with
  | nop => rfl
  | rst => rfl
  | rdreg r =>
    have hr : regword r (withHost h s) = regword r s := rfl
    simp only [action, hr]
    rfl
  | hclr => rfl
  | hacc b => simp only [action, countSymbol]; rw [apply_ite (withHost h)]; rfl
  | hld k v =>
    have hc : countOperand (withHost h s).config v = countOperand s.config v := rfl
    simp only [action, loadCount, hc]
    cases countOperand s.config v <;> rfl
  | hrd k => rfl
  | cclr b => rfl
  | capp b bit => simp only [action, appendCodeBit]; rw [apply_ite (withHost h)]; rfl
  | nld n v l r =>
    simp only [action, loadNode]
    cases nodeIndexOperand n with
    | none => rfl
    | some k =>
      cases childOperand l with
      | none => rfl
      | some left => cases childOperand r <;> rfl
  | ebegin => rfl
  | esym b =>
    have hr : readCode b (withHost h s) = readCode b s := rfl
    simp only [action, encodeSymbol, hr, pushBits_withHost]
    rw [apply_ite (withHost h)]
    rfl
  | eend =>
    have hf : flushPartial (withHost h s) = withHost h (flushPartial s) := by
      simp only [flushPartial]; rw [apply_ite (withHost h)]; rfl
    simp only [action, closeEncode, hf]
    rfl
  | dbegin root total =>
    have hc : countOperand (withHost h s).config total = countOperand s.config total := rfl
    simp only [action, openDecode, hc]
    cases nodeIndexOperand root with
    | none => rfl
    | some k =>
      cases countOperand s.config total with
      | none => rfl
      | some n => dsimp only; rw [apply_ite (withHost h)]; rfl
  | dbyte b => exact decodeByte_withHost h b s

theorem effect_withHost (h : List HostAction) (i : Instr) (s : State) :
    effect i (withHost h s) = withHost h (effect i s) := by
  unfold effect whenLegal
  rw [action_withHost, apply_ite (withHost h), apply_ite (withHost h)]
  rfl

/-! ## Runs -/

/-- What a sequence of commands leads to. -/
def effects (cmds : List Instr) (s : State) : State := cmds.foldl (fun t i => effect i t) s

@[simp] theorem effects_nil (s : State) : effects [] s = s := rfl

@[simp] theorem effects_cons (i : Instr) (cmds : List Instr) (s : State) :
    effects (i :: cmds) s = effects cmds (effect i s) := rfl

theorem effects_append (cmds cmds' : List Instr) (s : State) :
    effects (cmds ++ cmds') s = effects cmds' (effects cmds s) := by
  simp [effects, List.foldl_append]

theorem effects_withHost (h : List HostAction) (cmds : List Instr) (s : State) :
    effects cmds (withHost h s) = withHost h (effects cmds s) := by
  induction cmds generalizing s with
  | nil => rfl
  | cons i cmds ih => rw [effects_cons, effects_cons, effect_withHost, ih]

/-- Decoding the word of a command gives the command. -/
theorem decode_word (i : Instr) : decode (encode i) = .ok i := by
  rw [decode_of_fields (encode_opField i) (encode_reservedZero i), operandsOf_encode]

/-- One step takes the first command presented. -/
theorem step_present (i : Instr) (cmds : List Instr) (s : State) :
    step (withHost (present (i :: cmds)) s) = .next (withHost (present cmds) (effect i s)) := by
  have hp : (withHost (present (i :: cmds)) s).host = .command (encode i) :: present cmds := rfl
  unfold step
  rw [hp]
  simp only [decode_word]
  rw [exec_eq]
  exact congrArg _ (effect_withHost (present cmds) i s)

/-- A run of one step more. -/
theorem run_succ (M : Host.Core) {k : Nat} {s s' : M.State} (h : M.step s = .next s') :
    M.run (k + 1) s = M.run k s' := by
  simp [Host.Core.run, h]

theorem run_present (cmds : List Instr) (s : State) :
    Host.Core.run Sys2Proof.core cmds.length (withHost (present cmds) s) =
      .next (withHost [] (effects cmds s)) := by
  induction cmds generalizing s with
  | nil => rfl
  | cons i cmds ih =>
    exact (run_succ Sys2Proof.core (s := withHost (present (i :: cmds)) s)
      (s' := withHost (present cmds) (effect i s)) (step_present i cmds s)).trans (ih (effect i s))

/-- The block takes any commands presented, and comes to the state their effects lead to. -/
theorem runsTo_iff {cmds : List Instr} {s t : State} : runsTo cmds s t ↔ t = withHost [] (effects cmds s) := by
  have h := run_present cmds s
  unfold runsTo
  rw [show ({ s with host := present cmds } : State) = withHost (present cmds) s from rfl, h]
  constructor
  · intro e; injection e with e; exact e.symm
  · intro e; rw [e]

/-! ## The words the host reads -/

/-- The state with another response trace. -/
def withRsp (r : List Word) (s : State) : State := { s with rsp := r }

/-- DBYTE neither reads nor writes RSP. -/
theorem effect_dbyte_withRsp (r : List Word) (b : Byte) (s : State) :
    effect (.dbyte b) (withRsp r s) = withRsp r (effect (.dbyte b) s) := by
  have hd : decodeByte b (withRsp r s) = withRsp r (decodeByte b s) := by
    unfold decodeByte
    rw [walk_map (withRsp r) (fun _ => rfl) (fun _ => rfl) (fun _ => rfl) (fun _ => rfl)
      (fun k s => by rw [takeChild_eq, takeChild_eq]; rfl)]
    cases walk (bitsOf b) s with
    | absent t => rfl
    | done t => simp only [finishByte]; rw [apply_ite (withRsp r)]; rfl
  unfold effect whenLegal
  simp only [action]
  rw [hd, apply_ite (withRsp r), apply_ite (withRsp r)]
  rfl

theorem effects_dbyte_withRsp (r : List Word) (packed : List Byte) (s : State) :
    effects (packed.map .dbyte) (withRsp r s) = withRsp r (effects (packed.map .dbyte) s) := by
  induction packed generalizing s with
  | nil => rfl
  | cons b packed ih => rw [List.map_cons, effects_cons, effects_cons, effect_dbyte_withRsp, ih]

@[simp] theorem registerWords_nil (s : State) : registerWords [] s = [] := rfl

theorem registerWords_cons (i : Instr) (cmds : List Instr) (s : State) :
    registerWords (i :: cmds) s =
      ((rdregOperand i).map fun r => regword r s).toList ++ registerWords cmds (effect i s) := by
  simp only [registerWords, exec_eq]

/-- One word for each RDREG. -/
theorem registerWords_length (cmds : List Instr) (s : State) :
    (registerWords cmds s).length = (cmds.filterMap rdregOperand).length := by
  induction cmds generalizing s with
  | nil => rfl
  | cons i cmds ih =>
    rw [registerWords_cons, List.length_append, ih, List.filterMap_cons]
    cases rdregOperand i with
    | none => exact Nat.zero_add _
    | some r => exact Nat.add_comm 1 _

/-- NOP and RDREG only read, and RDREG responds (44_system.md R211, R214). -/
theorem effect_watch {i : Instr} (h : isWatch i = true) (s : State) :
    effect i s = withRsp (s.rsp ++ ((rdregOperand i).map fun r => regword r s).toList) s := by
  cases i <;> cases h
  · rw [show ((rdregOperand .nop).map fun r => regword r s).toList = [] from rfl, List.append_nil]
    rcases effect_cases .nop s with ⟨-, e⟩ | ⟨-, -, e⟩ | ⟨hl, hf, -⟩
    · exact e
    · exact e
    · exfalso
      cases hp : s.phase <;> simp_all [Instr.opcode, legalIn]
  · exact effect_legal rfl

/-- NOP and RDREG between the bytes of a decode session change nothing but RSP, which gains the words of the RDREG
(43_decoder.md R190). -/
theorem effects_watched_bytes (inner : List Instr) (h : ∀ i ∈ inner, isWatch i = true ∨ ∃ b, i = .dbyte b)
    (s : State) :
    effects inner s =
      withRsp (s.rsp ++ registerWords inner s) (effects ((inner.filterMap dbyteOperand).map .dbyte) s) := by
  induction inner generalizing s with
  | nil => simp [withRsp]
  | cons i inner ih =>
    have ih := ih fun j hj => h j (List.mem_cons_of_mem _ hj)
    rcases h i List.mem_cons_self with hw | ⟨b, rfl⟩
    · have hn : dbyteOperand i = none := by cases i <;> first | rfl | cases hw
      rw [effects_cons, registerWords_cons, effect_watch hw, ih, List.filterMap_cons_none hn, effects_dbyte_withRsp,
        ← List.append_assoc]
      rfl
    · have hb : (effect (.dbyte b) s).rsp = s.rsp := by
        have hw := effect_dbyte_withRsp s.rsp b s
        rw [show withRsp s.rsp s = s from rfl] at hw
        rw [hw]
        rfl
      rw [effects_cons, registerWords_cons, ih, hb]
      rfl

/-! ## Sequences of one kind of command -/

/-- CAPP for each bit of a word (41_tables.md R150). -/
theorem effects_capp (b : Byte) (bits : List Bool) {s : State} (hp : s.phase = .idle)
    (hl : (readCode b s).length + bits.length ≤ Config.codeMax) :
    effects (bits.map (.capp b)) s = if bits = [] then s else writeCode b (readCode b s ++ bits) s := by
  induction bits generalizing s with
  | nil => simp
  | cons bit bits ih =>
    have he : effect (.capp b bit) s = writeCode b (readCode b s ++ [bit]) s := by
      simp only [List.length_cons] at hl
      rw [effect_legal (by simp [Instr.opcode, legalIn, hp])]
      simp only [action, appendCodeBit]
      rw [if_neg (by omega)]
    rw [List.map_cons, effects_cons, he, ih (by simpa using hp) (by simp at hl ⊢; omega)]
    simp only [readCode_writeCode_same, reduceCtorEq, if_false]
    split
    · rename_i h; subst h; rfl
    · simp [writeCode, symSet, Vector.set_set]

/-- LOADCODE replaces one code word (41_tables.md R150). -/
theorem effects_loadCode (b : Byte) (bits : List Bool) {s : State} (hp : s.phase = .idle)
    (hl : bits.length ≤ Config.codeMax) : effects (loadCode b bits) s = writeCode b bits s := by
  have he : effect (.cclr b) s = writeCode b [] s := effect_legal (by simp [Instr.opcode, legalIn, hp])
  rw [loadCode, effects_cons, he, effects_capp b bits (by simpa using hp) (by simpa using hl)]
  split
  · rename_i h; rw [h]
  · rw [readCode_writeCode_same, List.nil_append]
    simp [writeCode, symSet, Vector.set_set]

/-- HACC for each byte of an input adds the number of occurrences of each byte (40_histogram.md R130). -/
theorem effects_hacc (input : List Byte) {s : State} (hp : s.phase = .idle)
    (hl : ∀ b, (readFreq b s).toNat + input.count b ≤ s.config.maxCount) :
    ∃ f, effects (input.map .hacc) s = { s with freq := f } ∧
      ∀ b, (symGet f b).toNat = (readFreq b s).toNat + input.count b := by
  have hm := s.config.maxCount_lt_word
  induction input generalizing s with
  | nil => exact ⟨s.freq, rfl, fun b => rfl⟩
  | cons a input ih =>
    have ha := hl a
    rw [List.count_cons_self] at ha
    have he : effect (.hacc a) s = writeFreq a (readFreq a s + 1) s := by
      rw [effect_legal (by simp [Instr.opcode, legalIn, hp])]
      simp only [action, countSymbol]
      rw [if_neg (by omega)]
    have hr : ∀ b, (readFreq b (writeFreq a (readFreq a s + 1) s)).toNat + input.count b =
        (readFreq b s).toNat + (a :: input).count b := by
      intro b
      by_cases hb : b = a
      · subst hb
        rw [readFreq_writeFreq_same, List.count_cons_self, BitVec.toNat_add]
        simp
        omega
      · rw [readFreq_writeFreq_ne _ _ hb, List.count_cons_of_ne (fun h => hb h.symm)]
    obtain ⟨f, hf, hc⟩ := ih (s := writeFreq a (readFreq a s + 1) s) (by simpa using hp)
      (fun b => by rw [hr]; exact hl b) hm
    refine ⟨f, ?_, fun b => by rw [hc, hr]⟩
    rw [List.map_cons, effects_cons, he, hf]
    rfl

/-- HIST counts the occurrences of each byte value (40_histogram.md R130). -/
theorem effects_hist (input : List Byte) {s : State} (hp : s.phase = .idle)
    (hl : ∀ b, input.count b ≤ s.config.maxCount) :
    ∃ f, effects (hist input) s = { s with freq := f } ∧ ∀ b, (symGet f b).toNat = input.count b := by
  have he : effect .hclr s = clearFreq s := effect_legal (by simp [Instr.opcode, legalIn, hp])
  obtain ⟨f, hf, hc⟩ := effects_hacc input (s := clearFreq s) (by simpa using hp) (by simpa using hl)
  refine ⟨f, ?_, fun b => by simpa using hc b⟩
  rw [hist, effects_cons, he, hf]
  rfl

/-- ESYM for each byte of an input inside a session, with NOP and RDREG between them: RSP gains the words of the RDREG
(42_encoder.md R170). -/
theorem effects_watched_symbols (inner : List Instr) (h : ∀ i ∈ inner, isWatch i = true ∨ ∃ b, i = .esym b)
    (s : State) (bits : List Bool)
    (hl : (bits ++ codeBits s (inner.filterMap esymOperand)).length ≤ s.config.maxCount) :
    effects inner (inSession s bits) =
      inSession (withRsp (s.rsp ++ registerWords inner (inSession s bits)) s)
        (bits ++ codeBits s (inner.filterMap esymOperand)) := by
  induction inner generalizing s bits with
  | nil => simp [codeBits, withRsp]
  | cons i inner ih =>
    have ih := ih fun j hj => h j (List.mem_cons_of_mem _ hj)
    rcases h i List.mem_cons_self with hw | ⟨b, rfl⟩
    · have hn : esymOperand i = none := by cases i <;> first | rfl | cases hw
      rw [List.filterMap_cons_none hn] at hl ⊢
      rw [effects_cons, registerWords_cons, effect_watch hw, ← List.append_assoc]
      exact ih (withRsp (s.rsp ++ ((rdregOperand i).map fun r => regword r (inSession s bits)).toList) s) bits hl
    · have hf : (Instr.esym b :: inner).filterMap esymOperand = b :: inner.filterMap esymOperand := rfl
      have hc : codeBits s (b :: inner.filterMap esymOperand) =
          readCode b s ++ codeBits s (inner.filterMap esymOperand) := rfl
      rw [hf, hc, ← List.append_assoc] at hl ⊢
      have he : effect (.esym b) (inSession s bits) = inSession s (bits ++ readCode b s) := by
        rw [effect_legal rfl]
        refine encodeSymbol_inSession s bits b ?_
        rw [List.length_append, List.length_append] at hl
        omega
      rw [effects_cons, registerWords_cons, he, ih s (bits ++ readCode b s) hl]
      rfl

/-! ## Sessions -/

theorem effect_ebegin {s : State} (hp : s.phase = .idle) : effect .ebegin s = inSession s [] :=
  (effect_legal (by simp [Instr.opcode, legalIn, hp])).trans (openEncode_eq s)

/-- A whole encode session with NOP and RDREG inside it (42_encoder.md R170). -/
theorem effects_encodeSession (inner : List Instr) (h : ∀ i ∈ inner, isWatch i = true ∨ ∃ b, i = .esym b)
    {s : State} (hp : s.phase = .idle)
    (hl : (codeBits s (inner.filterMap esymOperand)).length ≤ s.config.maxCount) :
    effects (.ebegin :: (inner ++ [.eend])) s =
      { s with
        out := s.out ++ encodedStream s.config s.freq (codeBits s (inner.filterMap esymOperand))
        rsp := s.rsp ++ registerWords (.ebegin :: inner) s ++
          [BitVec.ofNat 32 (codeBits s (inner.filterMap esymOperand)).length]
        acc := 0, nacc := 0
        bitcnt := BitVec.ofNat 32 (codeBits s (inner.filterMap esymOperand)).length } := by
  rw [registerWords_cons, effects_cons, effect_ebegin hp, effects_append,
    effects_watched_symbols inner h s [] (by simpa using hl), effects_cons, effects_nil, effect_legal rfl]
  simp only [action, closeEncode_inSession]
  simp [withRsp, hp, rdregOperand]

/-- The state right after a DBEGIN with a bit count above 0 (43_decoder.md R191). -/
def openedDecode (k : NodeIdx) (total : Word) (s : State) : State :=
  { s with root := k, cursor := k, dtotal := total, dcnt := 0, dbytes := 0, ddone := false, phase := .dec }

/-- DBEGIN with operands in range (43_decoder.md R191). -/
theorem effect_dbegin {s : State} {root : BitVec 16} {k : NodeIdx} {total : Word} (hp : s.phase = .idle)
    (hk : root.toNat = k.val) (ht : total.toNat ≤ s.config.maxCount) :
    effect (.dbegin root total) s =
      if total = 0 then
        { s with root := k, cursor := k, dtotal := total, dcnt := 0, dbytes := 0, ddone := true }
      else openedDecode k total s := by
  rw [effect_legal (by simp [Instr.opcode, legalIn, hp])]
  simp only [action, openDecode, nodeIndexOperand_eq_some.mpr hk, countOperand_eq_some.mpr ⟨ht, rfl⟩]
  rfl

/-- A whole decode session with NOP and RDREG inside it, when all its bits find their children (43_decoder.md R190). -/
theorem effects_decodeSession (inner : List Instr) (h : ∀ i ∈ inner, isWatch i = true ∨ ∃ b, i = .dbyte b)
    {s : State} {root : BitVec 16} {k n : NodeIdx} {total : Word} {vs : List Byte} (hp : s.phase = .idle)
    (hk : root.toNat = k.val) (ht : total.toNat ≤ s.config.maxCount) (h0 : total ≠ 0)
    (hlen : (inner.filterMap dbyteOperand).length = packedLength total.toNat)
    (hw : treeWalk { s with root := k } (((inner.filterMap dbyteOperand).flatMap bitsOf).take total.toNat) k =
      some (n, vs)) :
    effects (.dbegin root total :: inner) s =
      { s with
        root := k, cursor := n, dtotal := total, dcnt := total
        dbytes := BitVec.ofNat 32 (inner.filterMap dbyteOperand).length
        out := s.out ++ vs, rsp := s.rsp ++ registerWords (.dbegin root total :: inner) s, ddone := true } := by
  have hpos : total.toNat ≠ 0 := fun e => h0 (BitVec.eq_of_toNat_eq e)
  have hb : sessionBits (inner.filterMap dbyteOperand) (openedDecode k total s) =
      ((inner.filterMap dbyteOperand).flatMap bitsOf).take total.toNat := by
    simp [sessionBits, openedDecode]
  have hd := decodeBytes_of_some (inner.filterMap dbyteOperand) (s := openedDecode k total s) (n := n) (vs := vs) rfl
    (by show 0 < total.toNat; omega) hlen
    (by rw [hb]; exact (treeWalk_congr (s := openedDecode k total s) (t := { s with root := k }) rfl rfl _ _).trans hw)
  rw [registerWords_cons, effects_cons, effect_dbegin hp hk ht, if_neg h0, effects_watched_bytes inner h, effects, hd]
  simp [withRsp, hp, openedDecode, rdregOperand]

/-- ESYM for each byte of an input inside a session (42_encoder.md R170). -/
theorem effects_esym (input : List Byte) (s : State) (bits : List Bool)
    (hl : (bits ++ codeBits s input).length ≤ s.config.maxCount) :
    effects (input.map .esym) (inSession s bits) = inSession s (bits ++ codeBits s input) := by
  induction input generalizing bits with
  | nil => simp [codeBits]
  | cons b input ih =>
    rw [show codeBits s (b :: input) = readCode b s ++ codeBits s input from rfl, ← List.append_assoc] at hl ⊢
    have he : effect (.esym b) (inSession s bits) = inSession s (bits ++ readCode b s) := by
      rw [effect_legal rfl]
      refine encodeSymbol_inSession s bits b ?_
      rw [List.length_append, List.length_append] at hl
      omega
    rw [List.map_cons, effects_cons, he, ih _ hl]

/-- ENCODE of an input (30_encoding.md R111, 42_encoder.md R170). -/
theorem effects_encode (input : List Byte) {s : State} (hp : s.phase = .idle)
    (hl : (codeBits s input).length ≤ s.config.maxCount) :
    effects (encodeSession input) s =
      { s with
        out := s.out ++ encodedStream s.config s.freq (codeBits s input)
        rsp := s.rsp ++ [BitVec.ofNat 32 (codeBits s input).length]
        acc := 0, nacc := 0
        bitcnt := BitVec.ofNat 32 (codeBits s input).length } := by
  rw [encodeSession, effects_cons, effect_ebegin hp, effects_append, effects_esym input s [] (by simpa using hl),
    List.nil_append, effects_cons, effects_nil, effect_legal rfl]
  simp only [action, closeEncode_inSession]
  rw [hp]

/-- DECODE of the packed section of a bit string whose bits all find their children (30_encoding.md R111,
43_decoder.md R190). -/
theorem effects_decode {bits : List Bool} {vs : List Byte} {s : State} {root : BitVec 16} {k n : NodeIdx}
    (hp : s.phase = .idle) (hk : root.toNat = k.val) (hl : bits.length ≤ s.config.maxCount)
    (hw : treeWalk { s with root := k } bits k = some (n, vs)) :
    effects (decodeSession root (BitVec.ofNat 32 bits.length) (packBits bits)) s =
      { s with
        root := k, cursor := n, dtotal := BitVec.ofNat 32 bits.length, dcnt := BitVec.ofNat 32 bits.length
        dbytes := BitVec.ofNat 32 (packBits bits).length, out := s.out ++ vs, ddone := true } := by
  have hm := s.config.maxCount_lt_word
  have ht : (BitVec.ofNat 32 bits.length).toNat = bits.length := by rw [BitVec.toNat_ofNat]; omega
  rw [decodeSession, effects_cons, effect_dbegin hp hk (by rw [ht]; exact hl)]
  by_cases hb : bits = []
  · subst hb
    simp only [treeWalk, Option.some.injEq, Prod.mk.injEq] at hw
    obtain ⟨rfl, rfl⟩ := hw
    simp [packBits, packedLength]
  · have hz : BitVec.ofNat 32 bits.length ≠ 0 := by
      intro e
      rw [e] at ht
      exact hb (List.length_eq_zero_iff.mp ht.symm)
    have hpos := List.length_pos_iff.mpr hb
    have hs : sessionBits (packBits bits) (openedDecode k (BitVec.ofNat 32 bits.length) s) = bits := by
      simp only [sessionBits, openedDecode, ht]
      exact bits_of_packBits bits
    rw [if_neg hz, effects, decodeBytes_of_some (packBits bits) (n := n) (vs := vs) rfl]
    · simp [openedDecode, hp]
    · show 0 < (BitVec.ofNat 32 bits.length).toNat
      omega
    · show _ = packedLength (BitVec.ofNat 32 bits.length).toNat
      rw [ht, packBits_length]
    · rw [hs]
      exact (treeWalk_congr (s := openedDecode k (BitVec.ofNat 32 bits.length) s) (t := { s with root := k }) rfl rfl _
        _).trans hw

end Sys2Proof.Machine
end

