-- ==== Sys2Proof/Laws/HostContract.lean ====
section
/-! SUPPORT. Laws/HostContract.lean: the heap, the tree builder, the code generator and the loading of the tables, apart
from any one run. -/

namespace Sys2Proof.Machine

/-! ## The 256 byte values -/

theorem allSymbols_nodup : allSymbols.Nodup := by
  refine List.Nodup.map_on ?_ List.nodup_range
  intro a ha b hb h
  have h := congrArg BitVec.toNat h
  rw [List.mem_range] at ha hb
  rw [BitVec.toNat_ofNat, BitVec.toNat_ofNat, Nat.mod_eq_of_lt ha, Nat.mod_eq_of_lt hb] at h
  exact h

theorem mem_allSymbols (b : Byte) : b ∈ allSymbols :=
  List.mem_map.mpr ⟨b.toNat, List.mem_range.mpr b.isLt, by simp⟩

theorem allSymbols_length : allSymbols.length = 256 := by
  rw [allSymbols, List.length_map, List.length_range]

theorem sum_indicator (a : Byte) (l : List Byte) : (l.map fun b => if b = a then 1 else 0).sum = l.count a := by
  induction l with
  | nil => rfl
  | cons c l ih =>
    rw [List.map_cons, List.sum_cons, ih, List.count_cons]
    simp [Nat.add_comm]

/-- Counting every byte value once counts every byte once (49_host_contract.md R258). -/
theorem sum_count (input : List Byte) : (allSymbols.map fun b => input.count b).sum = input.length := by
  induction input with
  | nil => simp
  | cons a input ih =>
    have h : (allSymbols.map fun b => (a :: input).count b) =
        allSymbols.map fun b => input.count b + if b = a then 1 else 0 := by
      apply List.map_congr_left
      intro b _
      by_cases hb : b = a
      · subst hb; rw [List.count_cons_self, if_pos rfl]
      · rw [List.count_cons_of_ne (fun h => hb h.symm), if_neg hb]; rfl
    rw [h, List.sum_map_add, ih, sum_indicator, List.count_eq_one_of_mem allSymbols_nodup (mem_allSymbols a)]
    rfl

/-! ## The heap -/

/-- Taking out one of the nodes of frequency `m` (49_host_contract.md R232, R234). -/
theorem takeNode_perm {m : Nat} {k : Nat} {h : Heap} (hk : k < h.countP fun t => t.frequency = m) :
    ∃ t rest, takeNode m k h = some (t, rest) ∧ t.frequency = m ∧ h.Perm (t :: rest) := by
  induction h generalizing k with
  | nil => simp at hk
  | cons a h ih =>
    unfold takeNode
    by_cases ha : a.frequency = m
    · rw [if_pos ha]
      cases k with
      | zero => exact ⟨a, h, rfl, ha, List.Perm.refl _⟩
      | succ k =>
        obtain ⟨t, rest, he, hm, hp⟩ := ih (k := k) (by simpa [List.countP_cons, ha] using hk)
        exact ⟨t, a :: rest, by simp [he], hm, (hp.cons a).trans (.swap t a rest)⟩
    · rw [if_neg ha]
      obtain ⟨t, rest, he, hm, hp⟩ := ih (k := k) (by simpa [List.countP_cons, ha] using hk)
      exact ⟨t, a :: rest, by simp [he], hm, (hp.cons a).trans (.swap t a rest)⟩

/-- `extractMin` on a heap that is not empty takes out a node of least frequency (49_host_contract.md R232). -/
theorem extractMin_perm (tie : TieBreak) {h : Heap} (hne : h ≠ []) :
    ∃ t rest, extractMin tie h = some (t, rest) ∧ h.Perm (t :: rest) ∧ ∀ u ∈ h, t.frequency ≤ u.frequency := by
  unfold extractMin
  cases hm : (h.map Tree.frequency).min? with
  | none => simp [List.min?_eq_none_iff] at hm; exact absurd hm hne
  | some m =>
    obtain ⟨hmem, hle⟩ := List.min?_eq_some_iff.mp hm
    obtain ⟨u, hu, rfl⟩ := List.mem_map.mp hmem
    have hc : 0 < h.countP fun t => t.frequency = u.frequency :=
      List.countP_pos_iff.mpr ⟨u, hu, by simp⟩
    obtain ⟨t, rest, he, hf, hp⟩ := takeNode_perm (Nat.mod_lt (tie h) hc)
    exact ⟨t, rest, he, hp, fun v hv => hf ▸ hle _ (List.mem_map.mpr ⟨v, hv, rfl⟩)⟩

/-- One pass of the builder replaces two nodes by their parent (49_host_contract.md R235). -/
theorem mergePass_perm (tie : TieBreak) {h : Heap} (h2 : 2 ≤ h.length) (hc : h.length ≤ heapCapacity) :
    ∃ l r rest, mergePass tie h = some (.inner (l.frequency + r.frequency) l r :: rest) ∧ h.Perm (l :: r :: rest) := by
  obtain ⟨l, h₁, he, hp, -⟩ := extractMin_perm tie (h := h) (by rintro rfl; simp at h2)
  have hl := hp.length_eq
  rw [List.length_cons] at hl
  obtain ⟨r, h₂, he', hp', -⟩ := extractMin_perm tie (h := h₁) (by rintro rfl; simp at hl; omega)
  have hl' := hp'.length_eq
  rw [List.length_cons] at hl'
  have hlt : h₂.length < heapCapacity := by omega
  refine ⟨l, r, h₂, ?_, hp.trans (hp'.cons l)⟩
  simp [mergePass, he, he', heapInsert, hlt]

/-- The byte values of the leaves of a tree, left to right. -/
def Tree.symbols (t : Tree) : List Byte := t.codes.map Prod.fst

theorem Tree.symbols_inner (f : Nat) (l r : Tree) : (Tree.inner f l r).symbols = l.symbols ++ r.symbols := by
  simp [Tree.symbols, Tree.codes, Function.comp_def]

theorem Tree.size_eq (t : Tree) : t.size + 1 = 2 * t.symbols.length := by
  induction t with
  | leaf v f => rfl
  | inner f l r hl hr => rw [Tree.symbols_inner, List.length_append, Tree.size]; omega

/-- The builder's loop keeps the leaves and the sum of the frequencies (49_host_contract.md R235, R236, R237). -/
theorem mergeLoop_some (tie : TieBreak) (n : Nat) {h : Heap} (hl : h.length = n + 1) (hc : h.length ≤ heapCapacity) :
    ∃ t, mergeLoop tie n h = some t ∧ (h.flatMap Tree.symbols).Perm t.symbols ∧
      t.frequency = (h.map Tree.frequency).sum := by
  induction n generalizing h with
  | zero =>
    obtain ⟨t, rfl⟩ := List.length_eq_one_iff.mp hl
    exact ⟨t, rfl, by simp, by simp⟩
  | succ n ih =>
    obtain ⟨l, r, rest, he, hp⟩ := mergePass_perm tie (h := h) (by omega) hc
    have hlen := hp.length_eq
    simp only [List.length_cons] at hlen
    obtain ⟨t, ht, hs, hf⟩ := ih (h := .inner (l.frequency + r.frequency) l r :: rest)
      (by simp only [List.length_cons]; omega) (by simp only [List.length_cons]; omega)
    refine ⟨t, by rw [mergeLoop, he]; exact ht, ?_, ?_⟩
    · refine List.Perm.trans ?_ hs
      have := hp.flatMap_right Tree.symbols
      simpa [Tree.symbols_inner] using this
    · rw [hf, (hp.map Tree.frequency).sum_eq]
      simp [Tree.frequency, Nat.add_assoc]

/-- The builder makes a tree with one leaf for each byte value (49_host_contract.md R235, R236, R237). -/
theorem buildTree_some (tie : TieBreak) (freq : Byte → Nat) :
    ∃ t, buildTree tie freq = some t ∧ t.symbols.Perm allSymbols ∧ t.frequency = (allSymbols.map freq).sum := by
  have hl : (allSymbols.map fun b => Tree.leaf b (freq b)).length = 256 := by
    rw [List.length_map, allSymbols_length]
  obtain ⟨t, ht, hs, hf⟩ := mergeLoop_some tie 255 hl (by rw [hl]; exact Nat.le_refl _)
  have hm : ∀ l : List Byte, (l.map fun b => Tree.leaf b (freq b)).flatMap Tree.symbols = l := by
    intro l
    induction l with
    | nil => rfl
    | cons a l ih => rw [List.map_cons, List.flatMap_cons, ih]; rfl
  rw [hm] at hs
  refine ⟨t, ht, hs.symm, hf.trans ?_⟩
  rw [List.map_map]
  rfl

/-! ## Code words -/

theorem Tree.codes_ne_nil (t : Tree) : t.codes ≠ [] := by
  induction t with
  | leaf v f => simp [Tree.codes]
  | inner f l r hl hr => simp [Tree.codes, hl]

/-- A code word has fewer bits than the tree has leaves (49_host_contract.md R241). -/
theorem Tree.length_lt {t : Tree} {b : Byte} {c : List Bool} (h : (b, c) ∈ t.codes) : c.length < t.codes.length := by
  induction t generalizing c with
  | leaf v f => simp [Tree.codes] at h; simp [Tree.codes, h]
  | inner f l r hl hr =>
    have h1 := List.length_pos_iff.mpr l.codes_ne_nil
    have h2 := List.length_pos_iff.mpr r.codes_ne_nil
    simp only [Tree.codes, List.mem_append, List.mem_map, Prod.mk.injEq, Prod.exists] at h
    simp only [Tree.codes, List.length_append, List.length_map]
    rcases h with ⟨_, d, hd, rfl, rfl⟩ | ⟨_, d, hd, rfl, rfl⟩
    · have := hl hd; simp only [List.length_cons]; omega
    · have := hr hd; simp only [List.length_cons]; omega

/-- No code word of an inner node is empty (49_host_contract.md R241). -/
theorem Tree.codes_inner_ne_nil {f : Nat} {l r : Tree} {b : Byte} {c : List Bool}
    (h : (b, c) ∈ (Tree.inner f l r).codes) : c ≠ [] := by
  rintro rfl
  simp [Tree.codes] at h

/-- No code word begins another (49_host_contract.md R242). -/
theorem Tree.codes_prefix_free {t : Tree} {b b' : Byte} {c c' : List Bool} (h : (b, c) ∈ t.codes)
    (h' : (b', c') ∈ t.codes) (hp : c <+: c') : b = b' ∧ c = c' := by
  induction t generalizing c c' with
  | leaf v f => simp [Tree.codes] at h h'; simp [h, h']
  | inner f l r hl hr =>
    simp only [Tree.codes, List.mem_append, List.mem_map, Prod.mk.injEq, Prod.exists] at h h'
    rcases h with ⟨_, d, hd, rfl, rfl⟩ | ⟨_, d, hd, rfl, rfl⟩ <;>
      rcases h' with ⟨_, d', hd', rfl, rfl⟩ | ⟨_, d', hd', rfl, rfl⟩
    · obtain ⟨rfl, rfl⟩ := hl hd hd' (List.cons_prefix_cons.mp hp).2
      exact ⟨rfl, rfl⟩
    · exact absurd (List.cons_prefix_cons.mp hp).1 (by simp)
    · exact absurd (List.cons_prefix_cons.mp hp).1 (by simp)
    · obtain ⟨rfl, rfl⟩ := hr hd hd' (List.cons_prefix_cons.mp hp).2
      exact ⟨rfl, rfl⟩

theorem mem_of_lookup {l : List (Byte × List Bool)} {b : Byte} {c : List Bool} (h : l.lookup b = some c) : (b, c) ∈ l := by
  induction l with
  | nil => cases h
  | cons p l ih =>
    obtain ⟨b', c'⟩ := p
    rw [List.lookup_cons] at h
    split at h
    · rename_i he
      cases h
      rw [eq_of_beq he]
      exact List.mem_cons_self
    · exact List.mem_cons_of_mem _ (ih h)

/-- A symbol that has a leaf has the code word of one (49_host_contract.md R239). -/
theorem Tree.mem_codeOf {t : Tree} {b : Byte} (h : b ∈ t.symbols) : (b, t.codeOf b) ∈ t.codes := by
  unfold Tree.codeOf
  cases hl : t.codes.lookup b with
  | some c => exact mem_of_lookup hl
  | none =>
    exfalso
    obtain ⟨⟨b', c⟩, hp, rfl⟩ := List.mem_map.mp h
    rw [List.lookup_eq_none_iff] at hl
    exact absurd (hl _ hp) (by simp)

/-! ## Loading the code table -/

/-- LOADCODE for each of some symbols (49_host_contract.md R245). -/
theorem effects_loadCodes (codeOf : Byte → List Bool) (hl : ∀ b, (codeOf b).length ≤ Config.codeMax) (l : List Byte)
    {s : State} (hp : s.phase = .idle) :
    ∃ c, effects (l.flatMap fun b => loadCode b (codeOf b)) s = { s with code := c } ∧
      ∀ b, symGet c b = if b ∈ l then codeOf b else readCode b s := by
  induction l generalizing s with
  | nil => exact ⟨s.code, rfl, fun b => rfl⟩
  | cons a l ih =>
    obtain ⟨c, hc, hr⟩ := ih (s := writeCode a (codeOf a) s) (by simpa using hp)
    refine ⟨c, ?_, fun b => ?_⟩
    · rw [List.flatMap_cons, effects_append, effects_loadCode a _ hp (hl a), hc]
      rfl
    · rw [hr]
      by_cases hb : b ∈ l
      · simp [hb]
      · by_cases ha : b = a
        · subst ha; simp [hb]
        · simp [hb, ha, readCode_writeCode_ne]

/-! ## Loading the tree -/

/-- NODE holds a tree at the indices from `n` on (49_host_contract.md R244). -/
def Represents (s : State) : Tree → Nat → Prop
  | .leaf v _, n => ∃ k : NodeIdx, k.val = n ∧ readNode k s = { value := v, left := none, right := none }
  | .inner f l r, n =>
    Represents s l n ∧ Represents s r (n + l.size) ∧
      ∃ k lk rk : NodeIdx, k.val = (Tree.inner f l r).rootIndex n ∧ lk.val = l.rootIndex n ∧
        rk.val = r.rootIndex (n + l.size) ∧ readNode k s = { value := 0, left := some lk, right := some rk }

theorem Tree.size_pos (t : Tree) : 0 < t.size := by cases t <;> simp [Tree.size]

theorem Represents.congr {s u : State} {t : Tree} {n : Nat} (h : Represents s t n)
    (hr : ∀ m : NodeIdx, n ≤ m.val → m.val < n + t.size → readNode m u = readNode m s) : Represents u t n := by
  induction t generalizing n with
  | leaf v f =>
    obtain ⟨k, hk, he⟩ := h
    exact ⟨k, hk, by rw [hr k (by omega) (by simp only [Tree.size]; omega), he]⟩
  | inner f l r hl hr' =>
    obtain ⟨h1, h2, k, lk, rk, hk, hlk, hrk, he⟩ := h
    simp only [Tree.size] at hr
    refine ⟨hl h1 fun m a b => hr m a (by omega), hr' h2 fun m a b => hr m (by omega) (by omega),
      k, lk, rk, hk, hlk, hrk, ?_⟩
    simp only [Tree.rootIndex, Tree.size] at hk
    rw [hr k (by omega) (by omega), he]

/-- NLD with operands in range (41_tables.md R153). -/
theorem effect_nld {s : State} (hp : s.phase = .idle) {n l r : BitVec 16} {v : Byte} {k : NodeIdx} {cl cr : Child}
    (hk : n.toNat = k.val) (hl : childOperand l = some cl) (hr : childOperand r = some cr) :
    effect (.nld n v l r) s = writeNode k { value := v, left := cl, right := cr } s := by
  rw [effect_legal (by simp [Instr.opcode, legalIn, hp])]
  simp only [action, loadNode, nodeIndexOperand_eq_some.mpr hk, hl, hr]

theorem ofNat_toNat {n : Nat} (h : n < 511) : (BitVec.ofNat 16 n).toNat = n := by
  rw [BitVec.toNat_ofNat]; omega

/-- Loading a tree changes NODE at its own indices alone, and NODE then holds the tree (49_host_contract.md R244). -/
theorem effects_load (t : Tree) {n : Nat} (hn : n + t.size ≤ 511) {s : State} (hp : s.phase = .idle) :
    ∃ nd, effects (t.load n) s = { s with node := nd } ∧ Represents { s with node := nd } t n ∧
      ∀ m : NodeIdx, m.val < n ∨ n + t.size ≤ m.val → readNode m { s with node := nd } = readNode m s := by
  induction t generalizing n s with
  | leaf v f =>
    simp only [Tree.size] at hn ⊢
    have hk : (BitVec.ofNat 16 n).toNat = (⟨n, by omega⟩ : NodeIdx).val := ofNat_toNat (by omega)
    have he := effect_nld hp (v := v) hk (childOperand_eq_nil.mpr (by decide : nilOperand.toNat = 511))
      (childOperand_eq_nil.mpr (by decide : nilOperand.toNat = 511))
    refine ⟨(writeNode ⟨n, by omega⟩ { value := v, left := none, right := none } s).node, ?_,
      ⟨⟨n, by omega⟩, rfl, readNode_writeNode_same _ _ s⟩, fun m hm => readNode_writeNode_ne _ s ?_⟩
    · exact he
    intro e
    rw [e] at hm
    simp only at hm
    omega
  | inner f l r hl hr =>
    have hlp := l.size_pos
    have hrp := r.size_pos
    simp only [Tree.size] at hn ⊢
    obtain ⟨nd, he, hrep, hout⟩ := hl (n := n) (s := s) (by omega) hp
    obtain ⟨nd', he', hrep', hout'⟩ := hr (n := n + l.size) (s := { s with node := nd }) (by omega) hp
    obtain ⟨k, hk⟩ : ∃ k : NodeIdx, k.val = n + (l.size + r.size) := ⟨⟨_, by omega⟩, rfl⟩
    obtain ⟨lk, hlk⟩ : ∃ k : NodeIdx, k.val = l.rootIndex n :=
      ⟨⟨l.rootIndex n, by simp only [Tree.rootIndex]; omega⟩, rfl⟩
    obtain ⟨rk, hrk⟩ : ∃ k : NodeIdx, k.val = r.rootIndex (n + l.size) :=
      ⟨⟨r.rootIndex (n + l.size), by simp only [Tree.rootIndex]; omega⟩, rfl⟩
    have hroot : (Tree.inner f l r).rootIndex n = k.val := by simp only [Tree.rootIndex, Tree.size]; omega
    have hnld := effect_nld (s := { s with node := nd' }) hp (v := 0)
      (show (BitVec.ofNat 16 ((Tree.inner f l r).rootIndex n)).toNat = k.val by rw [hroot, ofNat_toNat k.isLt])
      (childOperand_eq_index.mpr (show (BitVec.ofNat 16 (l.rootIndex n)).toNat = lk.val by
        rw [← hlk, ofNat_toNat lk.isLt]))
      (childOperand_eq_index.mpr (show (BitVec.ofNat 16 (r.rootIndex (n + l.size))).toNat = rk.val by
        rw [← hrk, ofNat_toNat rk.isLt]))
    have hne : ∀ m : NodeIdx, m.val ≠ k.val → readNode m (writeNode k
        { value := 0, left := some lk, right := some rk } { s with node := nd' }) =
          readNode m { s with node := nd' } := fun m hm => readNode_writeNode_ne _ _ fun e => hm (by rw [e])
    refine ⟨(writeNode k { value := 0, left := some lk, right := some rk } { s with node := nd' }).node, ?_,
      ⟨?_, ?_, k, lk, rk, hroot.symm, hlk, hrk, readNode_writeNode_same _ _ { s with node := nd' }⟩, fun m hm => ?_⟩
    · rw [Tree.load, effects_append, effects_append, he, he']
      exact hnld
    · exact hrep.congr fun m h1 h2 => (hne m (by omega)).trans (hout' m (.inl h2))
    · exact hrep'.congr fun m h1 h2 => hne m (by omega)
    · exact (hne m (by omega)).trans ((hout' m (by omega)).trans (hout m (by omega)))

/-- When NODE holds a tree, walking from its root along a code word ends on the leaf of the symbol (41_tables.md R154). -/
theorem Represents.pathTo {s : State} {t : Tree} {n : Nat} (h : Represents s t n) {k : NodeIdx}
    (hk : k.val = t.rootIndex n) {b : Byte} {c : List Bool} (hc : (b, c) ∈ t.codes) (hne : c ≠ []) :
    pathTo s b c k := by
  induction t generalizing n k c with
  | leaf v f => simp [Tree.codes] at hc; exact absurd hc.2 hne
  | inner f l r hl hr =>
    obtain ⟨h1, h2, k', lk, rk, hk', hlk, hrk, he⟩ := h
    have hkk : k = k' := Fin.ext (hk.trans hk'.symm)
    subst hkk
    have sub : ∀ (u : Tree) (m : Nat) (j : NodeIdx) (bit : Bool) (d : List Bool), Represents s u m →
        j.val = u.rootIndex m → (readNode k s).child bit = some j → (b, d) ∈ u.codes →
        (d ≠ [] → Machine.pathTo s b d j) → Machine.pathTo s b (bit :: d) k := by
      intro u m j bit d hu hj hch hd ih
      cases u with
      | leaf v f =>
        simp only [Tree.codes, List.mem_singleton, Prod.mk.injEq] at hd
        obtain ⟨rfl, rfl⟩ := hd
        obtain ⟨j', hj', hje⟩ := hu
        have : j = j' := Fin.ext (by simp only [Tree.rootIndex, Tree.size] at hj; omega)
        subst this
        simp [Machine.pathTo, hch, hje, Node.isLeaf]
      | inner f' l' r' =>
        have hdn := Tree.codes_inner_ne_nil hd
        obtain ⟨-, -, j', lj, rj, hj', -, -, hje⟩ := hu
        have : j = j' := Fin.ext (hj.trans hj'.symm)
        subst this
        cases d with
        | nil => exact absurd rfl hdn
        | cons x d =>
          have := ih hdn
          simp only [Machine.pathTo, hch]
          exact ⟨by simp [hje, Node.isLeaf], this⟩
    simp only [Tree.codes, List.mem_append, List.mem_map, Prod.mk.injEq, Prod.exists] at hc
    rcases hc with ⟨_, d, hd, rfl, rfl⟩ | ⟨_, d, hd, rfl, rfl⟩
    · exact sub l n lk false d h1 hlk (by simp [he, Node.child]) hd fun hdn => hl h1 hlk hd hdn
    · exact sub r _ rk true d h2 hrk (by simp [he, Node.child]) hd fun hdn => hr h2 hrk hd hdn

/-! ## Tables that agree -/

/-- A path is decided by NODE alone. -/
theorem pathTo_congr {s u : State} (hn : s.node = u.node) {b : Byte} {bits : List Bool} {n : NodeIdx}
    (h : pathTo s b bits n) : pathTo u b bits n := by
  induction bits generalizing n with
  | nil => exact h
  | cons bit bits ih =>
    simp only [pathTo, readNode_congr hn] at h ⊢
    split at h
    · exact absurd h (by simp)
    · cases bits with
      | nil => exact h
      | cons x bits => exact ⟨h.1, ih h.2⟩

/-- Walking along the path to a leaf emits the leaf's value and returns to the root (41_tables.md R154). -/
theorem treeWalk_of_pathTo {s u : State} (hn : s.node = u.node) {b : Byte} {bits : List Bool} {n : NodeIdx}
    (h : pathTo s b bits n) : treeWalk u bits n = some (u.root, [b]) := by
  induction bits generalizing n with
  | nil => exact absurd h (by simp [pathTo])
  | cons bit bits ih =>
    simp only [pathTo, readNode_congr hn] at h
    cases hk : (readNode n u).child bit with
    | none => rw [hk] at h; exact absurd h (by simp)
    | some k =>
      simp only [treeWalk, hk] at h ⊢
      cases bits with
      | nil => simp [h.1, h.2, treeWalk]
      | cons x bits => simp only [h.1, Bool.false_eq_true, if_false]; exact ih h.2

/-- Walking along the code bits of an input emits the input (41_tables.md R154). -/
theorem treeWalk_codeBits {s u : State} (hn : s.node = u.node) {k : NodeIdx} (hk : u.root = k) {input : List Byte}
    (h : tablesAgree s k input) : treeWalk u (codeBits s input) k = some (k, input) := by
  subst hk
  induction input with
  | nil => rfl
  | cons b input ih =>
    have hb := treeWalk_of_pathTo hn (h b List.mem_cons_self)
    have hr := ih fun c hc => h c (List.mem_cons_of_mem _ hc)
    rw [show codeBits s (b :: input) = readCode b s ++ codeBits s input from rfl, treeWalk_append, hb, Option.bind_some,
      hr]
    rfl

/-! ## Reading a stream back -/

/-- A host reads the trailer of a stream (20_memory.md R70). -/
theorem trailerOf_encodedStream (c : Config) (f : Vector Word 256) {bits : List Bool} (h : bits.length ≤ c.maxCount) :
    trailerOf c (encodedStream c f bits) = BitVec.ofNat 32 bits.length := by
  have hm := c.maxCount_lt
  have hw := c.maxCount_lt_word
  have hl : (encodedStream c f bits).length - c.intSize.bytes =
      (f.toList.flatMap (intBytes c) ++ packBits bits).length := by
    rw [encodedStream, List.length_append (bs := intBytes c (BitVec.ofNat 32 bits.length)), intBytes_length, Nat.add_sub_cancel]
  rw [trailerOf, hl, encodedStream, List.drop_left, bytesInt_intBytes]
  rw [BitVec.toNat_ofNat]
  omega

/-- A host reads the packed section of a stream (49_host_contract.md R251 step 6). -/
theorem packedOf_encodedStream (c : Config) (f : Vector Word 256) {bits : List Bool} (h : bits.length ≤ c.maxCount) :
    packedOf c (encodedStream c f bits) = packBits bits := by
  have hw := c.maxCount_lt_word
  have hl : (encodedStream c f bits).length - c.intSize.bytes =
      (f.toList.flatMap (intBytes c) ++ packBits bits).length := by
    rw [encodedStream, List.length_append (bs := intBytes c (BitVec.ofNat 32 bits.length)), intBytes_length, Nat.add_sub_cancel]
  rw [packedOf, trailerOf_encodedStream c f h, hl, encodedStream, List.take_left, List.drop_left' (header_length c f),
    List.take_of_length_le]
  rw [packBits_length, BitVec.toNat_ofNat, Nat.mod_eq_of_lt (by omega)]

/-- A host reads the frequency table of a stream (49_host_contract.md R251 step 2). -/
theorem headerOf_encodedStream (c : Config) (f : Vector Word 256) (bits : List Bool) {b : Byte}
    (h : (symGet f b).toNat < 2 ^ c.width) : headerOf c (encodedStream c f bits) b = (symGet f b).toNat := by
  have hH := header_length c f
  have hb : b.toNat + 1 ≤ 256 := b.isLt
  have hm := Nat.mul_le_mul_right c.intSize.bytes hb
  rw [Nat.add_mul, Nat.one_mul] at hm
  rw [headerOf, encodedStream, List.append_assoc, List.drop_append_of_le_length (by omega),
    List.take_append_of_le_length (by rw [List.length_drop]; omega), header_piece, bytesInt_intBytes h]

/-- The header of a cleared histogram (49_host_contract.md R259). -/
theorem header_zero (c : Config) :
    (Vector.replicate 256 (0 : Word)).toList.flatMap (intBytes c) = List.replicate (256 * c.intSize.bytes) 0 := by
  have h0 : intBytes c 0 = List.replicate c.intSize.bytes 0 := by rcases c with ⟨⟨⟩, ⟨⟩⟩ <;> decide
  have h : ∀ n, (List.replicate n (0 : Word)).flatMap (intBytes c) = List.replicate (n * c.intSize.bytes) 0 := by
    intro n
    induction n with
    | zero => rw [Nat.zero_mul]; rfl
    | succ n ih =>
      rw [List.replicate_succ, List.flatMap_cons, ih, h0, List.replicate_append_replicate, Nat.succ_mul, Nat.add_comm]
  rw [Vector.toList_replicate, h]

/-- The 256 words of HRD 0 to HRD 255 (49_host_contract.md R250 step 2). -/
theorem effects_hrd (l : List Byte) {s : State} (hp : s.phase = .idle) :
    effects (l.map .hrd) s = withRsp (s.rsp ++ l.map fun b => readFreq b s) s := by
  induction l generalizing s with
  | nil => simp [withRsp]
  | cons b l ih =>
    have he : effect (.hrd b) s = respond (readFreq b s) s := effect_legal (by simp [Instr.opcode, legalIn, hp])
    rw [List.map_cons, effects_cons, he, ih (by simpa using hp)]
    simp [withRsp, respond, readFreq]

/-- HLD for each of some byte values writes their counts (49_host_contract.md R250). -/
theorem effects_hld (freq : Byte → Word) (l : List Byte) {s : State} (hp : s.phase = .idle)
    (hl : ∀ b, (freq b).toNat ≤ s.config.maxCount) :
    ∃ f, effects (l.map fun b => .hld b (freq b)) s = { s with freq := f } ∧
      ∀ b, symGet f b = if b ∈ l then freq b else readFreq b s := by
  induction l generalizing s with
  | nil => exact ⟨s.freq, rfl, fun b => rfl⟩
  | cons a l ih =>
    have he : effect (.hld a (freq a)) s = writeFreq a (freq a) s := by
      rw [effect_legal (by simp [Instr.opcode, legalIn, hp])]
      simp only [action, loadCount, countOperand_eq_some.mpr ⟨hl a, rfl⟩]
    obtain ⟨f, hf, hr⟩ := ih (s := writeFreq a (freq a) s) (by simpa using hp) (by simpa using hl)
    refine ⟨f, ?_, fun b => ?_⟩
    · rw [List.map_cons, effects_cons, he, hf]
      rfl
    · rw [hr]
      by_cases hb : b ∈ l
      · simp [hb]
      · by_cases ha : b = a
        · subst ha; simp [hb]
        · simp [hb, ha, readFreq_writeFreq_ne]

/-- The 256 HLD commands load a whole frequency table (49_host_contract.md R250). -/
theorem effects_loadingCommands (freq : Byte → Word) {s : State} (hp : s.phase = .idle)
    (hl : ∀ b, (freq b).toNat ≤ s.config.maxCount) :
    ∃ f, effects (loadingCommands freq) s = { s with freq := f } ∧ ∀ b, symGet f b = freq b := by
  obtain ⟨f, hf, hr⟩ := effects_hld freq allSymbols hp hl
  exact ⟨f, hf, fun b => by rw [hr, if_pos (mem_allSymbols b)]⟩

/-- The counts a host collects are those of FREQ (49_host_contract.md R250 step 2). -/
theorem countsOf_allSymbols (g : Byte → Word) : countsOf (allSymbols.map g) = fun b => (g b).toNat := by
  funext b
  have hb : b.toNat < 256 := b.isLt
  have he : (allSymbols.map g).getD b.toNat 0 = g b := by
    rw [List.getD_eq_getElem?_getD, List.getElem?_map, allSymbols, List.getElem?_map, List.getElem?_range hb]
    simp
  rw [countsOf, he]

end Sys2Proof.Machine
end

