-- ==== Sys2Proof/Laws/Invariant.lean ====
section
/-! SUPPORT. Laws/Invariant.lean: what each operation of the block does to the invariant of Safety.lean. -/

namespace Sys2Proof.Machine

variable {s : State}

/-! ## Reset -/

theorem readFreq_afterReset_lt (c : Config) (n : Nat) (b : Byte) :
    (readFreq b (State.afterReset c n)).toNat < 2 ^ c.width := by
  simp [readFreq, symGet, State.afterReset, freqContents, Config.truncate_lt]

theorem readCode_afterReset_le (c : Config) (n : Nat) (b : Byte) :
    (readCode b (State.afterReset c n)).length ≤ Config.codeMax := by
  simp [readCode, symGet, State.afterReset, codeContents, Config.codeMax]

theorem Inv.afterReset (c : Config) (n : Nat) (h : List HostAction) :
    Inv { State.afterReset c n with host := h } where
  bitcnt_legal := Nat.zero_le _
  dtotal_legal := Nat.zero_le _
  freq_fits := readFreq_afterReset_lt c n
  code_fits := readCode_afterReset_le c n
  enc_nacc := fun h => by cases h
  enc_acc := fun h => by cases h
  dcnt_le := Nat.le_refl _
  dec_open := fun h => by cases h
  dec_closed := fun h => by cases h
  dec_corrupt := fun h => by cases h
  dec_cursor := fun h => by cases h
  fault_recorded := ⟨fun h => (by cases h), fun h => absurd rfl h⟩
  fphase_session := fun h => by cases h
  no_fault_clear := fun _ => ⟨rfl, rfl, rfl⟩

/-- What the host has still to present plays no part in the invariant. -/
theorem Inv.withHost (hi : Inv s) (h : List HostAction) : Inv { s with host := h } :=
  ⟨hi.1, hi.2, hi.3, hi.4, hi.5, hi.6, hi.7, hi.8, hi.9, hi.10, hi.11, hi.12, hi.13, hi.14⟩

/-- Outside phase FAULT nothing is recorded. -/
theorem Inv.fc_none (hi : Inv s) (h : s.phase ≠ .fault) : s.fc = none := by
  by_contra hc
  exact h (hi.fault_recorded.mpr hc)

/-! ## Faults and the return from them -/

/-- Raising any fault but Corruption. -/
theorem Inv.raiseFault (hi : Inv s) (h : s.phase ≠ .fault) {c : Cause} (hc : c ≠ .corruption) (op : Byte) (v : Word) :
    Inv (raiseFault c op v s) where
  bitcnt_legal := hi.bitcnt_legal
  dtotal_legal := hi.dtotal_legal
  freq_fits := hi.freq_fits
  code_fits := hi.code_fits
  enc_nacc := fun h => by cases h
  enc_acc := fun h => by cases h
  dcnt_le := hi.dcnt_le
  dec_open := fun h => by cases h
  dec_closed := hi.dec_closed
  dec_corrupt := fun h => absurd (Option.some.inj h) hc
  dec_cursor := fun h => by cases h
  fault_recorded := ⟨fun _ h => (by cases h), fun _ => rfl⟩
  fphase_session := h
  no_fault_clear := fun h => by cases h

theorem Inv.resetControl (hi : Inv s) : Inv (resetControl s) where
  bitcnt_legal := Nat.zero_le _
  dtotal_legal := Nat.zero_le _
  freq_fits := hi.freq_fits
  code_fits := hi.code_fits
  enc_nacc := fun h => by cases h
  enc_acc := fun h => by cases h
  dcnt_le := Nat.le_refl _
  dec_open := fun h => by cases h
  dec_closed := fun h => by cases h
  dec_corrupt := fun h => by cases h
  dec_cursor := fun h => by cases h
  fault_recorded := ⟨fun h => (by cases h), fun h => absurd rfl h⟩
  fphase_session := fun h => by cases h
  no_fault_clear := fun _ => ⟨rfl, rfl, rfl⟩

theorem Inv.respond (hi : Inv s) (v : Word) : Inv (respond v s) :=
  ⟨hi.1, hi.2, hi.3, hi.4, hi.5, hi.6, hi.7, hi.8, hi.9, hi.10, hi.11, hi.12, hi.13, hi.14⟩

/-! ## Tables -/

/-- Any FREQ whose entries fit. -/
theorem Inv.withFreq (hi : Inv s) {f : Vector Word 256} (hf : ∀ b, (symGet f b).toNat < 2 ^ s.config.width) :
    Inv { s with freq := f } :=
  ⟨hi.1, hi.2, hf, hi.4, hi.5, hi.6, hi.7, hi.8, hi.9, hi.10, hi.11, hi.12, hi.13, hi.14⟩

/-- Any CODE whose entries fit. -/
theorem Inv.withCode (hi : Inv s) {c : Vector (List Bool) 256} (hc : ∀ b, (symGet c b).length ≤ Config.codeMax) :
    Inv { s with code := c } :=
  ⟨hi.1, hi.2, hi.3, hc, hi.5, hi.6, hi.7, hi.8, hi.9, hi.10, hi.11, hi.12, hi.13, hi.14⟩

/-- Any NODE outside a decode session. -/
theorem Inv.withNode (hi : Inv s) (h : s.phase = .idle) (n : Vector Node 511) : Inv { s with node := n } :=
  ⟨hi.1, hi.2, hi.3, hi.4, hi.5, hi.6, hi.7, hi.8, hi.9, hi.10, fun hd => (by rw [show s.phase = _ from hd] at h; cases h),
    hi.12, hi.13, hi.14⟩

theorem Inv.writeFreq (hi : Inv s) {b : Byte} {v : Word} (hv : v.toNat ≤ s.config.maxCount) : Inv (writeFreq b v s) := by
  have hm := s.config.maxCount_lt
  refine hi.withFreq fun b' => ?_
  rw [symGet_symSet]
  split
  · omega
  · exact hi.freq_fits b'

theorem Inv.writeCode (hi : Inv s) {b : Byte} {bits : List Bool} (hb : bits.length ≤ Config.codeMax) :
    Inv (writeCode b bits s) := by
  refine hi.withCode fun b' => ?_
  rw [symGet_symSet]
  split
  · exact hb
  · exact hi.code_fits b'

theorem Inv.clearFreq (hi : Inv s) : Inv (clearFreq s) :=
  hi.withFreq fun b => by simp

theorem Inv.countSymbol (hi : Inv s) (h : s.phase = .idle) (b : Byte) : Inv (countSymbol b s) := by
  have hm := s.config.maxCount_lt_word
  unfold Machine.countSymbol
  split
  · exact hi.raiseFault (by simp [h]) (by simp) _ _
  · refine hi.writeFreq ?_
    rw [BitVec.toNat_add]
    simp
    omega

theorem Inv.loadCount (hi : Inv s) (h : s.phase = .idle) (i : Byte) (v : Word) : Inv (loadCount i v s) := by
  unfold Machine.loadCount
  split
  · exact hi.raiseFault (by simp [h]) (by simp) _ _
  · rename_i n hn
    obtain ⟨hv, rfl⟩ := countOperand_eq_some.mp hn
    exact hi.writeFreq hv

theorem Inv.appendCodeBit (hi : Inv s) (h : s.phase = .idle) (b : Byte) (bit : Bool) :
    Inv (appendCodeBit b bit s) := by
  unfold Machine.appendCodeBit
  split
  · exact hi.raiseFault (by simp [h]) (by simp) _ _
  · exact hi.writeCode (by simp; omega)

theorem Inv.loadNode (hi : Inv s) (h : s.phase = .idle) (n : BitVec 16) (v : Byte) (l r : BitVec 16) :
    Inv (loadNode n v l r s) := by
  have hf : s.phase ≠ .fault := by simp [h]
  unfold Machine.loadNode
  split
  · exact hi.raiseFault hf (by simp) _ _
  · split
    · exact hi.raiseFault hf (by simp) _ _
    · split
      · exact hi.raiseFault hf (by simp) _ _
      · exact hi.withNode h _

/-! ## Encoder -/

/-- An open encode session: what the accumulator holds, and how many bits there are (10_state.md R54). -/
theorem Inv.encode (hi : Inv s) (h : s.phase = .idle ∨ s.phase = .enc) {t : State} {r : List Bool} {out : List Byte}
    {n : Word} (hr : Holds t r) (hn : r.length = n.toNat % 8) (hl : n.toNat ≤ s.config.maxCount)
    (ht : t = { s with acc := t.acc, nacc := t.nacc, bitcnt := n, out := out, phase := .enc }) : Inv t := by
  have hlen := hr.length
  have hlt := hr.acc_lt
  have hc : s.fc = none := hi.fc_none (by rcases h with h | h <;> simp [h])
  rw [ht]
  exact {
    bitcnt_legal := hl
    dtotal_legal := hi.dtotal_legal
    freq_fits := hi.freq_fits
    code_fits := hi.code_fits
    enc_nacc := fun _ => hlen.trans hn
    enc_acc := fun _ => hlt
    dcnt_le := hi.dcnt_le
    dec_open := fun h => by cases h
    dec_closed := hi.dec_closed
    dec_corrupt := hi.dec_corrupt
    dec_cursor := fun h => by cases h
    fault_recorded := ⟨fun h => (by cases h), fun h => absurd hc h⟩
    fphase_session := hi.fphase_session
    no_fault_clear := hi.no_fault_clear }

theorem Inv.openEncode (hi : Inv s) (h : s.phase = .idle) : Inv (openEncode s) :=
  hi.encode (.inl h) (r := []) ⟨rfl, rfl⟩ rfl (Nat.zero_le _) rfl

theorem Inv.encodeSymbol (hi : Inv s) (h : s.phase = .enc) (b : Byte) : Inv (encodeSymbol b s) := by
  have hm := s.config.maxCount_lt_word
  by_cases hb : s.config.maxCount < s.bitcnt.toNat + (readCode b s).length
  · unfold Machine.encodeSymbol
    rw [if_pos hb]
    exact hi.raiseFault (by simp [h]) (by simp) _ _
  · have hp := holds_pendingBits (hi.enc_acc h)
    have hl : (leftover (pendingBits s ++ readCode b s)).length < 8 := by rw [leftover_length]; omega
    have hn : (s.bitcnt + BitVec.ofNat 32 (readCode b s).length).toNat = s.bitcnt.toNat + (readCode b s).length := by
      rw [BitVec.toNat_add, BitVec.toNat_ofNat]; omega
    rw [encodeSymbol_of_holds hp b (by omega)]
    refine hi.encode (.inr h) (r := leftover (pendingBits s ++ readCode b s))
      ⟨(holds_setPending s hl).length, (holds_setPending s hl).value⟩ ?_ (by rw [hn]; omega) ?_
      (out := s.out ++ fullBytes (pendingBits s ++ readCode b s))
      (n := s.bitcnt + BitVec.ofNat 32 (readCode b s).length)
    · have := hp.length
      have := hi.enc_nacc h
      rw [leftover_length, List.length_append, hn]
      omega
    · simp [setPending, emitAll, h]

theorem Inv.closeEncode (hi : Inv s) (h : s.phase = .enc) : Inv (closeEncode s) := by
  have hc : s.fc = none := hi.fc_none (by simp [h])
  unfold Machine.closeEncode
  rw [flushPartial_of_holds (holds_pendingBits (hi.enc_acc h))]
  exact {
    bitcnt_legal := hi.bitcnt_legal
    dtotal_legal := hi.dtotal_legal
    freq_fits := hi.freq_fits
    code_fits := hi.code_fits
    enc_nacc := fun h => by cases h
    enc_acc := fun h => by cases h
    dcnt_le := hi.dcnt_le
    dec_open := fun h => by cases h
    dec_closed := hi.dec_closed
    dec_corrupt := hi.dec_corrupt
    dec_cursor := fun h => by cases h
    fault_recorded := ⟨fun h => (by cases h), fun h => absurd hc h⟩
    fphase_session := hi.fphase_session
    no_fault_clear := hi.no_fault_clear }

/-! ## Decoder -/

theorem Inv.openDecode (hi : Inv s) (h : s.phase = .idle) (root : BitVec 16) (total : Word) :
    Inv (openDecode root total s) := by
  have hf : s.phase ≠ .fault := by simp [h]
  have hc : s.fc = none := hi.fc_none hf
  unfold Machine.openDecode
  split
  · exact hi.raiseFault hf (by simp) _ _
  · rename_i k hk
    split
    · exact hi.raiseFault hf (by simp) _ _
    · rename_i n hn
      obtain ⟨hl, rfl⟩ := countOperand_eq_some.mp hn
      dsimp only
      split
      · rename_i h0
        exact {
          bitcnt_legal := hi.bitcnt_legal
          dtotal_legal := hl
          freq_fits := hi.freq_fits
          code_fits := hi.code_fits
          enc_nacc := fun he => by rw [show s.phase = _ from he] at h; cases h
          enc_acc := fun he => by rw [show s.phase = _ from he] at h; cases h
          dcnt_le := Nat.zero_le _
          dec_open := fun he => by rw [show s.phase = _ from he] at h; cases h
          dec_closed := fun _ => by
            subst h0
            exact ⟨rfl, show (0 : Word).toNat = packedLength (0 : Word).toNat by decide⟩
          dec_corrupt := fun he => by rw [show s.fc = _ from he] at hc; cases hc
          dec_cursor := fun _ => .inl rfl
          fault_recorded := hi.fault_recorded
          fphase_session := hi.fphase_session
          no_fault_clear := hi.no_fault_clear }
      · rename_i h0
        exact {
          bitcnt_legal := hi.bitcnt_legal
          dtotal_legal := hl
          freq_fits := hi.freq_fits
          code_fits := hi.code_fits
          enc_nacc := fun he => by cases he
          enc_acc := fun he => by cases he
          dcnt_le := Nat.zero_le _
          dec_open := fun _ => ⟨Nat.pos_of_ne_zero fun e => h0 (BitVec.eq_of_toNat_eq e), rfl⟩
          dec_closed := fun he => by cases he
          dec_corrupt := fun he => by rw [show s.fc = _ from he] at hc; cases hc
          dec_cursor := fun _ => .inl rfl
          fault_recorded := ⟨fun he => (by cases he), fun he => absurd hc he⟩
          fphase_session := hi.fphase_session
          no_fault_clear := hi.no_fault_clear }

/-- The bits a byte contributes, as a count. -/
theorem dcnt_add {s : State} {c : Nat} (h : s.dcnt.toNat + c ≤ s.dtotal.toNat) :
    (s.dcnt + BitVec.ofNat 32 c).toNat = s.dcnt.toNat + c := by
  have := s.dtotal.isLt
  rw [BitVec.toNat_add, BitVec.toNat_ofNat]
  omega

theorem Inv.decodeByte (hi : Inv s) (h : s.phase = .dec) (b : Byte) : Inv (decodeByte b s) := by
  have hc : s.fc = none := hi.fc_none (by simp [h])
  obtain ⟨hlt, h8⟩ := hi.dec_open h
  have hd := s.dtotal.isLt
  have hw := wantedBits_length b s
  have hdone : s.ddone = false := by
    cases hx : s.ddone with
    | false => rfl
    | true => rw [(hi.dec_closed hx).1] at hlt; omega
  rcases decodeByte_cases b (Nat.le_of_lt hlt) with ⟨n, vs, ht, he⟩ | ⟨good, bad, rest, n, vs, hb, -, -, he⟩
  · have hcnt := dcnt_add (s := s) (c := (wantedBits b s).length) (by omega)
    have hby : (s.dbytes + 1).toNat = s.dbytes.toNat + 1 := by rw [BitVec.toNat_add]; simp; omega
    have hend := treeWalk_end _ (hi.dec_cursor h) ht
    rw [he, finishByte_walkedTo]
    by_cases heq : s.dcnt + BitVec.ofNat 32 (wantedBits b s).length = s.dtotal
    · rw [if_pos heq, if_pos heq, heq]
      rw [heq] at hcnt
      exact {
        bitcnt_legal := hi.bitcnt_legal
        dtotal_legal := hi.dtotal_legal
        freq_fits := hi.freq_fits
        code_fits := hi.code_fits
        enc_nacc := fun he => by cases he
        enc_acc := fun he => by cases he
        dcnt_le := Nat.le_refl _
        dec_open := fun he => by cases he
        dec_closed := fun _ => ⟨rfl, by show (s.dbytes + 1).toNat = packedLength s.dtotal.toNat; rw [hby, packedLength]; omega⟩
        dec_corrupt := fun he => by rw [show s.fc = _ from he] at hc; cases hc
        dec_cursor := fun he => by cases he
        fault_recorded := ⟨fun he => (by cases he), fun he => absurd hc he⟩
        fphase_session := hi.fphase_session
        no_fault_clear := hi.no_fault_clear }
    · rw [if_neg heq, if_neg heq]
      have hlt' : (s.dcnt + BitVec.ofNat 32 (wantedBits b s).length).toNat < s.dtotal.toNat :=
        dcnt_lt (by omega) heq
      exact {
        bitcnt_legal := hi.bitcnt_legal
        dtotal_legal := hi.dtotal_legal
        freq_fits := hi.freq_fits
        code_fits := hi.code_fits
        enc_nacc := fun he => by rw [show s.phase = _ from he] at h; cases h
        enc_acc := fun he => by rw [show s.phase = _ from he] at h; cases h
        dcnt_le := Nat.le_of_lt hlt'
        dec_open := fun _ => ⟨hlt', by show _ = 8 * (s.dbytes + 1).toNat; rw [hby]; show (s.dcnt + _).toNat = _; omega⟩
        dec_closed := fun he => by rw [show s.ddone = _ from he] at hdone; cases hdone
        dec_corrupt := fun he => by rw [show s.fc = _ from he] at hc; cases hc
        dec_cursor := fun _ => hend
        fault_recorded := hi.fault_recorded
        fphase_session := hi.fphase_session
        no_fault_clear := hi.no_fault_clear }
  · have hgl : good.length < (wantedBits b s).length := by rw [hb]; simp
    have hcnt := dcnt_add (s := s) (c := good.length) (by omega)
    rw [he]
    exact {
      bitcnt_legal := hi.bitcnt_legal
      dtotal_legal := hi.dtotal_legal
      freq_fits := hi.freq_fits
      code_fits := hi.code_fits
      enc_nacc := fun he => by cases he
      enc_acc := fun he => by cases he
      dcnt_le := by show (s.dcnt + _).toNat ≤ s.dtotal.toNat; omega
      dec_open := fun he => by cases he
      dec_closed := fun he => by rw [show s.ddone = _ from he] at hdone; cases hdone
      dec_corrupt := fun _ => by
        show 8 * s.dbytes.toNat ≤ (s.dcnt + _).toNat ∧ (s.dcnt + _).toNat ≤ 8 * s.dbytes.toNat + 7 ∧
          (s.dcnt + _).toNat < s.dtotal.toNat
        omega
      dec_cursor := fun he => by cases he
      fault_recorded := ⟨fun _ he => (by cases he), fun _ => rfl⟩
      fphase_session := by show s.phase ≠ _; simp [h]
      no_fault_clear := fun he => by cases he }

/-- A command in a phase it is legal in. -/
theorem Inv.action (hi : Inv s) (i : Instr) (h : legalIn i.opcode s.phase = true) : Inv (action i s) := by
  cases i <;> simp only [Instr.opcode, legalIn, beq_iff_eq] at h
  case nop => exact hi
  case rst => exact hi.resetControl
  case rdreg r => exact hi.respond _
  case hclr => exact hi.clearFreq
  case hacc b => exact hi.countSymbol h b
  case hld k v => exact hi.loadCount h k v
  case hrd k => exact hi.respond _
  case cclr b => exact hi.writeCode (Nat.zero_le _)
  case capp b bit => exact hi.appendCodeBit h b bit
  case nld n v l r => exact hi.loadNode h n v l r
  case ebegin => exact hi.openEncode h
  case esym b => exact hi.encodeSymbol h b
  case eend => exact hi.closeEncode h
  case dbegin root total => exact hi.openDecode h root total
  case dbyte b => exact hi.decodeByte h b

end Sys2Proof.Machine
end

