-- ==== Sys2Proof/Laws/PerInstr.lean ====
section
/-! SUPPORT. Laws/PerInstr.lean: statements for all instructions, made constructor by constructor (LAWS.json). -/

namespace Sys2Proof.Laws.EncodedWordMatchesTable

/-- The word of a command matches the mask and match of its own row of 30_encoding.md R94. -/
def Statement (i : Instr) : Prop := encode i &&& i.opcode.format.mask = i.opcode.pattern

theorem of_fields (i : Instr) : Statement i :=
  beq_iff_eq.mp ((selects_iff i.opcode (encode i)).mpr ⟨encode_opField i, encode_reservedZero i⟩)

theorem nop : Statement .nop := of_fields _
theorem rst : Statement .rst := of_fields _
theorem rdreg (r : Byte) : Statement (.rdreg r) := of_fields _
theorem hclr : Statement .hclr := of_fields _
theorem hacc (b : Byte) : Statement (.hacc b) := of_fields _
theorem hld (i : Byte) (v : Word) : Statement (.hld i v) := of_fields _
theorem hrd (i : Byte) : Statement (.hrd i) := of_fields _
theorem cclr (b : Byte) : Statement (.cclr b) := of_fields _
theorem capp (b : Byte) (bit : Bool) : Statement (.capp b bit) := of_fields _
theorem nld (n : BitVec 16) (v : Byte) (l r : BitVec 16) : Statement (.nld n v l r) := of_fields _
theorem ebegin : Statement .ebegin := of_fields _
theorem esym (b : Byte) : Statement (.esym b) := of_fields _
theorem eend : Statement .eend := of_fields _
theorem dbegin (root : BitVec 16) (total : Word) : Statement (.dbegin root total) := of_fields _
theorem dbyte (b : Byte) : Statement (.dbyte b) := of_fields _

end Sys2Proof.Laws.EncodedWordMatchesTable
end

