-- ==== Sys2Proof/Tests/Slice0.lean ====
section
/-! SUPPORT. Tests/Slice0.lean: the model's own tests, their expected results taken from spec/95_test_vectors.md, and a
witness for the hypotheses of every obligation that has some. -/

namespace Sys2Proof.Tests

open Sys2Proof.Machine

-- One declaration after the other: a proof by kernel evaluation waits for all before it, each on a thread of its own.
set_option Elab.async false

/-! ## States the tests start from -/

/-- An instance in phase IDLE with cleared tables. -/
def blank (c : Config) : State :=
  { State.afterReset c 0 with
    freq := Vector.replicate 256 0
    code := Vector.replicate 256 []
    node := Vector.replicate 511 { value := 0, left := none, right := none } }

/-- The instance of the test vectors: INTSIZE 4, little (00_scope.md R8). -/
def idle : State := blank Config.standard

/-- The tree T3 of 95_test_vectors.md 2.4 in NODE, the code of program P2 in CODE. -/
def tree3 : State :=
  { idle with
    node := ((((idle.node.set 0 { value := 0x41, left := none, right := none }).set 1
      { value := 0x42, left := none, right := none }).set 2 { value := 0x43, left := none, right := none }).set 3
      { value := 0, left := some 2, right := some 1 }).set 4 { value := 0, left := some 0, right := some 3 }
    code := symSet (symSet (symSet idle.code 0x41 [false]) 0x42 [true, true]) 0x43 [true, false] }

/-- After `DBEGIN 4, 9` on that tree. -/
def decoding : State := { tree3 with phase := .dec, root := 4, cursor := 4, dtotal := 9 }

/-- Inside an encode session that holds the three bits 1 1 1 (vector E3, n = 3). -/
def encoding : State := { tree3 with phase := .enc, acc := 7, nacc := 3, bitcnt := 3 }

/-- With a recorded SeqError of ESYM in phase IDLE (vector X6). -/
def faulted : State := { idle with phase := .fault, fc := some .seqError, fop := 0x31 }

/-- The state one step on a command word leads to. -/
def after (w : Command) (s : State) : State :=
  match step { s with host := [.command w] } with
  | .next t => t
  | _ => s

/-- What a fault records: FC, FPHASE, FOP, FINFO. -/
def recorded (s : State) : Option Cause × Phase × Byte × Word := (s.fc, s.fphase, s.fop, s.finfo)

/-! ## Decoding: words of 95_test_vectors.md and of the rules' examples -/

theorem test_decode_nop : decode 0x0000000000000000 = .ok .nop := by decide
theorem test_decode_rst : decode 0x0100000000000000 = .ok .rst := by decide
theorem test_decode_rdreg : decode 0x0207000000000000 = .ok (.rdreg 7) := by decide
theorem test_decode_hclr : decode 0x1000000000000000 = .ok .hclr := by decide
theorem test_decode_hacc : decode 0x1141000000000000 = .ok (.hacc 0x41) := by decide
theorem test_decode_hld : decode 0x120700007FFFFFFE = .ok (.hld 7 0x7FFFFFFE) := by decide
theorem test_decode_hrd : decode 0x13FF000000000000 = .ok (.hrd 255) := by decide
theorem test_decode_cclr : decode 0x2042000000000000 = .ok (.cclr 0x42) := by decide
theorem test_decode_capp_one : decode 0x2142000000000001 = .ok (.capp 0x42 true) := by decide
theorem test_decode_capp_zero : decode 0x2141000000000000 = .ok (.capp 0x41 false) := by decide
theorem test_decode_nld_leaf : decode 0x2843000201FF01FF = .ok (.nld 2 0x43 511 511) := by decide
theorem test_decode_nld_inner : decode 0x2800000300010002 = .ok (.nld 3 0 2 1) := by decide
theorem test_decode_ebegin : decode 0x3000000000000000 = .ok .ebegin := by decide
theorem test_decode_esym : decode 0x3141000000000000 = .ok (.esym 0x41) := by decide
theorem test_decode_eend : decode 0x3200000000000000 = .ok .eend := by decide
theorem test_decode_dbegin : decode 0x4000000400000009 = .ok (.dbegin 4 9) := by decide
theorem test_decode_dbyte : decode 0x411F000000000000 = .ok (.dbyte 0x1F) := by decide

/-- Vectors X1, X2: reserved opcodes. -/
theorem test_decode_reserved_opcode : decode 0x0300000000000000 = .error (.reservedOpcode 0x03) ∧
    decode 0xFFFFFFFFFFFFFFFF = .error (.reservedOpcode 0xFF) := by decide

/-- Vectors H9, T3, T4, X3, X4, D7: reserved fields of the formats S, SB, Z and D; HLD with a nonzero `idx` (R133). -/
theorem test_decode_reserved_field : decode 0x1141000100000000 = .error (.reservedField .hacc) ∧
    decode 0x2141000000000002 = .error (.reservedField .capp) ∧
    decode 0x2041000100000000 = .error (.reservedField .cclr) ∧
    decode 0x0000000000000001 = .error (.reservedField .nop) ∧
    decode 0x411F000000000001 = .error (.reservedField .dbyte) ∧
    decode 0x4001000400000009 = .error (.reservedField .dbegin) ∧
    decode 0x1205000100000000 = .error (.reservedField .hld) := by decide

theorem test_decodeTableWord : decodeTableWord 64 0x4000000400000009 = some (.dbegin 4 9) ∧
    decodeTableWord 64 0x0300000000000000 = none := by decide

theorem test_withFetchWord :
    (State.reset.withFetchWord 64 0x1000000000000000).host = [.command 0x1000000000000000] := by decide

/-! ## WellFormed: an ill-formed term for each check -/

/-- Vector H6, and H7 with INTSIZE 2. -/
theorem test_wellFormed_hld : Instr.wellFormed Config.standard (.hld 5 0x80000000) = false ∧
    Instr.wellFormed { intSize := .two, byteOrder := .little } (.hld 5 0x8000) = false ∧
    Instr.wellFormed { intSize := .two, byteOrder := .little } (.hld 5 0x7FFF) = true := by decide

/-- Vectors T6, T7, T8 and T5. -/
theorem test_wellFormed_nld : Instr.wellFormed Config.standard (.nld 511 0 0 0) = false ∧
    Instr.wellFormed Config.standard (.nld 0 0 512 0) = false ∧
    Instr.wellFormed Config.standard (.nld 0 0 1 0xFFFF) = false ∧
    Instr.wellFormed Config.standard (.nld 510 0xAB 511 0) = true := by decide

/-- Vector D7. -/
theorem test_wellFormed_dbegin : Instr.wellFormed Config.standard (.dbegin 511 1) = false ∧
    Instr.wellFormed Config.standard (.dbegin 4 0x80000000) = false ∧
    Instr.wellFormed Config.standard (.dbegin 4 9) = true := by decide

/-! ## One step each -/

/-- Vector S1. -/
theorem test_nop : after 0x0000000000000000 encoding = encoding := by rfl

/-- Vector E8: RST abandons an encode session. -/
theorem test_rst : (after 0x0100000000000000 encoding).phase = .idle ∧ (after 0x0100000000000000 encoding).nacc = 0 ∧
    (after 0x0100000000000000 encoding).bitcnt = 0 := by decide +kernel

/-- Vectors E3 (n = 3), S2 and E5. -/
theorem test_rdreg : (after 0x0204000000000000 encoding).rsp = [0x00000307] ∧
    (after 0x0200000000000000 idle).rsp = [0x00000004] ∧
    (after 0x0200000000000000 (blank { intSize := .two, byteOrder := .big })).rsp = [0x00000012] ∧
    (after 0x020A000000000000 idle).rsp = [0x00000000] := by decide +kernel

/-- Vector D4: after the first byte of P3, STATUS, DCNT, DBYTES, CURSORREG. -/
theorem test_rdreg_decoder : (after 0x0201000000000000 (after 0x411F000000000000 decoding)).rsp = [0x00000002] ∧
    (after 0x0207000000000000 (after 0x411F000000000000 decoding)).rsp = [0x00000008] ∧
    (after 0x0208000000000000 (after 0x411F000000000000 decoding)).rsp = [0x00000001] ∧
    (after 0x0209000000000000 (after 0x411F000000000000 decoding)).rsp = [0x00040003] := by decide +kernel

theorem test_hclr : readFreq 0x41 (after 0x1000000000000000 { idle with freq := symSet idle.freq 0x41 3 }) = 0 := by decide +kernel

/-- Vector H3: the count below MAXCOUNT reaches it, the count at MAXCOUNT faults. -/
theorem test_hacc :
    readFreq 7 (after 0x1107000000000000 { idle with freq := symSet idle.freq 7 0x7FFFFFFE }) = 0x7FFFFFFF ∧
    recorded (after 0x1107000000000000 { idle with freq := symSet idle.freq 7 0x7FFFFFFF }) =
      (some .histOverflow, .idle, 0x11, 7) := by decide +kernel

/-- Vectors H8 and H9. -/
theorem test_hacc_faults : recorded (after 0x1101000000000000 encoding) = (some .seqError, .enc, 0x11, 0) ∧
    recorded (after 0x1141000100000000 idle) = (some .illegalCommand, .idle, 0x11, 0x11410001) := by decide +kernel

/-- Vectors H3 and H6. -/
theorem test_hld : readFreq 7 (after 0x120700007FFFFFFE idle) = 0x7FFFFFFE ∧
    recorded (after 0x1205000080000000 idle) = (some .illegalOperand, .idle, 0x12, 0x80000000) := by decide +kernel

/-- Vector H4: HRD of a full count. -/
theorem test_hrd :
    (after 0x1310000000000000 { idle with freq := symSet idle.freq 0x10 0x7FFFFFFF }).rsp = [0x7FFFFFFF] := by decide +kernel

theorem test_cclr : readCode 0x42 (after 0x2042000000000000 tree3) = [] ∧
    readCode 0x43 (after 0x2042000000000000 tree3) = [true, false] := by decide +kernel

/-- Vector T1: the second CAPP appends at the end. -/
theorem test_capp : readCode 0x41 (after 0x2141000000000000 { idle with code := symSet idle.code 0x41 [true] }) =
    [true, false] := by decide +kernel

/-- Vector T2: the 256th bit. -/
theorem test_capp_too_long :
    recorded (after 0x2109000000000000 { idle with code := symSet idle.code 9 (List.replicate 255 true) }) =
      (some .codeTooLong, .idle, 0x21, 9) := by decide +kernel

/-- Vector T5. -/
theorem test_nld : readNode 510 (after 0x28AB01FE000001FF idle) = { value := 0xAB, left := none, right := some 0 } := by decide +kernel

/-- Vectors T6, T7, T8, T9. -/
theorem test_nld_operands : recorded (after 0x280001FF00000000 idle) = (some .illegalOperand, .idle, 0x28, 0x1FF) ∧
    recorded (after 0x2800000000000200 idle) = (some .illegalOperand, .idle, 0x28, 0x200) ∧
    recorded (after 0x28000000FFFF0001 idle) = (some .illegalOperand, .idle, 0x28, 0xFFFF) ∧
    recorded (after 0x2800025800000258 idle) = (some .illegalOperand, .idle, 0x28, 0x258) := by decide +kernel

/-- Vector E5, INTSIZE 2 big: the first bytes of the header. -/
theorem test_ebegin :
    (after 0x3000000000000000 { blank { intSize := .two, byteOrder := .big } with
      freq := symSet idle.freq 0 0x0102 }).out.take 4 = [0x01, 0x02, 0x00, 0x00] := by decide +kernel

/-- The trace of program P2: `ESYM 0x42` from ACC = 00, NACC = 3. -/
theorem test_esym : (after 0x3142000000000000 { encoding with acc := 0 }).acc = 0x03 ∧
    (after 0x3142000000000000 { encoding with acc := 0 }).nacc = 5 ∧
    (after 0x3142000000000000 { encoding with acc := 0 }).bitcnt = 5 := by decide +kernel

/-- The trace of program P2: `ESYM 0x43` from ACC = 0F, NACC = 7 emits 1F and holds the bit 0. -/
theorem test_esym_emits : (after 0x3143000000000000 { encoding with acc := 0x0F, nacc := 7, bitcnt := 7 }).out = [0x1F] ∧
    (after 0x3143000000000000 { encoding with acc := 0x0F, nacc := 7, bitcnt := 7 }).nacc = 1 ∧
    (after 0x3143000000000000 { encoding with acc := 0x0F, nacc := 7, bitcnt := 7 }).bitcnt = 9 := by decide +kernel

/-- Vector E3, n = 3. -/
theorem test_eend : (after 0x3200000000000000 encoding).out = [0xE0, 0x03, 0x00, 0x00, 0x00] ∧
    (after 0x3200000000000000 encoding).rsp = [3] ∧ (after 0x3200000000000000 encoding).phase = .idle := by decide +kernel

/-- Vector E1: no padding byte when NACC = 0. -/
theorem test_eend_full : (after 0x3200000000000000 { encoding with acc := 0, nacc := 0, bitcnt := 8 }).out =
    [0x08, 0x00, 0x00, 0x00] := by decide +kernel

/-- Vectors D6 and D7. -/
theorem test_dbegin : (after 0x4000000400000000 tree3).ddone = true ∧ (after 0x4000000400000000 tree3).phase = .idle ∧
    (after 0x4000000400000000 tree3).cursor = 4 ∧
    recorded (after 0x400001FF00000001 tree3) = (some .illegalOperand, .idle, 0x40, 0x1FF) := by decide +kernel

/-- Program P3: the first byte, then the second of D1, whose padding bits are 1. -/
theorem test_dbyte : (after 0x411F000000000000 decoding).out = [0x41, 0x41, 0x41, 0x42, 0x42] ∧
    (after 0x411F000000000000 decoding).phase = .dec ∧
    (after 0x417F000000000000 { decoding with cursor := 3, dcnt := 8, dbytes := 1 }).out = [0x43] ∧
    (after 0x417F000000000000 { decoding with cursor := 3, dcnt := 8, dbytes := 1 }).ddone = true := by decide +kernel

/-- Vector D11: node 3 without its right child. -/
theorem test_dbyte_corruption :
    recorded (after 0x411F000000000000 { decoding with
      node := decoding.node.set 3 { value := 0, left := some 2, right := none } }) = (some .corruption, .dec, 0x41, 0) ∧
    (after 0x411F000000000000 { decoding with
      node := decoding.node.set 3 { value := 0, left := some 2, right := none } }).dcnt = 4 := by decide +kernel

/-- Vectors X1, X4, X5. -/
theorem test_order_of_checks :
    recorded (after 0x0300000000000000 idle) = (some .illegalCommand, .idle, 0x03, 0x03000000) ∧
    recorded (after 0x411F000000000001 idle) = (some .illegalCommand, .idle, 0x41, 0x411F0000) ∧
    recorded (after 0x2800025800000000 encoding) = (some .seqError, .enc, 0x28, 0) := by decide +kernel

/-- Vector X6: in phase FAULT a reserved word, an ill-formed RDREG and an ill-formed RST are dropped; RDREG 2 answers. -/
theorem test_fault_phase : recorded (after 0x0300000000000000 faulted) = recorded faulted ∧
    (after 0x0202000000000001 faulted).rsp = [] ∧ (after 0x0100000000000001 faulted).phase = .fault ∧
    (after 0x0202000000000000 faulted).rsp = [0x00003102] ∧ (after 0x0100000000000000 faulted).fc = none := by decide +kernel

/-! ## Witnesses: states and operands that meet the hypotheses of each obligation, at the boundaries of their ranges -/

/-- A state in which the host presents one word. -/
def offering (w : Command) (s : State) : State := { s with host := [.command w] }

/-- A decode session of three bits after which the byte's other bits are padding, and one of nine bits. -/
def lastBits : State := { decoding with cursor := 3, dcnt := 8, dbytes := 1 }

/-- Node 3 of the tree without its right child (vector D11). -/
def broken : State :=
  { decoding with node := decoding.node.set 3 { value := 0, left := some 2, right := none } }

/-- The state a command leads to. -/
def fired (i : Instr) (s : State) : State :=
  match exec i s with
  | .next t => t
  | _ => s

theorem fired_eq (i : Instr) (s : State) : exec i s = .next (fired i s) := by cases i <;> rfl

/-- The state some commands lead to from a hardware reset of the standard instance. -/
def comesTo (cmds : List Instr) : State :=
  match Host.Core.run Sys2Proof.core cmds.length { State.afterReset Config.standard 0 with host := present cmds } with
  | .next t => t
  | _ => State.reset

theorem reachable_run {n : Nat} {s t : State} (h : Reachable s) (hr : Host.Core.run Sys2Proof.core n s = .next t) :
    Reachable t := by
  induction n generalizing s with
  | zero =>
    obtain rfl : s = t := Host.Outcome.next.inj hr
    exact h
  | succ n ih =>
    obtain ⟨u, hu⟩ : ∃ u, step s = .next u := by
      rcases step_cases s with ⟨-, h⟩ | ⟨_, -, h⟩ | ⟨_, _, _, -, -, h⟩ | ⟨_, _, _, -, -, h⟩ <;> exact ⟨_, h⟩
    exact ih (.step h hu) ((run_succ Sys2Proof.core hu).symm.trans hr)

theorem reachable_comesTo (cmds : List Instr) : Reachable (comesTo cmds) := by
  have hr := run_present cmds (State.afterReset Config.standard 0)
  have he : comesTo cmds = withHost [] (effects cmds (State.afterReset Config.standard 0)) := by
    unfold comesTo
    rw [show ({ State.afterReset Config.standard 0 with host := present cmds } : State) =
      withHost (present cmds) (State.afterReset Config.standard 0) from rfl, hr]
  rw [he]
  exact reachable_run (.reset Config.standard 0 (present cmds)) hr

theorem witness_DecodeAndEncodeAgree : decode 0x411F000000000000 = .ok (.dbyte 0x1F) := by decide

theorem witness_DecodingIsByMaskAndMatch :
    (0x1241000012345678#64 &&& Opcode.hld.format.mask = Opcode.hld.pattern) ∧
    ∀ o : Opcode, 0x0300000000000000#64 &&& o.format.mask ≠ o.pattern := by
  constructor
  · decide
  · intro o; cases o <;> decide

/-- A reserved `op`, in IDLE and in FAULT; a reserved field, in IDLE and in FAULT. -/
theorem witness_IllegalWordsRaiseIllegalCommand :
    (∀ o : Opcode, opField 0x0300000000000000 ≠ o.byte) ∧
    (∃ o : Opcode, opField 0x1141000100000000 = o.byte ∧ reservedZero o.format 0x1141000100000000 = false) ∧
    (offering 0x0300000000000000 idle).phase ≠ .fault ∧ (offering 0x0300000000000000 faulted).phase = .fault ∧
    (offering 0x1141000100000000 idle).phase ≠ .fault ∧ (offering 0x1141000100000000 faulted).phase = .fault := by
  refine ⟨?_, ⟨.hacc, by decide⟩, by decide, rfl, by decide, rfl⟩
  intro o; cases o <;> decide

theorem witness_StepRunsTheDecodedCommand :
    (offering 0x1000000000000000 idle).host = .command 0x1000000000000000 :: [] ∧
    decode 0x1000000000000000 = .ok .hclr ∧ idle.host = [] := ⟨rfl, by decide, rfl⟩

/-- An instance of each INTSIZE, and a state after its reset. -/
theorem witness_ResetLeavesTheStatedValues :
    ({ intSize := .two, byteOrder := .big } : Config).intSize = .two ∧ Config.standard.intSize = .four ∧
    ∃ t, t = State.afterReset Config.standard 0 := ⟨rfl, rfl, _, rfl⟩

theorem witness_HardwareResetAtAnyTime :
    ({ encoding with host := [.hardwareReset, .command 0] } : State).host = .hardwareReset :: [.command 0] := rfl

/-- Right after reset, and the step that takes HCLR. -/
theorem witness_InvariantIsKeptByEveryStep :
    ∃ s t : State, Inv s ∧ step s = .next t ∧ s.host ≠ [] :=
  ⟨{ State.afterReset Config.standard 0 with host := [.command 0x1000000000000000] }, _, Inv.afterReset _ _ _, rfl,
    by simp⟩

/-- In ENC; in DEC; complete with no bits; faulted on a missing child. -/
theorem witness_SessionRegistersStayConsistent :
    (Reachable (comesTo [.ebegin]) ∧ (comesTo [.ebegin]).phase = .enc) ∧
    (Reachable (comesTo [.dbegin 0 9]) ∧ (comesTo [.dbegin 0 9]).phase = .dec) ∧
    (Reachable (comesTo [.dbegin 0 0]) ∧ (comesTo [.dbegin 0 0]).ddone = true) ∧
    (Reachable (comesTo [.nld 0 0 511 511, .dbegin 0 1, .dbyte 0]) ∧
      (comesTo [.nld 0 0 511 511, .dbegin 0 1, .dbyte 0]).fc = some .corruption) :=
  ⟨⟨reachable_comesTo _, by decide +kernel⟩, ⟨reachable_comesTo _, by decide +kernel⟩,
    ⟨reachable_comesTo _, by decide +kernel⟩, reachable_comesTo _, by decide +kernel⟩

theorem witness_NopHasNoEffect : (offering 0x0000000000000001 idle).host = .command 0x0000000000000001 :: [] ∧
    opField 0x0000000000000001 = 0x00 ∧ (0x0000000000000001 : Command) ≠ 0 ∧
    (offering 0x0000000000000001 idle).phase ≠ .fault := by decide +kernel

theorem witness_RdregRespondsTheRegisterMap : 10 ≤ (10 : Byte).toNat ∧ 10 ≤ (255 : Byte).toNat := by decide

theorem witness_SystemCommandsIgnoreTheTables :
    (faulted.phase = .fault ∧ (∀ r, Instr.hclr ≠ .rdreg r) ∧ Instr.hclr ≠ .rst) ∧
    exec (.rdreg 7) tree3 = .next (fired (.rdreg 7) tree3) := ⟨⟨rfl, by simp, by simp⟩, fired_eq _ _⟩

theorem witness_HclrClearsEveryCount : idle.phase = .idle := rfl

/-- One below MAXCOUNT, and at MAXCOUNT. -/
theorem witness_HaccCountsOneOccurrence :
    ∃ s t : State, s.phase = .idle ∧ (readFreq 7 s).toNat + 1 = s.config.maxCount ∧
      t.phase = .idle ∧ t.config.maxCount = (readFreq 7 t).toNat :=
  ⟨{ idle with freq := symSet idle.freq 7 0x7FFFFFFE }, { idle with freq := symSet idle.freq 7 0x7FFFFFFF },
    by decide +kernel⟩

/-- At MAXCOUNT, and one above. -/
theorem witness_HldLoadsOneCount : idle.phase = .idle ∧ (0x7FFFFFFF : Word).toNat = idle.config.maxCount ∧
    idle.config.maxCount + 1 = (0x80000000 : Word).toNat := by decide +kernel

theorem witness_HrdRespondsTheCount : idle.phase = .idle := rfl

theorem witness_HistogramCountsOccurrences :
    idle.phase = .idle ∧ ∀ b, [0x41, 0x41, 0x42].count b ≤ idle.config.maxCount := by
  refine ⟨rfl, fun b => (List.count_le_length).trans ?_⟩
  decide

theorem witness_CclrEmptiesOneCodeWord : tree3.phase = .idle ∧ readCode 0x42 tree3 ≠ [] := by decide +kernel

/-- 254 bits, and 255 bits. -/
theorem witness_CappAppendsOneBit :
    ∃ s t : State, s.phase = .idle ∧ (readCode 9 s).length = 254 ∧ t.phase = .idle ∧ (readCode 9 t).length = 255 :=
  ⟨{ idle with code := symSet idle.code 9 (List.replicate 254 true) },
    { idle with code := symSet idle.code 9 (List.replicate 255 true) }, by decide +kernel⟩

/-- n at 510 with l and r at 511; n at 511; l at 512; r at 512. -/
theorem witness_NldLoadsOneNode : idle.phase = .idle ∧
    ((510 : BitVec 16).toNat = (510 : NodeIdx).val ∧ (511 : BitVec 16).toNat ≤ 511 ∧ (510 : BitVec 16).toNat ≤ 511) ∧
    510 < (511 : BitVec 16).toNat ∧
    ((510 : BitVec 16).toNat ≤ 510 ∧ 511 < (512 : BitVec 16).toNat) ∧
    ((510 : BitVec 16).toNat ≤ 510 ∧ (511 : BitVec 16).toNat ≤ 511 ∧ 511 < (512 : BitVec 16).toNat) := by
  decide +kernel

/-- The longest code word, and the empty one. -/
theorem witness_LoadcodeLoadsACodeWord :
    idle.phase = .idle ∧ (List.replicate 255 true).length ≤ 255 ∧ ([] : List Bool).length ≤ 255 := by decide +kernel

theorem witness_EbeginWritesTheHeader : idle.phase = .idle := rfl

/-- BITCNT reaches MAXCOUNT exactly, and would pass it by one. -/
theorem witness_EsymAppendsACodeWord :
    ∃ s t : State, (s.phase = .enc ∧ s.acc.toNat < 2 ^ s.nacc.toNat ∧
        s.bitcnt.toNat + (readCode 0x42 s).length = s.config.maxCount) ∧
      t.phase = .enc ∧ t.acc.toNat < 2 ^ t.nacc.toNat ∧
        t.config.maxCount + 1 = t.bitcnt.toNat + (readCode 0x42 t).length :=
  ⟨{ encoding with acc := 0, nacc := 5, bitcnt := 0x7FFFFFFD }, { encoding with acc := 0, nacc := 6, bitcnt := 0x7FFFFFFE },
    by decide +kernel⟩

theorem witness_EsymOfAnEmptyCodeWord : encoding.phase = .enc ∧ encoding.bitcnt.toNat ≤ encoding.config.maxCount ∧
    readCode 0x00 encoding = [] := by decide +kernel

theorem witness_EendClosesTheSession : encoding.phase = .enc ∧ encoding.acc.toNat < 2 ^ encoding.nacc.toNat := by
  decide +kernel

theorem witness_EncodeSessionWritesTheEncodedStream : tree3.phase = .idle ∧
    (∀ i ∈ [Instr.rdreg 4, .esym 0x41, .nop, .esym 0x43], isWatch i = true ∨ ∃ b, i = .esym b) ∧
    [Instr.rdreg 4, .esym 0x41, .nop, .esym 0x43].filterMap esymOperand = [0x41, 0x43] ∧
    (codeBits tree3 [0x41, 0x43]).length ≤ tree3.config.maxCount := by
  refine ⟨rfl, ?_, rfl, by decide +kernel⟩
  simp [isWatch]

/-- The first bit, and the last padding bit of one packed byte. -/
theorem witness_PackedBitPositions : 0 < 8 * (packBits [true]).length ∧ 7 < 8 * (packBits [true]).length := by
  decide +kernel

theorem witness_EncodedStreamReadsBack :
    (∀ b, (symGet idle.freq b).toNat < 2 ^ Config.standard.width) ∧ [true, false].length ≤ Config.standard.maxCount := by
  constructor
  · intro b
    simp [symGet, idle, blank]
  · decide

/-- The largest number of two bytes; the last index in both orders; the bytes of a number. -/
theorem witness_IntBytesAndBytesInt :
    (0xFFFF : Word).toNat < 2 ^ ({ intSize := .two, byteOrder := .big } : Config).width ∧
    1 < ({ intSize := .two, byteOrder := .big } : Config).intSize.bytes ∧
    (0xFFFFFFFF : Word).toNat < 2 ^ Config.standard.width ∧
    3 < Config.standard.intSize.bytes ∧ Config.standard.byteOrder = .little ∧
    ([1, 2, 0, 0] : List Byte).length = Config.standard.intSize.bytes ∧
    bytesInt Config.standard [1, 2, 0, 0] = 0x0201 := by decide +kernel

/-- root at 510 and total at MAXCOUNT; total 0; root at 511; total above MAXCOUNT. -/
theorem witness_DbeginOpensADecodeSession : idle.phase = .idle ∧
    ((510 : BitVec 16).toNat = (510 : NodeIdx).val ∧ (0x7FFFFFFF : Word).toNat = idle.config.maxCount ∧
      (0x7FFFFFFF : Word) ≠ 0) ∧
    510 < (511 : BitVec 16).toNat ∧
    ((510 : BitVec 16).toNat ≤ 510 ∧ idle.config.maxCount + 1 = (0x80000000 : Word).toNat) := by decide +kernel

/-- Nine bits still wanted, eight, and one. -/
theorem witness_DbyteWalksTheTree :
    (decoding.phase = .dec ∧ decoding.dcnt.toNat + 8 < decoding.dtotal.toNat ∧
      treeWalk decoding (wantedBits 0x1F decoding) decoding.cursor = some (3, [0x41, 0x41, 0x41, 0x42, 0x42])) ∧
    (∃ s : State, s.phase = .dec ∧ s.dcnt.toNat < s.dtotal.toNat ∧ s.dtotal.toNat = s.dcnt.toNat + 8 ∧
      treeWalk s (wantedBits 0x1F s) s.cursor = some (3, [0x41, 0x41, 0x41, 0x42, 0x42])) ∧
    (lastBits.phase = .dec ∧ lastBits.dcnt.toNat < lastBits.dtotal.toNat ∧
      lastBits.dtotal.toNat ≤ lastBits.dcnt.toNat + 8 ∧
      treeWalk lastBits (wantedBits 0x7F lastBits) lastBits.cursor = some (4, [0x43])) :=
  ⟨by decide +kernel, ⟨{ decoding with dtotal := 8 }, by decide +kernel⟩, by decide +kernel⟩

/-- Vector D11: four bits find their child, the fifth does not. -/
theorem witness_DbyteCorruptionFault : broken.phase = .dec ∧ broken.dcnt.toNat ≤ broken.dtotal.toNat ∧
    wantedBits 0x1F broken = [false, false, false, true] ++ true :: [true, true, true] ∧
    treeWalk broken [false, false, false, true] broken.cursor = some (3, [0x41, 0x41, 0x41]) ∧
    (readNode 3 broken).child true = none := by decide +kernel

/-- Vector D1: the padding of the last byte is 0 or 1. -/
theorem witness_PaddingIsIgnored : lastBits.dcnt.toNat ≤ lastBits.dtotal.toNat ∧
    ∀ k, k < 8 → k < lastBits.dtotal.toNat - lastBits.dcnt.toNat →
      (0x00 : Byte).getLsbD (7 - k) = (0x7F : Byte).getLsbD (7 - k) := by decide +kernel

/-- Other tables, which agree on the entries the walk reads. -/
theorem witness_DecoderReadsOnlyItsWalk : lastBits.dcnt.toNat ≤ lastBits.dtotal.toNat ∧
    (∀ n ∈ visited lastBits (wantedBits 0x00 lastBits) lastBits.cursor,
      (readNode n lastBits).left = (lastBits.node.set 0 { value := 9, left := some 9, right := none })[n.val].left ∧
      (readNode n lastBits).right = (lastBits.node.set 0 { value := 9, left := some 9, right := none })[n.val].right ∧
      ((readNode n lastBits).isLeaf = true →
        (readNode n lastBits).value = (lastBits.node.set 0 { value := 9, left := some 9, right := none })[n.val].value)) ∧
    exec (.dbyte 0x00) lastBits = .next (fired (.dbyte 0x00) lastBits) := by
  refine ⟨by decide +kernel, ?_, fired_eq _ _⟩
  decide +kernel

/-- Program P3. -/
theorem witness_DecodeSessionEmitsTheLeaves : tree3.phase = .idle ∧ (4 : BitVec 16).toNat = (4 : NodeIdx).val ∧
    (9 : Word).toNat ≤ tree3.config.maxCount ∧ (9 : Word) ≠ 0 ∧
    (∀ i ∈ [Instr.dbyte 0x1F, .rdreg 1, .dbyte 0x00], isWatch i = true ∨ ∃ b, i = .dbyte b) ∧
    [Instr.dbyte 0x1F, .rdreg 1, .dbyte 0x00].filterMap dbyteOperand = [0x1F, 0x00] ∧
    [0x1F#8, 0x00#8].length = ((9 : Word).toNat + 7) / 8 ∧
    treeWalk { tree3 with root := 4 } (([0x1F#8, 0x00#8].flatMap bitsOf).take (9 : Word).toNat) 4 =
      some (4, [0x41, 0x41, 0x41, 0x42, 0x42, 0x43]) := by
  refine ⟨rfl, rfl, by decide +kernel, by decide, ?_, rfl, rfl, by decide +kernel⟩
  simp [isWatch]

/-- A fault before any effect, and a corruption. -/
theorem witness_FaultsArePrecise :
    (idle.phase ≠ .fault ∧ exec (.esym 0) idle = .next (fired (.esym 0) idle) ∧ (fired (.esym 0) idle).phase = .fault ∧
      (fired (.esym 0) idle).fc ≠ some .corruption) ∧
    (broken.phase ≠ .fault ∧ exec (.dbyte 0x1F) broken = .next (fired (.dbyte 0x1F) broken) ∧
      (fired (.dbyte 0x1F) broken).phase = .fault ∧ (fired (.dbyte 0x1F) broken).fc = some .corruption) :=
  ⟨⟨by decide, fired_eq _ _, by decide +kernel, by decide +kernel⟩,
    by decide, fired_eq _ _, by decide +kernel, by decide +kernel⟩

/-- A dropped word, RST, RDREG 2. -/
theorem witness_FaultPhaseDropsOtherWords : (offering 0x1000000000000000 faulted).phase = .fault ∧
    (offering 0x1000000000000000 faulted).host = .command 0x1000000000000000 :: [] ∧
    (0x1000000000000000 : Command) ≠ 0x0100000000000000 ∧
    (∀ r : Byte, (0x1000000000000000 : Command) ≠ 0x02#8 ++ r ++ 0#48) ∧
    (0x0202000000000000 : Command) = 0x02#8 ++ (2 : Byte) ++ 0#48 := by decide +kernel

theorem witness_OnlyRstOrResetLeavesFault :
    ∃ t, (offering 0x0100000000000000 faulted).phase = .fault ∧ step (offering 0x0100000000000000 faulted) = .next t ∧
      t.phase ≠ .fault ∧ (offering 0x0100000000000000 faulted).host = .command 0x0100000000000000 :: [] :=
  ⟨_, rfl, rfl, by decide, rfl⟩

/-- SeqError, a drop, and an entry `ok` in a phase that keeps an older SeqError. -/
theorem witness_PhaseMatrix : (idle.phase ≠ .enc ∧ idle.phase ≠ .fault) ∧ (faulted.phase ≠ .idle ∧ faulted.phase = .fault) ∧
    exec (.rdreg 2) faulted = .next (fired (.rdreg 2) faulted) ∧ (fired (.rdreg 2) faulted).fc = some .seqError :=
  ⟨by decide, by decide, fired_eq _ _, by decide +kernel⟩

/-- Each of the four checks, and each operand the third one can name. -/
theorem witness_OrderOfChecks : idle.phase ≠ .fault ∧
    decode 0x0300000000000000 = .error (.reservedOpcode 0x03) ∧
    (decode 0x3141000000000000 = .ok (.esym 0x41) ∧ legalIn .esym idle.phase = false) ∧
    (decode 0x280001FF00000000 = .ok (.nld 511 0 0 0) ∧ legalIn .nld idle.phase = true ∧
      Instr.wellFormed idle.config (.nld 511 0 0 0) = false ∧
      Instr.wellFormed idle.config (.nld 510 0 512 0) = false ∧ Instr.wellFormed idle.config (.nld 510 0 511 512) = false ∧
      Instr.wellFormed idle.config (.hld 0 0x80000000) = false ∧ Instr.wellFormed idle.config (.dbegin 511 0) = false ∧
      Instr.wellFormed idle.config (.dbegin 510 0x80000000) = false) ∧
    ∃ s t : State, s.phase ≠ .fault ∧ s.host = .command 0x1107000000000000 :: [] ∧
      decode 0x1107000000000000 = .ok (.hacc 7) ∧ legalIn .hacc s.phase = true ∧
      Instr.wellFormed s.config (.hacc 7) = true ∧ step s = .next t ∧ t.phase = .fault :=
  ⟨by decide, by decide, by decide, by decide +kernel,
    offering 0x1107000000000000 { idle with freq := symSet idle.freq 7 0x7FFFFFFF }, _, by decide, rfl, by decide,
    by decide, by decide, rfl, by decide +kernel⟩

/-- Every row of the table, and a pair that changes PHASE. -/
theorem witness_PhaseTransitions :
    ({ encoding with host := [.hardwareReset] } : State).host = .hardwareReset :: [] ∧
    exec .ebegin idle = .next (fired .ebegin idle) ∧ idle.phase = .idle ∧ (fired .ebegin idle).phase ≠ idle.phase ∧
    Instr.wellFormed idle.config (.dbegin 4 0) = true ∧ Instr.wellFormed idle.config (.dbegin 4 9) = true ∧
    encoding.phase = .enc ∧ decoding.phase = .dec ∧ (fired (.dbyte 0x1F) decoding).phase ≠ .fault ∧
    lastBits.phase = .dec ∧ (fired (.dbyte 0x00) lastBits).phase ≠ .fault ∧ faulted.phase = .fault ∧
    Instr.hclr ≠ .rst :=
  ⟨rfl, fired_eq _ _, rfl, by decide +kernel, by decide, by decide, rfl, rfl, by decide +kernel, rfl, by decide +kernel,
    rfl, by decide⟩

theorem witness_TracesAreAppendOnly :
    (step (offering 0x0200000000000000 idle) = .next (after 0x0200000000000000 idle) ∧
      ∀ rest, (offering 0x0200000000000000 idle).host ≠ .hardwareReset :: rest) ∧
    (fired (.rdreg 0) idle).rsp ≠ idle.rsp ∧ (fired .eend encoding).out ≠ encoding.out :=
  ⟨⟨rfl, by simp [offering]⟩, by decide +kernel, by decide +kernel⟩

theorem witness_TablesChangeOnlyInIdle :
    (exec (.esym 0x41) encoding = .next (fired (.esym 0x41) encoding) ∧ encoding.phase ≠ .idle) ∧
    (fired (.hacc 1) idle).freq ≠ idle.freq ∧ (fired (.capp 1 true) idle).code ≠ idle.code ∧
    (fired (.nld 1 7 511 511) idle).node ≠ idle.node := by
  refine ⟨⟨fired_eq _ _, by decide⟩, fun h => ?_, fun h => ?_, fun h => ?_⟩
  · exact absurd (congrArg (fun f => symGet f 1) h) (by decide +kernel)
  · exact absurd (congrArg (fun f => symGet f 1) h) (by decide +kernel)
  · exact absurd (congrArg (fun f : Vector Node 511 => f[1].value) h) (by decide +kernel)

theorem witness_RegistersChangeOnlyByTheirCommands :
    (fired (.dbegin 4 0) tree3).ddone ≠ tree3.ddone ∧ (fired (.esym 0x43) encoding).acc ≠ encoding.acc ∧
    (fired (.esym 0x43) encoding).nacc ≠ encoding.nacc ∧ (fired (.esym 0x43) encoding).bitcnt ≠ encoding.bitcnt ∧
    (fired (.dbegin 4 9) tree3).root ≠ tree3.root ∧ (fired (.dbegin 4 9) tree3).cursor ≠ tree3.cursor ∧
    (fired (.dbegin 4 9) tree3).dtotal ≠ tree3.dtotal ∧ (fired (.dbyte 0x1F) decoding).dcnt ≠ decoding.dcnt ∧
    (fired (.dbyte 0x1F) decoding).dbytes ≠ decoding.dbytes := by decide +kernel

theorem witness_EmptyInputRoundTrip : idle.phase = .idle ∧ (510 : BitVec 16).toNat ≤ 510 := by decide +kernel

/-- Programs P2 and P3: the input `AAABBC`. -/
theorem witness_BlockRoundTrip : tree3.phase = .idle ∧ (4 : BitVec 16).toNat = (4 : NodeIdx).val ∧
    tablesAgree tree3 4 [0x41, 0x41, 0x41, 0x42, 0x42, 0x43] ∧
    (codeBits tree3 [0x41, 0x41, 0x41, 0x42, 0x42, 0x43]).length ≤ tree3.config.maxCount := by
  refine ⟨rfl, rfl, ?_, by decide +kernel⟩
  have h41 : pathTo tree3 0x41 (readCode 0x41 tree3) 4 := by
    rw [show readCode 0x41 tree3 = [false] by decide +kernel]; exact ⟨by decide +kernel, by decide +kernel⟩
  have h42 : pathTo tree3 0x42 (readCode 0x42 tree3) 4 := by
    rw [show readCode 0x42 tree3 = [true, true] by decide +kernel]
    exact ⟨by decide +kernel, by decide +kernel, by decide +kernel⟩
  have h43 : pathTo tree3 0x43 (readCode 0x43 tree3) 4 := by
    rw [show readCode 0x43 tree3 = [true, false] by decide +kernel]
    exact ⟨by decide +kernel, by decide +kernel, by decide +kernel⟩
  intro b hb
  simp at hb
  rcases hb with rfl | rfl | rfl <;> assumption

/-- A tree of the builder has code words of at most 255 bits, so an input of one byte stays in range. -/
theorem one_byte_in_range (freq : Byte → Nat) :
    ∀ tree, buildTree (fun _ => 0) freq = some tree →
      ([0x41#8].flatMap tree.codeOf).length ≤ idle.config.maxCount := by
  intro tree h
  obtain ⟨t, ht, hp, -⟩ := buildTree_some (fun _ => 0) freq
  obtain rfl : t = tree := Option.some.inj (ht.symm.trans h)
  have hl := Tree.length_lt (Tree.mem_codeOf (hp.mem_iff.mpr (mem_allSymbols 0x41#8)))
  have hn := hp.length_eq
  rw [allSymbols_length, Tree.symbols, List.length_map] at hn
  have hm : idle.config.maxCount = 2147483647 := by decide +kernel
  simp only [List.flatMap_cons, List.flatMap_nil, List.append_nil]
  omega

theorem witness_RoundTripWithTheHost : idle.phase = .idle ∧ [0x41#8].length ≤ idle.config.maxCount ∧
    ∀ tree, buildTree (fun _ => 0) (fun b => [0x41#8].count b) = some tree →
      ([0x41#8].flatMap tree.codeOf).length ≤ idle.config.maxCount :=
  ⟨rfl, by decide +kernel, one_byte_in_range _⟩

/-- Every count at MAXCOUNT; and the counts of the empty input. -/
theorem witness_LoadingCountsReplacesCounting :
    (idle.phase = .idle ∧ ∀ b : Byte, ((fun _ => 0x7FFFFFFF : Byte → Word) b).toNat ≤ idle.config.maxCount) ∧
    (∀ b : Byte, ([] : List Byte).count b ≤ idle.config.maxCount) ∧
    ∀ b : Byte, ((fun _ => 0 : Byte → Word) b).toNat = ([] : List Byte).count b :=
  ⟨⟨rfl, fun _ => (by decide +kernel : (0x7FFFFFFF : Word).toNat ≤ idle.config.maxCount)⟩, fun _ => Nat.zero_le _, fun _ => rfl⟩

/-- A loaded table that is not the input's: every count at MAXCOUNT. -/
theorem witness_RoundTripWithLoadedCounts : idle.phase = .idle ∧
    (∀ b : Byte, ((fun _ => 0x7FFFFFFF : Byte → Word) b).toNat ≤ idle.config.maxCount) ∧
    ∀ tree, buildTree (fun _ => 0) (fun b => ((fun _ => 0x7FFFFFFF : Byte → Word) b).toNat) = some tree →
      ([0x41#8].flatMap tree.codeOf).length ≤ idle.config.maxCount :=
  ⟨rfl, fun _ => (by decide +kernel : (0x7FFFFFFF : Word).toNat ≤ idle.config.maxCount), one_byte_in_range _⟩

end Sys2Proof.Tests
end

section
/-! The family 10_state.md: hardware reset, the register map, and which commands change a trace or a working register. -/

namespace Sys2Proof

/-! ## The parameters in numbers (00_scope.md R7), and the widths of their fields in the register map -/

theorem Config.numbers_of_two {c : Config} (h : c.intSize = .two) :
    c.intSize.bytes = 2 ∧ c.width = 16 ∧ c.maxCount = 32767 := by
  simp [Config.maxCount, Config.width, IntSize.bytes, h]

theorem Config.numbers_of_four {c : Config} (h : c.intSize = .four) :
    c.intSize.bytes = 4 ∧ c.width = 32 ∧ c.maxCount = 2147483647 := by
  simp [Config.maxCount, Config.width, IntSize.bytes, h]

/-- Four bits hold either value of INTSIZE. -/
theorem IntSize.toNat_ofNat_bytes (z : IntSize) : (BitVec.ofNat 4 z.bytes).toNat = z.bytes := by
  cases z <;> rfl

/-- Nine bits hold every node index. -/
theorem NodeIdx.toNat_ofNat_val (k : NodeIdx) : (BitVec.ofNat 9 k.val).toNat = k.val := by
  have := k.isLt
  rw [BitVec.toNat_ofNat, Nat.mod_eq_of_lt (by omega)]

end Sys2Proof

namespace Sys2Proof.Machine

/-- Settles O7: the control registers and the traces by the definition of `afterReset`, the tables by what their storage
can hold. -/
theorem resetLeavesTheStatedValues : Obligations.ResetLeavesTheStatedValues := by
  refine ⟨?_, rfl, rfl, rfl, fun c => ⟨c.numbers_of_two, c.numbers_of_four⟩, rfl⟩
  rintro c n _ rfl
  exact ⟨rfl, rfl, rfl, rfl, rfl, rfl, rfl, rfl, rfl, rfl, rfl, rfl, rfl, rfl, rfl, rfl, rfl, rfl, rfl,
    readFreq_afterReset_lt c n, readCode_afterReset_le c n⟩

/-! ## The words of the register map (10_state.md R37)

Each word is a concatenation; a slice of it that lies within one part is that part, or 0 within a reserved part. -/

theorem configWord_fields (c : Config) :
    (configWord c).extractLsb' 0 4 = BitVec.ofNat 4 c.intSize.bytes ∧
    (configWord c).getLsbD 4 = (c.byteOrder == .big) ∧ (configWord c).extractLsb' 5 27 = 0 := by
  simp only [configWord, BitVec.extractLsb'_append_eq_ite, BitVec.getLsbD_append]
  simp

theorem statusWord_fields (s : State) :
    (statusWord s).extractLsb' 0 2 = s.phase.code ∧ (statusWord s).getLsbD 2 = s.ddone ∧
    (statusWord s).extractLsb' 3 29 = 0 := by
  simp only [statusWord, BitVec.extractLsb'_append_eq_ite, BitVec.getLsbD_append]
  simp

theorem fcauseWord_fields (s : State) :
    (fcauseWord s).extractLsb' 0 4 = causeCode s.fc ∧ (fcauseWord s).extractLsb' 4 2 = s.fphase.code ∧
    (fcauseWord s).extractLsb' 6 2 = 0 ∧ (fcauseWord s).extractLsb' 8 8 = s.fop ∧
    (fcauseWord s).extractLsb' 16 16 = 0 := by
  simp only [fcauseWord, BitVec.extractLsb'_append_eq_ite]
  simp

theorem accWord_fields (s : State) :
    (accWord s).extractLsb' 0 8 = s.acc ∧ (accWord s).extractLsb' 8 3 = s.nacc ∧
    (accWord s).extractLsb' 11 21 = 0 := by
  simp only [accWord, BitVec.extractLsb'_append_eq_ite]
  simp

theorem cursorWord_fields (s : State) :
    (cursorWord s).extractLsb' 0 9 = BitVec.ofNat 9 s.cursor.val ∧ (cursorWord s).extractLsb' 9 7 = 0 ∧
    (cursorWord s).extractLsb' 16 9 = BitVec.ofNat 9 s.root.val ∧ (cursorWord s).extractLsb' 25 7 = 0 := by
  simp only [cursorWord, BitVec.extractLsb'_append_eq_ite]
  simp

/-- RDREG is legal in every phase (44_system.md R210, R214). -/
theorem effect_rdreg (r : Byte) (s : State) : effect (.rdreg r) s = respond (regword r s) s := effect_legal rfl

/-- Settles O14: each register's word by its fields, PHASE, FPHASE and FC by the numbers of their values. -/
theorem rdregRespondsTheRegisterMap : Obligations.RdregRespondsTheRegisterMap := by
  intro s
  obtain ⟨hsize, hbig, hconfig0⟩ := configWord_fields s.config
  obtain ⟨hphase, hddone, hstatus0⟩ := statusWord_fields s
  obtain ⟨hfc, hfphase, hfcauseMid0, hfop, hfcause0⟩ := fcauseWord_fields s
  obtain ⟨hacc, hnacc, hacc0⟩ := accWord_fields s
  obtain ⟨hcursor, hcursorMid0, hroot, hcursor0⟩ := cursorWord_fields s
  refine ⟨fun r => (exec_eq _ s).trans (congrArg _ (effect_rdreg r s)),
    (congrArg BitVec.toNat hsize).trans (IntSize.toNat_ofNat_bytes _), hbig, hconfig0,
    (congrArg BitVec.toNat hphase).trans ?_, hddone, hstatus0,
    (congrArg BitVec.toNat hfc).trans ?_, (congrArg BitVec.toNat hfphase).trans ?_, hfcauseMid0, hfop, hfcause0,
    rfl, hacc, hnacc, hacc0, rfl, rfl, rfl, rfl,
    (congrArg BitVec.toNat hcursor).trans (NodeIdx.toNat_ofNat_val _), hcursorMid0,
    (congrArg BitVec.toNat hroot).trans (NodeIdx.toNat_ofNat_val _), hcursor0, fun r h => regword_ge h s⟩
  case refine_1 => cases s.phase <;> rfl
  case refine_2 =>
    cases s.fc with
    | none => rfl
    | some cause => cases cause <;> rfl
  case refine_3 => cases s.fphase <;> rfl

/-! ## Traces and working registers -/

/-- A field that no fault writes changes only by the commands whose actions change it: the other outcomes of the phase
check are a drop and a SeqError. -/
theorem effect_changes_of_action {α : Type} (f : State → α) {i : Instr} {s : State} {P : Prop}
    (hf : ∀ c op v, f (raiseFault c op v s) = f s) (ha : f (action i s) ≠ f s → P) (h : f (effect i s) ≠ f s) : P := by
  rcases effect_cases i s with ⟨-, e⟩ | ⟨-, -, e⟩ | ⟨-, -, e⟩ <;> rw [e] at h
  · exact ha h
  · exact absurd rfl h
  · exact absurd (hf _ _ _) h

theorem effect_traces_prefix (i : Instr) (s : State) : s.out <+: (effect i s).out ∧ s.rsp <+: (effect i s).rsp := by
  obtain ⟨-, -, -, -, -, hout, hrsp, -⟩ := action_changes i s
  rcases effect_cases i s with ⟨-, e⟩ | ⟨-, -, e⟩ | ⟨-, -, e⟩ <;> rw [e]
  · exact ⟨hout, hrsp⟩
  · exact ⟨List.prefix_rfl, List.prefix_rfl⟩
  · exact ⟨List.prefix_rfl, List.prefix_rfl⟩

theorem illegalWord_traces_prefix (w : Command) (s : State) :
    s.out <+: (illegalWord w s).out ∧ s.rsp <+: (illegalWord w s).rsp := by
  rcases illegalWord_cases w s with ⟨-, e⟩ | ⟨-, e⟩ <;> rw [e] <;> exact ⟨List.prefix_rfl, List.prefix_rfl⟩

/-- Settles O46: by what a step can do, and for a command by the traces its action can change. -/
theorem tracesAreAppendOnly : Obligations.TracesAreAppendOnly := by
  refine ⟨fun s t h hr => ?_, fun i s t h => ?_⟩
  · rcases step_cases s with ⟨-, e⟩ | ⟨rest, hh, -⟩ | ⟨w, rest, i, -, -, e⟩ | ⟨w, rest, -, -, -, e⟩
    · cases e.symm.trans h
      exact ⟨List.prefix_rfl, List.prefix_rfl⟩
    · exact absurd hh (hr rest)
    · cases e.symm.trans h
      exact effect_traces_prefix i { s with host := rest }
    · cases e.symm.trans h
      exact illegalWord_traces_prefix w { s with host := rest }
  · cases (exec_eq i s).symm.trans h
    obtain ⟨-, -, -, hrsp, hout, -⟩ := action_changes i s
    exact ⟨effect_changes_of_action (·.rsp) (fun _ _ _ => rfl) hrsp,
      effect_changes_of_action (·.out) (fun _ _ _ => rfl) hout⟩

/-- Settles O48: the registers that each action can change, lifted through the phase check. -/
theorem registersChangeOnlyByTheirCommands : Obligations.RegistersChangeOnlyByTheirCommands := by
  intro i s t h
  cases (exec_eq i s).symm.trans h
  obtain ⟨-, -, -, -, -, -, -, hddone, hacc, hnacc, hbitcnt, hroot, hcursor, hdtotal, hdcnt, hdbytes⟩ :=
    action_changes i s
  exact ⟨effect_changes_of_action (·.ddone) (fun _ _ _ => rfl) hddone,
    effect_changes_of_action (·.acc) (fun _ _ _ => rfl) hacc,
    effect_changes_of_action (·.nacc) (fun _ _ _ => rfl) hnacc,
    effect_changes_of_action (·.bitcnt) (fun _ _ _ => rfl) hbitcnt,
    effect_changes_of_action (·.root) (fun _ _ _ => rfl) hroot,
    effect_changes_of_action (·.cursor) (fun _ _ _ => rfl) hcursor,
    effect_changes_of_action (·.dtotal) (fun _ _ _ => rfl) hdtotal,
    effect_changes_of_action (·.dcnt) (fun _ _ _ => rfl) hdcnt,
    effect_changes_of_action (·.dbytes) (fun _ _ _ => rfl) hdbytes⟩

end Sys2Proof.Machine
end

section
/-! The family 20_memory.md: packed bits, persisted integers, the encoded stream and the session that writes it, and when
the tables change. -/

namespace Sys2Proof.Machine

/-! ## The encoded stream (20_memory.md R65 to R71) -/

/-- A bit count in range fits a persisted word. -/
theorem toNat_bitCount {c : Config} {n : Nat} (h : n ≤ c.maxCount) : (BitVec.ofNat 32 n).toNat = n := by
  have := c.maxCount_lt_word
  rw [BitVec.toNat_ofNat, Nat.mod_eq_of_lt (by omega)]

theorem encodedStream_length (c : Config) (freq : Vector Word 256) (bits : List Bool) :
    (encodedStream c freq bits).length =
      256 * c.intSize.bytes + packedLength bits.length + c.intSize.bytes := by
  rw [encodedStream, List.length_append, List.length_append, header_length, packBits_length, intBytes_length]

/-- Settles O31: the lengths of header, packed section and trailer. -/
theorem encodedStreamSize : Obligations.EncodedStreamSize := encodedStream_length

/-- Settles O32: the host's reading of each of the three parts. -/
theorem encodedStreamReadsBack : Obligations.EncodedStreamReadsBack := by
  intro c freq bits hfreq hbits
  exact ⟨fun b => headerOf_encodedStream c freq bits (hfreq b),
    (congrArg BitVec.toNat (trailerOf_encodedStream c freq hbits)).trans (toNat_bitCount hbits),
    packedOf_encodedStream c freq hbits⟩

/-- Byte `j` of a packed section packs the bits from number `8 * j` on. -/
theorem packBits_getD {bits : List Bool} {j : Nat} (h : j < (packBits bits).length) :
    (packBits bits).getD j 0 = packedByte (bits.drop (8 * j)) := by
  rw [List.getD_eq_getElem _ _ h]
  simp [packBits]

/-- Settles O30: bit `7 - m % 8` of a packed byte is bit `m % 8` of its group, which starts at bit `8 * (m / 8)`. -/
theorem packedBitPositions : Obligations.PackedBitPositions := by
  refine fun bits => ⟨packBits_length bits, fun m hm => ?_⟩
  rw [packBits_getD (Nat.div_lt_of_lt_mul hm), packedByte_bit _ (Nat.mod_lt m (by decide)),
    List.getD_eq_getElem?_getD, List.getElem?_drop, Nat.div_add_mod, List.getD_eq_getElem?_getD]

/-! ## Persisted integers (20_memory.md R66, R67) -/

theorem bytesLsbFirst_length (c : Config) (v : Word) : (bytesLsbFirst c v).length = c.intSize.bytes := by
  unfold bytesLsbFirst
  cases c.intSize <;> rfl

theorem bytesLsbFirst_getD {c : Config} (v : Word) {k : Nat} (h : k < c.intSize.bytes) :
    (bytesLsbFirst c v).getD k 0 = v.extractLsb' (8 * k) 8 := by
  unfold bytesLsbFirst
  cases hc : c.intSize with
  | two => rw [hc, IntSize.bytes] at h; interval_cases k <;> rfl
  | four => rw [hc, IntSize.bytes] at h; interval_cases k <;> rfl

/-- Settles O33: the bytes from the least significant, reversed when BYTE_ORDER is big; and no other bytes are read as
the same number. -/
theorem intBytesAndBytesInt : Obligations.IntBytesAndBytesInt := by
  intro c v hv
  have hlen := bytesLsbFirst_length c v
  have hread := bytesInt_intBytes hv
  refine ⟨intBytes_length c v, fun k hk hlittle => ?_, fun k hk hbig => ?_, hread,
    fun l hl h => bytesInt_inj hl (intBytes_length c v) (h.trans hread.symm)⟩
  · rw [intBytes, hlittle]
    exact bytesLsbFirst_getD v hk
  · have hin : c.intSize.bytes - 1 - k < (bytesLsbFirst c v).length := by omega
    have hback : (bytesLsbFirst c v).length - 1 - (c.intSize.bytes - 1 - k) = k := by omega
    have hreverse := congrFun (List.getD_reverse _ hin) (0 : Byte)
    rw [hback] at hreverse
    rw [intBytes, hbig]
    exact hreverse.trans (bytesLsbFirst_getD v hk)

/-! ## The encode session (42_encoder.md R170, R175) -/

/-- Settles O29: the state at the end of the session, its bit count being in range of a W-bit number. -/
theorem encodeSessionWritesTheEncodedStream : Obligations.EncodeSessionWritesTheEncodedStream := by
  rintro s inner _ hp hinner rfl hl
  have hcount := toNat_bitCount hl
  refine ⟨_, runsTo_iff.mpr rfl, ?_⟩
  rw [effects_encodeSession inner hinner hp hl]
  refine ⟨rfl, ?_, hcount.trans List.length_flatMap, ?_⟩
  case refine_1 =>
    simp only [withHost, List.length_append, List.length_singleton, registerWords_length]
    rfl
  case refine_2 =>
    simp only [withHost, List.length_append, encodedStream_length, hcount, packedLength]
    omega

/-! ## The tables (20_memory.md R79) -/

/-- The commands that can change a table (10_state.md R45, R46, R47). -/
def tableOpcodes : List Opcode := [.hclr, .hacc, .hld, .cclr, .capp, .nld]

/-- The commands that can change a table are legal in phase IDLE alone (30_encoding.md R104). -/
theorem legalIn_of_mem_tableOpcodes {o : Opcode} (ho : o ∈ tableOpcodes) : legalIn o = fun p => p == .idle := by
  simp only [tableOpcodes, List.mem_cons, List.not_mem_nil, or_false] at ho
  rcases ho with rfl | rfl | rfl | rfl | rfl | rfl <;> rfl

/-- Outside phase IDLE a field stays that no fault writes and that only commands on tables change: such a command is
dropped or raises SeqError there. -/
theorem effect_keeps_outside_idle {α : Type} (f : State → α) {i : Instr} {s : State} {l : List Opcode}
    (hf : ∀ c op v, f (raiseFault c op v s) = f s) (hl : l ⊆ tableOpcodes)
    (ho : f (effect i s) ≠ f s → i.opcode ∈ l) (hp : s.phase ≠ .idle) : f (effect i s) = f s := by
  by_contra hne
  rcases effect_cases i s with ⟨hlegal, -⟩ | ⟨-, -, e⟩ | ⟨-, -, e⟩
  · rw [legalIn_of_mem_tableOpcodes (hl (ho hne))] at hlegal
    exact hp (eq_of_beq hlegal)
  · exact hne (congrArg f e)
  · exact hne ((congrArg f e).trans (hf _ _ _))

/-- Settles O47: each table by the commands whose actions change it, which act in phase IDLE alone. -/
theorem tablesChangeOnlyInIdle : Obligations.TablesChangeOnlyInIdle := by
  intro i s t h
  cases (exec_eq i s).symm.trans h
  obtain ⟨hfreq, hcode, hnode, -⟩ := action_changes i s
  have hfreq := effect_changes_of_action (·.freq) (fun _ _ _ => rfl) hfreq
  have hcode := effect_changes_of_action (·.code) (fun _ _ _ => rfl) hcode
  have hnode := effect_changes_of_action (·.node) (fun _ _ _ => rfl) hnode
  exact ⟨fun hp => ⟨effect_keeps_outside_idle (·.freq) (fun _ _ _ => rfl) (by decide) hfreq hp,
      effect_keeps_outside_idle (·.code) (fun _ _ _ => rfl) (by decide) hcode hp,
      effect_keeps_outside_idle (·.node) (fun _ _ _ => rfl) (by decide)
        (fun hne => List.mem_singleton.mpr (hnode hne)) hp⟩,
    hfreq, hcode, hnode⟩

end Sys2Proof.Machine
end

section
/-! The family 30_encoding.md: decoding and encoding, illegal words, the macro LOADCODE, and the phases a command is
legal in. -/

namespace Sys2Proof

/-! ## Decoding and encoding (30_encoding.md R93, R95, R110) -/

/-- Under the opcode byte and the zero reserved fields of a row, the command read from a word sets the word's own four
fields: an operand is read from each field the format uses, and the others are 0. -/
theorem fields_operandsOf {o : Opcode} {w : Command} (ho : opField w = o.byte)
    (hz : reservedZero o.format w = true) :
    (operandsOf o w).fields = { op := opField w, sym := symField w, idx := idxField w, data := dataField w } := by
  rw [ho]
  cases o <;>
    simp only [Opcode.format, reservedZero, Bool.and_eq_true, beq_iff_eq] at hz <;>
    simp only [operandsOf, Instr.fields, Instr.opcode, hz]
  case capp =>
    obtain ⟨-, htop⟩ := hz
    have hbit := data_of_bit ((dataTop_eq w).symm.trans htop)
    rw [bitField_eq, ← hbit]
  case nld => rw [leftField_eq, rightField_eq, append_extract_halves]

/-- The word of the command a word decodes to is that word. -/
theorem encode_of_decode {w : Command} {i : Instr} (h : decode w = .ok i) : encode i = w := by
  obtain ⟨o, ho, hz, rfl⟩ := decode_ok h
  rw [encode, fields_operandsOf ho hz, word_of_fields]

/-- Settles O2: a command's word carries its opcode byte and its operands in their fields, and a word that decodes has no
bit outside those fields. -/
theorem decodeAndEncodeAgree : Obligations.DecodeAndEncodeAgree :=
  ⟨Machine.decode_word, fun _ _ => encode_of_decode⟩

/-- Two commands have different opcode bytes. -/
theorem Opcode.byte_injective : Function.Injective Opcode.byte := fun o o' h =>
  Option.some.inj (by rw [← opcodeOf_byte o, h, opcodeOf_byte])

/-- A row's mask and match say what the decoder checks: the opcode byte and the reserved fields. -/
theorem and_mask_eq_pattern_iff {o : Opcode} {w : Command} :
    w &&& o.format.mask = o.pattern ↔ opField w = o.byte ∧ reservedZero o.format w = true :=
  beq_iff_eq.symm.trans (selects_iff o w)

/-- Settles O3: a row selects a word exactly when the decoder takes the word for that row's command. -/
theorem decodingIsByMaskAndMatch : Obligations.DecodingIsByMaskAndMatch := by
  refine ⟨fun w o h => ?_, fun w h => ?_, fun w o o' h h' => ?_⟩
  · obtain ⟨hop, hzero⟩ := and_mask_eq_pattern_iff.mp h
    exact decode_of_fields hop hzero
  · cases hd : decode w with
    | error e => exact ⟨e, rfl⟩
    | ok i =>
      obtain ⟨o, hop, hzero, -⟩ := decode_ok hd
      exact absurd (and_mask_eq_pattern_iff.mpr ⟨hop, hzero⟩) (h o)
  · obtain ⟨hop, -⟩ := and_mask_eq_pattern_iff.mp h
    obtain ⟨hop', -⟩ := and_mask_eq_pattern_iff.mp h'
    exact Opcode.byte_injective (hop.symm.trans hop')

/-! ## Illegal words (30_encoding.md R96, R97) -/

/-- The decoder refuses a word whose `op` value is no command's. -/
theorem decode_reservedOpcode {w : Command} (h : ∀ o : Opcode, opField w ≠ o.byte) :
    decode w = .error (.reservedOpcode (opField w)) := by
  have hnone : opcodeOf (opField w) = none :=
    Option.eq_none_iff_forall_ne_some.mpr fun o ho => h o (byte_of_opcodeOf ho)
  simp [decode, hnone]

end Sys2Proof

namespace Sys2Proof.Machine

/-- Settles O4: the decoder refuses both kinds of word, and a refused word raises IllegalCommand or is dropped. -/
theorem illegalWordsRaiseIllegalCommand : Obligations.IllegalWordsRaiseIllegalCommand := by
  refine ⟨by decide +kernel, fun s w rest hhost hillegal => ?_⟩
  obtain ⟨e, he⟩ : ∃ e, decode w = .error e := by
    rcases hillegal with hop | ⟨o, hop, hfield⟩
    · exact ⟨_, decode_reservedOpcode hop⟩
    · exact ⟨_, decode_reservedField hop hfield⟩
  rw [step_illegal hhost he]
  rcases illegalWord_cases w { s with host := rest } with ⟨hfault, hdrop⟩ | ⟨hsession, hraise⟩
  · exact ⟨fun hp => absurd hfault hp, fun _ => congrArg _ hdrop⟩
  · exact ⟨fun _ => congrArg _ hraise, fun hp => absurd hp hsession⟩

/-! ## LOADCODE (30_encoding.md R111, 41_tables.md R150) -/

/-- Settles O24: the run is the fold of the commands' effects, which replaces one code word. -/
theorem loadcodeLoadsACodeWord : Obligations.LoadcodeLoadsACodeWord := by
  intro s b bits hp hl
  refine ⟨withHost [] (writeCode b bits s), runsTo_iff.mpr ?_, rfl, ?_, fun b' hne => ?_⟩
  · rw [effects_loadCode b bits hp hl]
  · exact readCode_writeCode_same b bits s
  · exact readCode_writeCode_ne bits s hne

/-! ## Commands and phases (30_encoding.md R104) -/

/-- A command that acts raises no SeqError: what it can raise has another cause. -/
theorem fc_of_action_seqError {i : Instr} {s : State} (h : (action i s).fc = some .seqError) :
    s.fc = some .seqError := by
  cases i <;> simp only [action] at h
  case rst => exact nomatch h
  case hacc b =>
    rcases countSymbol_cases b s with e | e <;> rw [e] at h
    exacts [(nomatch h), h]
  case hld k v =>
    rcases loadCount_cases k v s with e | e <;> rw [e] at h
    exacts [(nomatch h), h]
  case capp b bit =>
    rcases appendCodeBit_cases b bit s with e | e <;> rw [e] at h
    exacts [(nomatch h), h]
  case nld n v l r =>
    rcases loadNode_cases n v l r s with ⟨_, e⟩ | ⟨_, _, _, e⟩ <;> rw [e] at h
    exacts [(nomatch h), h]
  case esym b =>
    rcases encodeSymbol_cases b s with e | ⟨e, -⟩ <;> rw [e] at h
    exacts [(nomatch h), h]
  case eend => rwa [(closeEncode_frame s).1] at h
  case dbegin root total =>
    rcases openDecode_cases root total s with ⟨_, e⟩ | ⟨_, _, _, e⟩ <;> rw [e] at h
    exacts [(nomatch h), h]
  case dbyte b =>
    rcases decodeByte_frame b s with ⟨t, -, -, e⟩ | ⟨t, ht, -, e⟩ <;> rw [e] at h
    · exact nomatch h
    · rwa [ht] at h
  all_goals exact h

/-- Settles O43: the entries `ok` of the matrix are the phases of `legalIn`, which decide what the phase check does. -/
theorem phaseMatrix : Obligations.PhaseMatrix := by
  intro i s ok
  have hok : ok ↔ legalIn i.opcode s.phase = true := by
    simp only [ok]
    cases i.opcode <;> simp only [legalIn, beq_iff_eq]
    case nop => cases s.phase <;> decide
  rw [hok, exec_eq]
  refine ⟨?_, ?_, ?_, ?_, ?_⟩
  · intro hillegal hsession
    exact congrArg _ (whenLegal_seqError (Bool.eq_false_of_not_eq_true hillegal) hsession)
  · intro hillegal hfault
    exact congrArg _ (whenLegal_dropped hfault (hfault ▸ Bool.eq_false_of_not_eq_true hillegal))
  · rintro hlegal t ht hfc
    cases ht
    rw [effect_legal hlegal] at hfc
    exact fc_of_action_seqError hfc
  · rintro rfl
    exact congrArg _ (effect_legal rfl)
  · rintro r rfl
    exact congrArg _ (effect_rdreg r s)

/-! ## Every command answers a next state (30_encoding.md R95, R104) -/

theorem illegalWord_config (w : Command) (s : State) : (illegalWord w s).config = s.config := by
  rcases illegalWord_cases w s with ⟨-, e⟩ | ⟨-, e⟩
  · rw [e]
  · rw [e, raiseFault_config]

/-- No step changes the parameters. -/
theorem step_next_config (s : State) : ∃ t, step s = .next t ∧ t.config = s.config := by
  rcases step_cases s with ⟨-, e⟩ | ⟨rest, -, e⟩ | ⟨w, rest, i, -, -, e⟩ | ⟨w, rest, -, -, -, e⟩
  · exact ⟨_, e, rfl⟩
  · exact ⟨_, e, rfl⟩
  · exact ⟨_, e, (effect_frame i _).1⟩
  · exact ⟨_, e, illegalWord_config w _⟩

/-- Settles O6: a command's effect keeps the parameters and the model's own fields, and so does a step the parameters. -/
theorem everyCommandAnswersANextState : Obligations.EveryCommandAnswersANextState :=
  ⟨fun i s => ⟨effect i s, exec_eq i s, effect_frame i s⟩, step_next_config⟩

end Sys2Proof.Machine
end

section
/-! The family 40_histogram.md: clearing, counting, loading and reading the counts, and a loaded table in place of
counting. -/

namespace Sys2Proof.Machine

/-! ## What a command legal in phase IDLE does there -/

theorem exec_of_idle {i : Instr} {s : State} (hp : s.phase = .idle) (hl : legalIn i.opcode .idle = true) :
    exec i s = .next (action i s) := by
  rw [exec_eq, effect_legal (by rw [hp]; exact hl)]

theorem raiseFault_of_idle {s : State} (hp : s.phase = .idle) (cause : Cause) (op : Byte) (info : Word) :
    raiseFault cause op info s =
      { s with fc := some cause, fphase := .idle, fop := op, finfo := info, phase := .fault } := by
  rw [raiseFault, hp]

/-! ## Both sides of MAXCOUNT (40_histogram.md R132, R133, R135) -/

theorem countSymbol_of_lt {b : Byte} {s : State} (h : (readFreq b s).toNat < s.config.maxCount) :
    countSymbol b s = writeFreq b (readFreq b s + 1) s := if_neg (by omega)

theorem countSymbol_of_ge {b : Byte} {s : State} (h : s.config.maxCount ≤ (readFreq b s).toNat) :
    countSymbol b s = raiseFault .histOverflow Opcode.hacc.byte (b.setWidth 32) s := if_pos h

theorem loadCount_of_le {i : Byte} {v : Word} {s : State} (h : v.toNat ≤ s.config.maxCount) :
    loadCount i v s = writeFreq i v s := by
  rw [loadCount, countOperand_eq_some.mpr ⟨h, rfl⟩]

theorem loadCount_of_gt {i : Byte} {v : Word} {s : State} (h : s.config.maxCount < v.toNat) :
    loadCount i v s = raiseFault .illegalOperand Opcode.hld.byte v s := by
  rw [loadCount, countOperand_eq_none.mpr h]

/-- A count below MAXCOUNT has room for one more in its word. -/
theorem toNat_add_one_of_lt_maxCount {c : Config} {v : Word} (h : v.toNat < c.maxCount) :
    (v + 1).toNat = v.toNat + 1 := by
  have hm := c.maxCount_lt_word
  exact BitVec.toNat_add_of_lt (show v.toNat + 1 < 2 ^ 32 by omega)

/-! ## One command -/

/-- Settles O17: below MAXCOUNT a write of the count plus one, which cannot wrap; from MAXCOUNT on the fault. -/
theorem haccCountsOneOccurrence : Obligations.HaccCountsOneOccurrence := by
  intro s b hp
  rw [exec_of_idle hp rfl, action]
  constructor
  · intro h
    refine ⟨_, congrArg _ (countSymbol_of_lt h), rfl, ?_, fun b' hne => readFreq_writeFreq_ne _ s hne⟩
    rw [readFreq_writeFreq_same, toNat_add_one_of_lt_maxCount h]
  · intro h
    rw [countSymbol_of_ge h, raiseFault_of_idle hp]
    rfl

/-- Settles O16: what HCLR does in phase IDLE is `clearFreq`. -/
theorem hclrClearsEveryCount : Obligations.HclrClearsEveryCount := fun s hp =>
  ⟨clearFreq s, exec_of_idle hp rfl, rfl, fun b => readFreq_clearFreq b s⟩

/-- Settles O18: the operand check decides between a write of the count and the fault. -/
theorem hldLoadsOneCount : Obligations.HldLoadsOneCount := by
  intro s i v hp
  rw [exec_of_idle hp rfl, action]
  constructor
  · intro h
    exact ⟨_, congrArg _ (loadCount_of_le h), rfl, readFreq_writeFreq_same i v s,
      fun b hne => readFreq_writeFreq_ne v s hne⟩
  · intro h
    rw [loadCount_of_gt h, raiseFault_of_idle hp]
    rfl

/-- Settles O19: a response keeps PHASE and FREQ, so the second HRD responds as the first does. -/
theorem hrdRespondsTheCount : Obligations.HrdRespondsTheCount := by
  intro s i hp
  refine ⟨respond (readFreq i s) s, _, exec_of_idle hp rfl, rfl, exec_of_idle hp rfl, ?_⟩
  exact List.append_assoc s.rsp [readFreq i s] [readFreq i s]

/-! ## Loading in place of counting (49_host_contract.md R250) -/

/-- Steps 1 and 2 of encoding: the counts stand in FREQ and are what RSP gains. -/
theorem effects_countingCommands {freq : Byte → Word} {input : List Byte} {s : State} (hp : s.phase = .idle)
    (hl : ∀ b, input.count b ≤ s.config.maxCount) (hfreq : ∀ b, (freq b).toNat = input.count b) :
    ∃ f, effects (countingCommands input) s = withRsp (s.rsp ++ allSymbols.map freq) { s with freq := f } ∧
      ∀ b, symGet f b = freq b := by
  obtain ⟨f, hf, hcount⟩ := effects_hist input hp hl
  have hread : ∀ b, symGet f b = freq b := fun b => BitVec.eq_of_toNat_eq ((hcount b).trans (hfreq b).symm)
  have hmap : (allSymbols.map fun b => readFreq b { s with freq := f }) = allSymbols.map freq :=
    List.map_congr_left fun b _ => hread b
  refine ⟨f, ?_, hread⟩
  rw [countingCommands, effects_append, hf, effects_hrd allSymbols (s := { s with freq := f }) hp, hmap]

/-- Settles O53: loading and counting each change FREQ to the one table with the given counts, and the responses are the
words HRD reads there. -/
theorem loadingCountsReplacesCounting : Obligations.LoadingCountsReplacesCounting := by
  constructor
  · intro s freq hp hl
    obtain ⟨f, hload, hread⟩ := effects_loadingCommands freq hp hl
    exact ⟨withHost [] { s with freq := f }, runsTo_iff.mpr (by rw [hload]), rfl, hread⟩
  · intro s freq input hp hl hfreq
    obtain ⟨f, hcounting, hread⟩ := effects_countingCommands hp hl hfreq
    obtain ⟨g, hload, hread'⟩ := effects_loadingCommands freq hp fun b => (hfreq b).trans_le (hl b)
    have htable : g = f := symGet_ext fun b => (hread' b).trans (hread b).symm
    refine ⟨_, _, runsTo_iff.mpr rfl, runsTo_iff.mpr rfl, ?_, ?_⟩
    · rw [hcounting, hload, htable]
      rfl
    · rw [hcounting]
      rfl

end Sys2Proof.Machine
end

section
/-! The family 41_tables.md: loading the code table and the tree, and the round trip through the block when the two
agree. -/

namespace Sys2Proof.Machine

/-! ## The round trip when the tables agree (41_tables.md R154, 49_host_contract.md R255) -/

/-- DECODE of what a host reads off a stream whose bits are the code words of an input: it emits the input when NODE
agrees with the code table, which may be another state's. -/
theorem effects_decode_encodedStream {s t : State} {c : Config} (hc : t.config = c) (hnode : s.node = t.node)
    (hp : t.phase = .idle) {root : BitVec 16} {k : NodeIdx} (hk : root.toNat = k.val) {input : List Byte}
    (hagree : tablesAgree s k input) (freq : Vector Word 256) (hl : (codeBits s input).length ≤ c.maxCount) :
    effects (decodeSession root (trailerOf c (encodedStream c freq (codeBits s input)))
        (packedOf c (encodedStream c freq (codeBits s input)))) t =
      { t with
        root := k, cursor := k, dtotal := BitVec.ofNat 32 (codeBits s input).length
        dcnt := BitVec.ofNat 32 (codeBits s input).length
        dbytes := BitVec.ofNat 32 (packBits (codeBits s input)).length, out := t.out ++ input, ddone := true } := by
  have hwalk : treeWalk { t with root := k } (codeBits s input) k = some (k, input) :=
    treeWalk_codeBits (u := { t with root := k }) hnode rfl hagree
  rw [trailerOf_encodedStream c freq hl, packedOf_encodedStream c freq hl, effects_decode hp hk (hc ▸ hl) hwalk]

theorem runsTo_of_effects {cmds : List Instr} {s t : State} (h : effects cmds s = t) : runsTo cmds s (withHost [] t) :=
  runsTo_iff.mpr (congrArg (withHost []) h.symm)

/-- The run of ENCODE, in what a decode session after it needs. -/
theorem runsTo_encodeSession {s : State} {input : List Byte} (hp : s.phase = .idle)
    (hl : (codeBits s input).length ≤ s.config.maxCount) :
    ∃ t, runsTo (encodeSession input) s t ∧ t.out = s.out ++ encodedStream s.config s.freq (codeBits s input) ∧
      t.config = s.config ∧ t.node = s.node ∧ t.phase = .idle ∧ t.fc = s.fc :=
  ⟨_, runsTo_of_effects (effects_encode input hp hl), rfl, rfl, rfl, hp, rfl⟩

/-- Settles O51: the encode session appends the stream and leaves NODE and PHASE, so the decode session that reads the
stream emits the input. -/
theorem blockRoundTrip : Obligations.BlockRoundTrip := by
  intro s root k input hp hk hagree hl
  obtain ⟨t, hencode, hout, hconfig, hnode, hidle, hfc⟩ := runsTo_encodeSession hp hl
  have hdecode := effects_decode_encodedStream hconfig hnode.symm hidle hk hagree s.freq hl
  exact ⟨t, _, _, hencode, hout, runsTo_of_effects hdecode, rfl, hidle, rfl, hfc⟩

/-! ## One code word (41_tables.md R151, R152) -/

/-- Settles O21: what CCLR does in phase IDLE is a write of the empty word. -/
theorem cclrEmptiesOneCodeWord : Obligations.CclrEmptiesOneCodeWord := fun s b hp =>
  ⟨writeCode b [] s, exec_of_idle hp rfl, rfl, readCode_writeCode_same b [] s,
    fun _ hne => readCode_writeCode_ne [] s hne⟩

theorem appendCodeBit_of_lt {b : Byte} {bit : Bool} {s : State} (h : (readCode b s).length < Config.codeMax) :
    appendCodeBit b bit s = writeCode b (readCode b s ++ [bit]) s := if_neg (Nat.not_le_of_lt h)

theorem appendCodeBit_of_ge {b : Byte} {bit : Bool} {s : State} (h : Config.codeMax ≤ (readCode b s).length) :
    appendCodeBit b bit s = raiseFault .codeTooLong Opcode.capp.byte (b.setWidth 32) s := if_pos h

/-- Settles O22: below CODE_MAX a write of the word with the bit at its end; from CODE_MAX on the fault. -/
theorem cappAppendsOneBit : Obligations.CappAppendsOneBit := by
  intro s b bit hp
  rw [exec_of_idle hp rfl, action]
  constructor
  · intro h
    exact ⟨_, congrArg _ (appendCodeBit_of_lt h), rfl, readCode_writeCode_same b _ s,
      fun _ hne => readCode_writeCode_ne _ s hne⟩
  · intro h
    rw [appendCodeBit_of_ge h, raiseFault_of_idle hp]
    rfl

/-! ## The operands of NLD (30_encoding.md R93) -/

theorem exists_nodeIndexOperand {n : BitVec 16} (h : n.toNat ≤ 510) : ∃ k, nodeIndexOperand n = some k :=
  Option.ne_none_iff_exists'.mp fun hnone => Nat.not_lt_of_le h (nodeIndexOperand_eq_none.mp hnone)

theorem exists_childOperand {l : BitVec 16} (h : l.toNat ≤ 511) : ∃ child, childOperand l = some child :=
  Option.ne_none_iff_exists'.mp fun hnone => Nat.not_lt_of_le h (childOperand_eq_none.mp hnone)

/-- The child an operand stands for: the entry of that index, or none for 511. -/
theorem eq_some_and_eq_none_of_childOperand {l : BitVec 16} {child : Child} (h : childOperand l = some child) :
    (∀ k, child = some k ↔ l.toNat = k.val) ∧ (child = none ↔ l.toNat = 511) := by
  simp only [← childOperand_eq_index, ← childOperand_eq_nil, h, Option.some_inj, implies_true, and_self]

/-! ## The checks of NLD in their order (41_tables.md R153) -/

section
variable {n l r : BitVec 16} {v : Byte} {s : State}

theorem loadNode_of_index_gt (hn : 510 < n.toNat) :
    loadNode n v l r s = raiseFault .illegalOperand Opcode.nld.byte (n.setWidth 32) s := by
  rw [loadNode, nodeIndexOperand_eq_none.mpr hn]

theorem loadNode_of_left_gt (hn : n.toNat ≤ 510) (hl : 511 < l.toNat) :
    loadNode n v l r s = raiseFault .illegalOperand Opcode.nld.byte (l.setWidth 32) s := by
  obtain ⟨k, hk⟩ := exists_nodeIndexOperand hn
  simp only [loadNode, hk, childOperand_eq_none.mpr hl]

theorem loadNode_of_right_gt (hn : n.toNat ≤ 510) (hl : l.toNat ≤ 511) (hr : 511 < r.toNat) :
    loadNode n v l r s = raiseFault .illegalOperand Opcode.nld.byte (r.setWidth 32) s := by
  obtain ⟨k, hk⟩ := exists_nodeIndexOperand hn
  obtain ⟨left, hleft⟩ := exists_childOperand hl
  simp only [loadNode, hk, hleft, childOperand_eq_none.mpr hr]

end

/-- Settles O23: with the three operands in range a write of the entry they stand for, each child read by its operand;
else the fault of the first check that fails. -/
theorem nldLoadsOneNode : Obligations.NldLoadsOneNode := by
  intro s n v l r hp
  refine ⟨fun k hk hl hr => ?_, fun hn => ?_, fun hn hl => ?_, fun hn hl hr => ?_⟩
  · obtain ⟨left, hleft⟩ := exists_childOperand hl
    obtain ⟨right, hright⟩ := exists_childOperand hr
    obtain ⟨hleftIndex, hleftNil⟩ := eq_some_and_eq_none_of_childOperand hleft
    obtain ⟨hrightIndex, hrightNil⟩ := eq_some_and_eq_none_of_childOperand hright
    refine ⟨_, (exec_eq _ s).trans (congrArg _ (effect_nld hp hk hleft hright)), rfl, ?_⟩
    rw [readNode_writeNode_same]
    exact ⟨rfl, hleftIndex, hleftNil, hrightIndex, hrightNil, fun _ hne => readNode_writeNode_ne _ s hne⟩
  · rw [exec_of_idle hp rfl, action, loadNode_of_index_gt hn, raiseFault_of_idle hp]
    rfl
  · rw [exec_of_idle hp rfl, action, loadNode_of_left_gt hn hl, raiseFault_of_idle hp]
    rfl
  · rw [exec_of_idle hp rfl, action, loadNode_of_right_gt hn hl hr, raiseFault_of_idle hp]
    rfl

end Sys2Proof.Machine
end

section
/-! The family 42_encoder.md: the commands of an encode session, from the header to the trailer. -/

namespace Sys2Proof.Machine

/-! ## What a command of the session does in the phase it is legal in -/

theorem exec_of_enc {i : Instr} {s : State} (hp : s.phase = .enc) (hl : legalIn i.opcode .enc = true) :
    exec i s = .next (action i s) := by
  rw [exec_eq, effect_legal (by rw [hp]; exact hl)]

theorem raiseFault_of_enc {s : State} (hp : s.phase = .enc) (cause : Cause) (op : Byte) (info : Word) :
    raiseFault cause op info s =
      { s with fc := some cause, fphase := .enc, fop := op, finfo := info, phase := .fault } := by
  rw [raiseFault, hp]

/-! ## A bit string as full bytes and a rest (20_memory.md R68, R69) -/

theorem take_packBits (l : List Bool) : (packBits l).take (l.length / 8) = fullBytes l := by
  rw [packBits_eq, List.take_left' (fullBytes_length l)]

theorem packBits_of_length_lt {l : List Bool} (h : l.length < 8) :
    packBits l = if l.length = 0 then [] else [packedByte l] := by
  rw [packBits_eq, fullBytes_short h, leftover_short h, Nat.mod_eq_of_lt h, List.nil_append]

/-! ## Both sides of MAXCOUNT, and the end of a session (42_encoder.md R172, R174) -/

theorem encodeSymbol_of_le {b : Byte} {s : State}
    (h : s.bitcnt.toNat + (readCode b s).length ≤ s.config.maxCount) :
    encodeSymbol b s =
      { pushBits (readCode b s) s with bitcnt := s.bitcnt + BitVec.ofNat 32 (readCode b s).length } :=
  if_neg (Nat.not_lt_of_le h)

theorem encodeSymbol_of_gt {b : Byte} {s : State}
    (h : s.config.maxCount < s.bitcnt.toNat + (readCode b s).length) :
    encodeSymbol b s = raiseFault .bitcountOverflow Opcode.esym.byte (b.setWidth 32) s := if_pos h

/-- A bit count in range does not wrap. -/
theorem toNat_add_of_le_maxCount {c : Config} {v : Word} {n : Nat} (h : v.toNat + n ≤ c.maxCount) :
    (v + BitVec.ofNat 32 n).toNat = v.toNat + n := by
  have hm := c.maxCount_lt_word
  rw [BitVec.toNat_add, BitVec.toNat_ofNat]
  omega

theorem closeEncode_of_holds {s : State} {r : List Bool} (h : Holds s r) :
    closeEncode s = { s with
      out := s.out ++ packBits r ++ intBytes s.config s.bitcnt
      rsp := s.rsp ++ [s.bitcnt], acc := 0, nacc := 0, phase := .idle } := by
  rw [packBits_of_length_lt h.length_lt, closeEncode, flushPartial_of_holds h]
  rfl

/-! ## The commands -/

/-- Settles O26: without an overflow the bits held and the code word are cut into full bytes and a rest, and the new bit
count cannot wrap; beyond MAXCOUNT the fault. -/
theorem esymAppendsACodeWord : Obligations.EsymAppendsACodeWord := by
  intro s b hp hacc
  have hs := holds_pendingBits hacc
  rw [exec_of_enc hp rfl, action]
  constructor
  · intro h
    have hlen : s.nacc.toNat + (readCode b s).length = (pendingBits s ++ readCode b s).length := by
      rw [List.length_append, hs.length]
    have hrest := leftover_length (pendingBits s ++ readCode b s)
    have ht := holds_setPending (emitAll (fullBytes (pendingBits s ++ readCode b s)) s)
      (hrest.trans_lt (Nat.mod_lt _ (by decide)))
    refine ⟨_, congrArg _ (encodeSymbol_of_holds hs b h), rfl, ?_, ?_, ?_, ht.acc_lt, toNat_add_of_le_maxCount h⟩
    · rw [hlen, take_packBits]
      rfl
    · rw [hlen]
      exact ht.pendingBits_eq
    · rw [hlen]
      exact ht.length.trans hrest
  · intro h
    rw [encodeSymbol_of_gt h, raiseFault_of_enc hp]
    rfl

/-- Settles O28: the accumulator holds fewer than eight bits, so its flush is the packed section of what it holds. -/
theorem eendClosesTheSession : Obligations.EendClosesTheSession := fun _ hp hacc =>
  (exec_of_enc hp rfl).trans (congrArg _ (closeEncode_of_holds (holds_pendingBits hacc)))

/-- Settles O25: what EBEGIN does in phase IDLE is `openEncode`, and the header has the integer of each symbol in its
place. -/
theorem ebeginWritesTheHeader : Obligations.EbeginWritesTheHeader := fun s hp =>
  ⟨openEncode s, headerBytes s, exec_of_idle hp rfl, rfl, header_length s.config s.freq,
    fun b => header_piece s.config s.freq b⟩

/-- Settles O27: no bit is pushed, and the bit count grows by 0. -/
theorem esymOfAnEmptyCodeWord : Obligations.EsymOfAnEmptyCodeWord := by
  intro s b hp hcount hempty
  have hle : s.bitcnt.toNat + (readCode b s).length ≤ s.config.maxCount := by rw [hempty]; exact hcount
  rw [exec_of_enc hp rfl, action, encodeSymbol_of_le hle, hempty]
  simp [pushBits]

end Sys2Proof.Machine
end

section
/-! The family 43_decoder.md: opening a decode session, and one packed byte of it. -/

namespace Sys2Proof.Machine

/-! ## The checks of DBEGIN in their order (43_decoder.md R191) -/

theorem openDecode_of_root_gt {root : BitVec 16} {total : Word} {s : State} (hroot : 510 < root.toNat) :
    openDecode root total s = raiseFault .illegalOperand Opcode.dbegin.byte (root.setWidth 32) s := by
  rw [openDecode, nodeIndexOperand_eq_none.mpr hroot]

theorem openDecode_of_total_gt {root : BitVec 16} {total : Word} {s : State} (hroot : root.toNat ≤ 510)
    (htotal : s.config.maxCount < total.toNat) :
    openDecode root total s = raiseFault .illegalOperand Opcode.dbegin.byte total s := by
  obtain ⟨k, hk⟩ := exists_nodeIndexOperand hroot
  simp only [openDecode, hk, countOperand_eq_none.mpr htotal]

/-- Settles O34: with both operands in range the session opens, or is complete at bit count 0; else the fault of the
first check that fails. -/
theorem dbeginOpensADecodeSession : Obligations.DbeginOpensADecodeSession := by
  intro s root total hp
  refine ⟨fun k hk hle hne => ?_, fun k hk hzero => ?_, fun hroot => ?_, fun hroot htotal => ?_⟩
  · rw [exec_eq, effect_dbegin hp hk hle, if_neg hne]
    rfl
  · subst hzero
    rw [exec_eq, effect_dbegin hp hk (Nat.zero_le _), if_pos rfl]
  · rw [exec_of_idle hp rfl, action, openDecode_of_root_gt hroot, raiseFault_of_idle hp]
    rfl
  · rw [exec_of_idle hp rfl, action, openDecode_of_total_gt hroot htotal, raiseFault_of_idle hp]
    rfl

/-! ## The bits a packed byte still has to give (43_decoder.md R193, R196) -/

theorem bitsOf_eq_map_range (b : Byte) : bitsOf b = (List.range 8).map fun k => b.getLsbD (7 - k) := rfl

theorem wantedBits_eq_map_range (b : Byte) (s : State) :
    wantedBits b s = (List.range (min (s.dtotal.toNat - s.dcnt.toNat) 8)).map fun k => b.getLsbD (7 - k) := by
  rw [wantedBits, bitsOf_eq_map_range, ← List.map_take, List.take_range]

theorem wantedBits_congr {b b' : Byte} {s : State}
    (h : ∀ k, k < 8 → k < s.dtotal.toNat - s.dcnt.toNat → b.getLsbD (7 - k) = b'.getLsbD (7 - k)) :
    wantedBits b s = wantedBits b' s := by
  rw [wantedBits_eq_map_range, wantedBits_eq_map_range]
  refine List.map_congr_left fun k hk => ?_
  obtain ⟨hwanted, hbyte⟩ := lt_min_iff.mp (List.mem_range.mp hk)
  exact h k hbyte hwanted

/-- DCNT after a byte whose wanted bits all find a child. -/
theorem toNat_dcnt_add_wantedBits (b : Byte) {s : State} (hle : s.dcnt.toNat ≤ s.dtotal.toNat) :
    (s.dcnt + BitVec.ofNat 32 (wantedBits b s).length).toNat = min (s.dcnt.toNat + 8) s.dtotal.toNat := by
  have hlt := s.dtotal.isLt
  rw [wantedBits_length, BitVec.toNat_add, BitVec.toNat_ofNat]
  omega

/-- A byte reaches the bit count exactly when at most eight bits were missing. -/
theorem dcnt_add_wantedBits_eq_dtotal (b : Byte) {s : State} (hle : s.dcnt.toNat ≤ s.dtotal.toNat) :
    s.dcnt + BitVec.ofNat 32 (wantedBits b s).length = s.dtotal ↔ s.dtotal.toNat ≤ s.dcnt.toNat + 8 := by
  rw [← BitVec.toNat_inj, toNat_dcnt_add_wantedBits b hle, min_eq_right_iff]

/-! ## One packed byte -/

theorem exec_dbyte_of_dec {s : State} (hp : s.phase = .dec) (b : Byte) :
    exec (.dbyte b) s = .next (decodeByte b s) := by
  rw [exec_eq, effect_legal (by rw [hp]; rfl), action]

theorem whenLegal_congr (o : Opcode) {act act' : State → State} {s : State} (h : act s = act' s) :
    whenLegal o act s = whenLegal o act' s := by
  rw [whenLegal, whenLegal, h]

theorem exec_dbyte_congr {b b' : Byte} {s : State} (h : decodeByte b s = decodeByte b' s) :
    exec (.dbyte b) s = exec (.dbyte b') s := by
  rw [exec_eq, exec_eq]
  exact congrArg _ (whenLegal_congr .dbyte h)

/-- Settles O35: the loop ends where the walk does, and the session closes when the bits taken reach the bit count. -/
theorem dbyteWalksTheTree : Obligations.DbyteWalksTheTree := by
  intro s b n emitted hp hlt hwalk
  have hle := hlt.le
  have hlast := dcnt_add_wantedBits_eq_dtotal b hle
  rw [exec_dbyte_of_dec hp, decodeByte_of_some hle hwalk, finishByte_walkedTo]
  refine ⟨_, rfl, rfl, toNat_dcnt_add_wantedBits b hle, fun h => ?_, fun h => ?_⟩
  · have hend := hlast.mpr h
    exact ⟨if_pos hend, if_pos hend⟩
  · have hopen := mt hlast.mp (Nat.not_le_of_lt h)
    exact ⟨(if_neg hopen).trans hp, if_neg hopen⟩

/-- Settles O36: the loop stops in the state the bits before the offending one left, and the fault is raised there. -/
theorem dbyteCorruptionFault : Obligations.DbyteCorruptionFault := by
  intro s b good bad rest n emitted hp hle hbits hwalk habsent
  have hphase : (walkedTo s n good.length emitted).phase = .dec := hp
  rw [exec_dbyte_of_dec hp, decodeByte_of_absent hle hbits hwalk habsent, raiseFault, hphase]
  rfl

/-- Settles O37: bytes that differ in padding alone have the same wanted bits, and DBYTE sees no others. -/
theorem paddingIsIgnored : Obligations.PaddingIsIgnored := fun _ _ _ hle hagree =>
  exec_dbyte_congr (decodeByte_congr hle (wantedBits_congr hagree))

end Sys2Proof.Machine
end

section
/-! The family 44_system.md: NOP and its word, and the three system commands against phase FAULT and the tables. -/

namespace Sys2Proof.Machine

/-! ## The system commands in every phase (44_system.md R210, R211, R212) -/

/-- NOP is legal outside phase FAULT and dropped in it, so it has no effect in any phase. -/
theorem effect_nop (s : State) : effect .nop s = s :=
  (effect_watch rfl s).trans (by simp [rdregOperand, withRsp])

theorem effect_rst (s : State) : effect .rst s = resetControl s := effect_legal rfl

theorem regword_withTables (freq : Vector Word 256) (code : Vector (List Bool) 256) (node : Vector Node 511)
    (r : Byte) (s : State) : regword r (withTables freq code node s) = regword r s := rfl

/-- A system command does the same with any tables, and leaves them as they are. -/
theorem effect_withTables_of_system (freq : Vector Word 256) (code : Vector (List Bool) 256) (node : Vector Node 511)
    {i : Instr} (hi : i = .nop ∨ i = .rst ∨ ∃ r, i = .rdreg r) (s : State) :
    effect i (withTables freq code node s) = withTables freq code node (effect i s) := by
  rcases hi with rfl | rfl | ⟨r, rfl⟩
  · rw [effect_nop, effect_nop]
  · rw [effect_rst, effect_rst]
    rfl
  · rw [effect_rdreg, effect_rdreg, regword_withTables]
    rfl

/-- A system command writes no table. -/
theorem effect_tables_of_system {i : Instr} (hi : i = .nop ∨ i = .rst ∨ ∃ r, i = .rdreg r) (s : State) :
    (effect i s).freq = s.freq ∧ (effect i s).code = s.code ∧ (effect i s).node = s.node := by
  have h : effect i s = withTables s.freq s.code s.node (effect i s) :=
    effect_withTables_of_system s.freq s.code s.node hi s
  exact ⟨congrArg (·.freq) h, congrArg (·.code) h, congrArg (·.node) h⟩

/-- Settles O15: in phase FAULT a command other than RST and RDREG is dropped, and the effect of a system command commutes
with exchanging the tables. -/
theorem systemCommandsIgnoreTheTables : Obligations.SystemCommandsIgnoreTheTables := by
  refine ⟨fun i s hp hrdreg hrst => ?_, fun p => ⟨rfl, rfl⟩, fun i s t freq code node hi h => ?_⟩
  · rw [exec_eq]
    rcases effect_in_fault hp i with hdrop | ⟨rfl, -⟩ | ⟨r, rfl, -⟩
    · rw [hdrop]
    · exact absurd rfl hrst
    · exact absurd rfl (hrdreg r)
  · cases (exec_eq i s).symm.trans h
    obtain ⟨hfreq, hcode, hnode⟩ := effect_tables_of_system hi s
    exact ⟨hfreq, hcode, hnode,
      (exec_eq _ _).trans (congrArg _ (effect_withTables_of_system freq code node hi s))⟩

/-! ## The word of NOP (44_system.md R211) -/

theorem encode_nop : encode .nop = 0x0000000000000000 := by decide

theorem decode_eq_ok_nop_iff {w : Command} : decode w = .ok .nop ↔ w = 0x0000000000000000 := by
  constructor
  · intro h
    rw [← encode_of_decode h, encode_nop]
  · rintro rfl
    rw [← encode_nop, decode_word]

/-- With the opcode byte of NOP, every word but the all-zero one has a reserved bit 1. -/
theorem reservedZero_of_opField_zero {w : Command} (hop : opField w = 0x00) (hne : w ≠ 0) :
    reservedZero Opcode.nop.format w = false :=
  Bool.eq_false_of_not_eq_true fun hzero => hne (decode_eq_ok_nop_iff.mp (decode_of_fields (o := .nop) hop hzero))

/-- Settles O12: NOP's effect is the identity, its word is the only one that encodes it, and any other word with its `op`
has a reserved field that is not 0, which raises IllegalCommand. -/
theorem nopHasNoEffect : Obligations.NopHasNoEffect := by
  refine ⟨fun s => (exec_eq .nop s).trans (congrArg _ (effect_nop s)), fun w => decode_eq_ok_nop_iff,
    fun s w rest hhost hop hne hsession => ?_⟩
  have hreserved := reservedZero_of_opField_zero hop hne
  obtain ⟨-, hillegal⟩ := illegalWordsRaiseIllegalCommand
  obtain ⟨hraise, -⟩ := hillegal s w rest hhost (.inr ⟨.nop, hop, hreserved⟩)
  rw [hraise hsession, show w.extractLsb' 56 8 = 0x00 from hop]

end Sys2Proof.Machine
end

section
/-! The family 49_host_contract.md: the tree of the builder, and the round trips through the block and its host. -/

namespace Sys2Proof.Machine

/-! ## A tree with one leaf for each byte value (49_host_contract.md R236, R241, R242) -/

section
variable {t : Tree}

theorem Tree.symbols_length (ht : t.symbols.Perm allSymbols) : t.symbols.length = 256 :=
  ht.length_eq.trans allSymbols_length

theorem Tree.size_of_allSymbols (ht : t.symbols.Perm allSymbols) : t.size = 511 := by
  have hsize := t.size_eq
  rw [Tree.symbols_length ht] at hsize
  omega

theorem Tree.codeOf_mem_codes (ht : t.symbols.Perm allSymbols) (b : Byte) : (b, t.codeOf b) ∈ t.codes :=
  Tree.mem_codeOf (ht.mem_iff.mpr (mem_allSymbols b))

/-- The root of 511 nodes is no leaf, so every code word takes a step from it. -/
theorem Tree.codeOf_ne_nil (ht : t.symbols.Perm allSymbols) (b : Byte) : t.codeOf b ≠ [] := by
  cases t with
  | leaf v f => exact absurd (Tree.size_of_allSymbols ht) (show ¬ 1 = 511 by decide)
  | inner f l r => exact Tree.codes_inner_ne_nil (Tree.codeOf_mem_codes ht b)

theorem Tree.codeOf_length_le (ht : t.symbols.Perm allSymbols) (b : Byte) : (t.codeOf b).length ≤ Config.codeMax := by
  have hlt := Tree.length_lt (Tree.codeOf_mem_codes ht b)
  have hlen := Tree.symbols_length ht
  rw [Tree.symbols, List.length_map] at hlen
  exact Nat.le_of_lt_succ (hlt.trans_eq hlen)

end

/-- Settles O49: the builder's tree has one leaf for each byte value, and the rest holds of every such tree. -/
theorem builderMakesAPrefixCode : Obligations.BuilderMakesAPrefixCode := by
  intro tie freq
  obtain ⟨t, hbuild, ht, hfreq⟩ := buildTree_some tie freq
  refine ⟨t, hbuild, Tree.size_of_allSymbols ht, ht, hfreq, fun b => ⟨?_, Tree.codeOf_length_le ht b⟩, ?_⟩
  · exact List.length_pos_iff.mpr (Tree.codeOf_ne_nil ht b)
  · intro b b' hne hprefix
    exact hne (Tree.codes_prefix_free (Tree.codeOf_mem_codes ht b) (Tree.codeOf_mem_codes ht b') hprefix).1

/-! ## The empty input (49_host_contract.md R259) -/

theorem intBytes_zero (c : Config) : intBytes c 0 = List.replicate c.intSize.bytes 0 := by
  obtain ⟨size, order⟩ := c
  cases size <;> cases order <;> rfl

/-- With every count 0 and no bits, header and trailer are all of the stream and hold nothing but zeros. -/
theorem encodedStream_empty (c : Config) :
    encodedStream c (Vector.replicate 256 0) [] = List.replicate (257 * c.intSize.bytes) 0 := by
  have hpacked : packBits [] = [] := rfl
  have htrailer : intBytes c (BitVec.ofNat 32 ([] : List Bool).length) = List.replicate c.intSize.bytes 0 :=
    intBytes_zero c
  rw [encodedStream, header_zero, hpacked, htrailer, List.append_nil, List.replicate_append_replicate, ← Nat.succ_mul]

/-- Two runs one after the other are one run. -/
theorem runsTo_append {cmds cmds' : List Instr} {s t u : State} (h : runsTo cmds s t) (h' : runsTo cmds' t u) :
    runsTo (cmds ++ cmds') s u := by
  rw [runsTo_iff] at h h' ⊢
  rw [h', h, effects_withHost, effects_append]
  rfl

/-- Reading STATUS after a completed decode session (43_decoder.md R197, 49_host_contract.md R251 step 7). -/
theorem effect_rdreg_status {s : State} (hp : s.phase = .idle) (hd : s.ddone = true) :
    effect (.rdreg 1) s = respond decodeComplete s := by
  have hword : regword 1 s = statusWord s := rfl
  rw [effect_rdreg, hword, statusWord, hp, hd]
  rfl

/-- HCLR and an encode session without a symbol. -/
theorem runsTo_encode_empty {s : State} (hp : s.phase = .idle) :
    ∃ t, runsTo [.hclr, .ebegin, .eend] s t ∧
      t.out = s.out ++ List.replicate (257 * s.config.intSize.bytes) 0 ∧ t.rsp = s.rsp ++ [0] ∧ t.phase = .idle := by
  have hclr : effect .hclr s = clearFreq s := effect_legal (by rw [hp]; rfl)
  have hencode := effects_encode [] (s := clearFreq s) hp (Nat.zero_le _)
  refine ⟨_, runsTo_of_effects ((congrArg (effects [.ebegin, .eend]) hclr).trans hencode), ?_, rfl, hp⟩
  exact congrArg (s.out ++ ·) (encodedStream_empty s.config)

/-- DBEGIN with bit count 0 completes at once (43_decoder.md R191). -/
theorem runsTo_decode_empty {s : State} (hp : s.phase = .idle) {root : BitVec 16} {k : NodeIdx}
    (hk : root.toNat = k.val) :
    ∃ t, runsTo [.dbegin root 0, .rdreg 1] s t ∧ t.out = s.out ∧ t.rsp = s.rsp ++ [decodeComplete] ∧
      t.phase = .idle ∧ t.ddone = true ∧ t.root = k ∧ t.cursor = k ∧ t.dcnt = 0 ∧ t.dbytes = 0 := by
  have hdbegin := (effect_dbegin hp hk (total := 0) (Nat.zero_le _)).trans (if_pos rfl)
  refine ⟨_, runsTo_of_effects ((congrArg (effect (.rdreg 1)) hdbegin).trans (effect_rdreg_status hp rfl)), ?_⟩
  exact ⟨rfl, rfl, hp, rfl, rfl, rfl, rfl, rfl⟩

/-- Settles O50: the zero header and trailer are the whole stream, and DBEGIN with bit count 0 opens no session. -/
theorem emptyInputRoundTrip : Obligations.EmptyInputRoundTrip := by
  intro s root hp hroot
  obtain ⟨k, hk⟩ := exists_nodeIndexOperand hroot
  have hval := nodeIndexOperand_eq_some.mp hk
  obtain ⟨t, hencode, hout, hrsp, hidle⟩ := runsTo_encode_empty hp
  obtain ⟨u, hdecode, hout', hrsp', hidle', hdone, rfl, hcursor, hdcnt, hdbytes⟩ := runsTo_decode_empty hidle hval
  refine ⟨u, runsTo_append hencode hdecode, hout'.trans hout, ?_, hidle', hdone, hcursor, hval.symm, hdcnt, hdbytes⟩
  rw [hrsp', hrsp, List.append_assoc]
  rfl

/-! ## The round trip with the host (49_host_contract.md R250, R251, R255) -/

/-- Loading the code table of a tree (49_host_contract.md R245). -/
theorem effects_treeCodes {tree : Tree} (htree : tree.symbols.Perm allSymbols) {s : State} (hp : s.phase = .idle) :
    ∃ code, effects tree.loadCodes s = { s with code := code } ∧
      ∀ b, readCode b { s with code := code } = tree.codeOf b := by
  obtain ⟨code, hload, hread⟩ := effects_loadCodes tree.codeOf (Tree.codeOf_length_le htree) allSymbols hp
  exact ⟨code, hload, fun b => (hread b).trans (if_pos (mem_allSymbols b))⟩

theorem codeBits_of_readCode {s : State} {codeOf : Byte → List Bool} (h : ∀ b, readCode b s = codeOf b)
    (input : List Byte) : codeBits s input = input.flatMap codeOf := by
  rw [codeBits, funext h]

/-- Steps 4 and 5 of encoding write the stream of the code words in the tree (49_host_contract.md R250). -/
theorem runsTo_coding {tree : Tree} (htree : tree.symbols.Perm allSymbols) {s : State} (hp : s.phase = .idle)
    {input : List Byte} (hl : (input.flatMap tree.codeOf).length ≤ s.config.maxCount) :
    ∃ t, runsTo (tree.loadCodes ++ encodeSession input) s t ∧
      t.out = s.out ++ encodedStream s.config s.freq (input.flatMap tree.codeOf) ∧
      t.config = s.config ∧ t.phase = .idle ∧ t.fc = s.fc := by
  obtain ⟨code, hload, hread⟩ := effects_treeCodes htree hp
  have hloaded := runsTo_of_effects hload
  have hbits : codeBits (withHost [] { s with code := code }) input = input.flatMap tree.codeOf :=
    codeBits_of_readCode hread input
  obtain ⟨t, hencode, hout, hconfig, -, hidle, hfc⟩ :=
    runsTo_encodeSession (s := withHost [] { s with code := code }) hp (hbits.symm ▸ hl)
  rw [hbits] at hout
  exact ⟨t, runsTo_append hloaded hencode, hout, hconfig, hidle, hfc⟩

/-- Loading a tree: NODE then has a path from the root to the leaf of every symbol (49_host_contract.md R251 step 4). -/
theorem runsTo_load {tree : Tree} (htree : tree.symbols.Perm allSymbols) {s : State} (hp : s.phase = .idle) :
    ∃ (t : State) (k : NodeIdx), runsTo (tree.load 0) s t ∧ (BitVec.ofNat 16 (tree.rootIndex 0)).toNat = k.val ∧
      (∀ b, pathTo t b (tree.codeOf b) k) ∧ t = { s with node := t.node, host := [] } := by
  have hsize := Tree.size_of_allSymbols htree
  obtain ⟨node, hload, hrep, -⟩ := effects_load tree (n := 0) (by omega) hp
  have hroot : tree.rootIndex 0 < 511 := by rw [Tree.rootIndex]; omega
  refine ⟨_, ⟨tree.rootIndex 0, hroot⟩, runsTo_of_effects hload, ofNat_toNat hroot, fun b => ?_, rfl⟩
  have hpath := hrep.pathTo (k := ⟨tree.rootIndex 0, hroot⟩) rfl (Tree.codeOf_mem_codes htree b)
    (Tree.codeOf_ne_nil htree b)
  exact pathTo_congr (by rfl) hpath

/-- Decoding the stream of an input's code words in a tree NODE holds, whatever CODE holds: in the state with the tree's
code table the two tables agree, and the decoder does not look at CODE. -/
theorem runsTo_decodeSession {tree : Tree} (htree : tree.symbols.Perm allSymbols) {s : State} {c : Config}
    (hc : s.config = c) (hp : s.phase = .idle) {root : BitVec 16} {k : NodeIdx} (hk : root.toNat = k.val)
    (hpath : ∀ b, pathTo s b (tree.codeOf b) k) (freq : Vector Word 256) {input stream : List Byte}
    (hstream : stream = encodedStream c freq (input.flatMap tree.codeOf))
    (hl : (input.flatMap tree.codeOf).length ≤ c.maxCount) :
    ∃ t, runsTo (decodeSession root (trailerOf c stream) (packedOf c stream)) s t ∧
      t.out = s.out ++ input ∧ t.phase = .idle ∧ t.ddone = true ∧ t.fc = s.fc := by
  obtain ⟨code, -, hread⟩ := effects_treeCodes htree hp
  have hbits := codeBits_of_readCode hread input
  have hagree : tablesAgree { s with code := code } k input := fun b _ => by
    rw [hread b]
    exact pathTo_congr (by rfl) (hpath b)
  have hdecode := effects_decode_encodedStream (s := { s with code := code }) hc rfl hp hk hagree freq (by rwa [hbits])
  rw [hbits, ← hstream] at hdecode
  exact ⟨_, runsTo_of_effects hdecode, rfl, hp, rfl, rfl⟩

/-- Steps 4 to 7 of decoding the stream of an input's code words in a tree (49_host_contract.md R251). -/
theorem runsTo_decoding {tree : Tree} (htree : tree.symbols.Perm allSymbols) {s : State} {c : Config}
    (hc : s.config = c) (hp : s.phase = .idle) (freq : Vector Word 256) {input stream : List Byte}
    (hstream : stream = encodedStream c freq (input.flatMap tree.codeOf))
    (hl : (input.flatMap tree.codeOf).length ≤ c.maxCount) :
    ∃ t, runsTo (tree.load 0 ++ decodeSession (BitVec.ofNat 16 (tree.rootIndex 0)) (trailerOf c stream)
        (packedOf c stream) ++ [.rdreg 1]) s t ∧
      t.out = s.out ++ input ∧ t.rsp.getLast? = some decodeComplete ∧ t.phase = .idle ∧ t.fc = s.fc := by
  obtain ⟨t, k, hload, hroot, hpath, hframe⟩ := runsTo_load htree hp
  obtain ⟨u, hdecode, hout, hidle, hdone, hfc⟩ := runsTo_decodeSession htree (s := t) (by rw [hframe, hc])
    (by rw [hframe, hp]) hroot hpath freq hstream hl
  have hstatus := runsTo_of_effects (cmds := [.rdreg 1]) (effect_rdreg_status hidle hdone)
  refine ⟨_, runsTo_append (runsTo_append hload hdecode) hstatus, ?_, List.getLast?_concat, hidle, ?_⟩
  · exact hout.trans (by rw [hframe])
  · exact hfc.trans (by rw [hframe])

/-- The round trip from the counts in FREQ: the decoding host finds them in the header and so builds the tree the
encoding host built. -/
theorem roundTrip_of_counts {s : State} (hp : s.phase = .idle) {counts : Byte → Nat}
    (hread : ∀ b, (readFreq b s).toNat = counts b) (hcounts : ∀ b, counts b ≤ s.config.maxCount) {tie : TieBreak}
    {input : List Byte}
    (hl : ∀ tree, buildTree tie counts = some tree → (input.flatMap tree.codeOf).length ≤ s.config.maxCount) :
    ∃ t u stream coding decoding, codingCommands tie counts input = some coding ∧
      runsTo coding s t ∧ t.out = s.out ++ stream ∧
      decodingCommands tie s.config stream = some decoding ∧
      runsTo decoding t u ∧ u.out = t.out ++ input ∧
      u.rsp.getLast? = some decodeComplete ∧ u.phase = .idle ∧ u.fc = s.fc := by
  obtain ⟨tree, hbuild, htree, -⟩ := buildTree_some tie counts
  have hl := hl tree hbuild
  obtain ⟨t, hcoding, hout, hconfig, hidle, hfc⟩ := runsTo_coding htree hp hl
  obtain ⟨u, hdecoding, hout', hlast, hidle', hfc'⟩ := runsTo_decoding htree hconfig hidle s.freq rfl hl
  have hheader : headerOf s.config (encodedStream s.config s.freq (input.flatMap tree.codeOf)) = counts := by
    funext b
    have hfits := (hread b).trans_le (hcounts b) |>.trans_lt s.config.maxCount_lt
    exact (headerOf_encodedStream s.config s.freq _ hfits).trans (hread b)
  refine ⟨t, u, _, _, _, ?_, hcoding, hout, ?_, hdecoding, hout', hlast, hidle', hfc'.trans hfc⟩
  · rw [codingCommands, hbuild, Option.map_some]
  · rw [decodingCommands, if_pos (by rw [encodedStream_length]; omega), hheader, hbuild, Option.map_some]

/-- Settles O52: counting leaves the counts in FREQ and in the responses, from which the round trip goes on. -/
theorem roundTripWithTheHost : Obligations.RoundTripWithTheHost := by
  intro s tie input hp hlen hl
  have hcounts : ∀ b, input.count b ≤ s.config.maxCount := fun b => List.count_le_length.trans hlen
  have hword : ∀ b, (BitVec.ofNat 32 (input.count b)).toNat = input.count b := fun b => toNat_bitCount (hcounts b)
  obtain ⟨freq, hcount, hread⟩ := effects_countingCommands hp hcounts hword
  obtain ⟨u, v, stream, coding, decoding, hbuild, hrest⟩ :=
    roundTrip_of_counts (s := withHost [] (withRsp _ { s with freq := freq })) hp
      (fun b => (congrArg BitVec.toNat (hread b)).trans (hword b)) hcounts hl
  refine ⟨_, u, v, stream, coding, decoding, runsTo_of_effects hcount, ?_, hrest⟩
  have hresponses : countsOf ((s.rsp ++ allSymbols.map fun b => BitVec.ofNat 32 (input.count b)).drop s.rsp.length) =
      fun b => input.count b := by
    rw [List.drop_left, countsOf_allSymbols]
    exact funext hword
  exact (congrArg (codingCommands tie · input) hresponses).trans hbuild

/-- Settles O54: loading leaves the counts in FREQ, from which the round trip goes on. -/
theorem roundTripWithLoadedCounts : Obligations.RoundTripWithLoadedCounts := by
  intro s tie counts input hp hcounts hl
  obtain ⟨freq, hload, hread⟩ := effects_loadingCommands counts hp hcounts
  obtain ⟨u, v, stream, coding, decoding, hbuild, hcoding, hrest⟩ :=
    roundTrip_of_counts (s := withHost [] { s with freq := freq }) hp (fun b => congrArg BitVec.toNat (hread b))
      hcounts hl
  exact ⟨u, v, stream, coding, decoding, hbuild, runsTo_append (runsTo_of_effects hload) hcoding, hrest⟩

end Sys2Proof.Machine
end

section
/-! The family 60_exceptions.md: what a fault records and leaves unchanged, phase FAULT and the ways out of it, and the
order of the checks. -/

namespace Sys2Proof.Machine

/-! ## The operand check (check 3 of 60_exceptions.md R273) -/

/-- The operand an IllegalOperand fault records (60_exceptions.md R271, R273): the first that is out of range, in
the order of the command's rule. It says something only of a command that is not `Instr.wellFormed`. -/
def offendingOperand : Instr → Word
  | .hld _ v => v
  | .nld n _ l r =>
    if 510 < n.toNat then n.setWidth 32 else if 511 < l.toNat then l.setWidth 32 else r.setWidth 32
  | .dbegin root total => if 510 < root.toNat then root.setWidth 32 else total
  | _ => 0

theorem loadNode_of_illegal {n l r : BitVec 16} (v : Byte) (s : State)
    (h : ¬ (n.toNat ≤ 510 ∧ l.toNat ≤ 511 ∧ r.toNat ≤ 511)) :
    loadNode n v l r s = raiseFault .illegalOperand Opcode.nld.byte (offendingOperand (.nld n v l r)) s := by
  simp only [offendingOperand]
  split_ifs with hn hl
  · exact loadNode_of_index_gt hn
  · exact loadNode_of_left_gt (Nat.le_of_not_lt hn) hl
  · exact loadNode_of_right_gt (by omega) (by omega) (by omega)

theorem openDecode_of_illegal {root : BitVec 16} {total : Word} {s : State}
    (h : ¬ (root.toNat ≤ 510 ∧ total.toNat ≤ s.config.maxCount)) :
    openDecode root total s =
      raiseFault .illegalOperand Opcode.dbegin.byte (offendingOperand (.dbegin root total)) s := by
  simp only [offendingOperand]
  split_ifs with hroot
  · exact openDecode_of_root_gt hroot
  · exact openDecode_of_total_gt (by omega) (by omega)

/-- With an operand out of range a command's action is IllegalOperand with that operand. -/
theorem action_of_not_wellFormed {i : Instr} {s : State} (h : i.wellFormed s.config = false) :
    action i s = raiseFault .illegalOperand i.opcode.byte (offendingOperand i) s := by
  cases i <;> simp only [Instr.wellFormed, reduceCtorEq] at h
  case hld k v => exact loadCount_of_gt (by simpa [countLegal] using h)
  case nld n v l r =>
    refine loadNode_of_illegal v s fun hlegal => ?_
    simp [nodeIndexLegal, childLegal, hlegal] at h
  case dbegin root total =>
    refine openDecode_of_illegal fun hlegal => ?_
    simp [nodeIndexLegal, countLegal, hlegal] at h

theorem loadNode_of_legal {n l r : BitVec 16} (v : Byte) (s : State) (hn : n.toNat ≤ 510) (hl : l.toNat ≤ 511)
    (hr : r.toNat ≤ 511) : ∃ k e, loadNode n v l r s = writeNode k e s := by
  obtain ⟨k, hk⟩ := exists_nodeIndexOperand hn
  obtain ⟨left, hleft⟩ := exists_childOperand hl
  obtain ⟨right, hright⟩ := exists_childOperand hr
  exact ⟨k, { value := v, left := left, right := right }, by simp only [loadNode, hk, hleft, hright]⟩

theorem openDecode_phase_of_legal {root : BitVec 16} {total : Word} {s : State} (hroot : root.toNat ≤ 510)
    (htotal : total.toNat ≤ s.config.maxCount) :
    (openDecode root total s).phase = if total = 0 then s.phase else .dec := by
  obtain ⟨k, hk⟩ := exists_nodeIndexOperand hroot
  simp only [openDecode, hk, countOperand_eq_some.mpr ⟨htotal, rfl⟩]
  split <;> rfl

/-! ## What a command that raises a fault does (60_exceptions.md R275, R276) -/

/-- DBYTE raised Corruption: the bits before the offending one moved CURSOR, DCNT and OUT, and no other field differs from
`s` when the fault is taken (60_exceptions.md R276). -/
def RaisesCorruption (i : Instr) (s t : State) : Prop :=
  ∃ b cursor dcnt out, i = .dbyte b ∧ s.out <+: out ∧
    t = raiseFault .corruption i.opcode.byte s.dbytes { s with cursor := cursor, dcnt := dcnt, out := out }

/-- The faults of a command's own condition (check 4 of 60_exceptions.md R273): with its operands in range an action
raises nothing but these, the first three before any effect. -/
theorem action_faults_of_wellFormed {i : Instr} {s : State} (hwf : i.wellFormed s.config = true)
    (hs : s.phase ≠ .fault) (hf : (action i s).phase = .fault) :
    (∃ cause ∈ [Cause.histOverflow, .codeTooLong, .bitcountOverflow], ∃ info,
      action i s = raiseFault cause i.opcode.byte info s) ∨ RaisesCorruption i s (action i s) := by
  cases i <;> simp only [action] at hf ⊢
  case rst => exact nomatch hf
  case hacc b =>
    rcases countSymbol_cases b s with e | e
    · exact .inl ⟨_, by decide, _, e⟩
    · rw [e] at hf
      exact absurd hf hs
  case hld k v =>
    rw [loadCount_of_le (of_decide_eq_true hwf)] at hf
    exact absurd hf hs
  case capp b bit =>
    rcases appendCodeBit_cases b bit s with e | e
    · exact .inl ⟨_, by decide, _, e⟩
    · rw [e] at hf
      exact absurd hf hs
  case nld n v l r =>
    simp only [Instr.wellFormed, Bool.and_eq_true, nodeIndexLegal, childLegal, decide_eq_true_eq] at hwf
    obtain ⟨⟨hn, hl⟩, hr⟩ := hwf
    obtain ⟨k, entry, e⟩ := loadNode_of_legal v s hn hl hr
    rw [e] at hf
    exact absurd hf hs
  case ebegin => exact nomatch hf
  case esym b =>
    rcases encodeSymbol_cases b s with e | ⟨e, -⟩
    · exact .inl ⟨_, by decide, _, e⟩
    · rw [e] at hf
      exact absurd hf hs
  case eend =>
    obtain ⟨e, -⟩ := closeEncode_frame s
    rw [e] at hf
    exact nomatch hf
  case dbegin root total =>
    simp only [Instr.wellFormed, Bool.and_eq_true, nodeIndexLegal, countLegal, decide_eq_true_eq] at hwf
    obtain ⟨hroot, htotal⟩ := hwf
    rw [openDecode_phase_of_legal hroot htotal] at hf
    split at hf
    · exact absurd hf hs
    · exact nomatch hf
  case dbyte b =>
    rcases decodeByte_frame b s with ⟨t, ht, hout, e⟩ | ⟨t, -, -, e⟩
    · exact .inr ⟨b, t.cursor, t.dcnt, t.out, rfl, hout, by rw [e, ← ht]; rfl⟩
    · rw [e] at hf
      dsimp only at hf
      split at hf
      · exact nomatch hf
      · exact absurd hf hs
  all_goals exact absurd hf hs

/-- Everything a command that raises a fault can do: take the fault before any effect, or run into Corruption. -/
theorem effect_faults {i : Instr} {s : State} (hs : s.phase ≠ .fault) (hf : (effect i s).phase = .fault) :
    (∃ cause info, cause ≠ .corruption ∧ effect i s = raiseFault cause i.opcode.byte info s) ∨
    RaisesCorruption i s (effect i s) := by
  rcases effect_cases i s with ⟨-, e⟩ | ⟨-, hp, -⟩ | ⟨-, -, e⟩
  · rw [e] at hf ⊢
    cases hwf : i.wellFormed s.config with
    | false => exact .inl ⟨_, _, by decide, action_of_not_wellFormed hwf⟩
    | true =>
      refine (action_faults_of_wellFormed hwf hs hf).imp_left fun ⟨cause, hcause, info, e⟩ => ⟨cause, info, ?_, e⟩
      rintro rfl
      exact absurd hcause (by decide)
  · exact absurd hp hs
  · exact .inl ⟨_, _, by decide, e⟩

/-- Settles O40: by the two ways a command can raise a fault. -/
theorem faultsArePrecise : Obligations.FaultsArePrecise := by
  intro i s t hs h hf
  cases (exec_eq i s).symm.trans h
  rcases effect_faults hs hf with ⟨cause, info, hne, e⟩ | ⟨b, cursor, dcnt, out, hi, hout, e⟩ <;> rw [e]
  · exact ⟨rfl, rfl, rfl, nofun, fun _ => rfl, fun hc => absurd (Option.some.inj hc) hne⟩
  · exact ⟨rfl, rfl, rfl, nofun, fun hc => absurd rfl hc, fun _ => ⟨⟨b, hi⟩, rfl, hout, rfl⟩⟩

/-! ## Phase FAULT (60_exceptions.md R277, R278) -/

theorem step_encode {s : State} {i : Instr} {rest : List HostAction} (hhost : s.host = .command (encode i) :: rest) :
    step s = exec i { s with host := rest } :=
  (step_command hhost (decode_word i)).trans (exec_eq i _).symm

/-- Everything a word can do in phase FAULT: act as RST or as an RDREG, or be dropped. -/
theorem step_word_in_fault {s : State} {w : Command} {rest : List HostAction} (hp : s.phase = .fault)
    (hhost : s.host = .command w :: rest) :
    (w = 0x0100000000000000 ∧ step s = .next (resetControl { s with host := rest })) ∨
    (∃ r : Byte, w = 0x02#8 ++ r ++ 0#48 ∧ step s = .next (respond (regword r s) { s with host := rest })) ∨
    step s = .next { s with host := rest } := by
  cases hd : decode w with
  | error e =>
    rw [step_illegal hhost hd]
    rcases illegalWord_cases w { s with host := rest } with ⟨-, hdrop⟩ | ⟨hsession, -⟩
    · exact .inr (.inr (congrArg _ hdrop))
    · exact absurd hp hsession
  | ok i =>
    have hw := encode_of_decode hd
    rw [step_command hhost hd]
    rcases effect_in_fault (s := { s with host := rest }) hp i with hdrop | ⟨rfl, hact⟩ | ⟨r, rfl, hact⟩
    · exact .inr (.inr (congrArg _ hdrop))
    · exact .inl ⟨hw.symm.trans encode_rst, congrArg _ hact⟩
    · exact .inr (.inl ⟨r, hw.symm.trans (encode_rdreg r), congrArg _ hact⟩)

/-- Settles O41: a word that acts is RST's or an RDREG's, and each of those words is its command's encoding. -/
theorem faultPhaseDropsOtherWords : Obligations.FaultPhaseDropsOtherWords := by
  intro s w rest hp hhost
  refine ⟨fun hrst hrdreg => ?_, ?_, ?_⟩
  · rcases step_word_in_fault hp hhost with ⟨hw, -⟩ | ⟨r, hw, -⟩ | hdrop
    · exact absurd hw hrst
    · exact absurd hw (hrdreg r)
    · exact hdrop
  · rintro rfl
    exact step_encode (encode_rst ▸ hhost)
  · rintro r rfl
    exact step_encode (encode_rdreg r ▸ hhost)

/-- Nothing presented, nothing done (60_exceptions.md R293). -/
theorem step_of_host_nil {s : State} (hhost : s.host = []) : step s = .next s := by
  rw [step, hhost]

theorem step_of_host_hardwareReset {s : State} {rest : List HostAction} (hhost : s.host = .hardwareReset :: rest) :
    step s = .next (hardwareReset { s with host := rest }) := by
  rw [step, hhost]

theorem step_of_host_rst {s : State} {rest : List HostAction} (hhost : s.host = .command 0x0100000000000000 :: rest) :
    step s = .next (resetControl { s with host := rest }) :=
  (step_command hhost (encode_rst ▸ decode_word .rst)).trans (congrArg _ (effect_rst _))

/-- Settles O42: in phase FAULT a step that neither resets the block nor runs RST keeps PHASE. -/
theorem onlyRstOrResetLeavesFault : Obligations.OnlyRstOrResetLeavesFault := by
  intro s t hp h
  constructor
  · intro hleft
    cases hhost : s.host with
    | nil =>
      cases (step_of_host_nil hhost).symm.trans h
      exact absurd hp hleft
    | cons a rest =>
      refine ⟨rest, ?_⟩
      cases a with
      | hardwareReset => exact .inr rfl
      | command w =>
        rcases step_word_in_fault hp hhost with ⟨rfl, -⟩ | ⟨r, -, hact⟩ | hdrop
        · exact .inl rfl
        · cases hact.symm.trans h
          exact absurd hp hleft
        · cases hdrop.symm.trans h
          exact absurd hp hleft
  · rintro ⟨rest, hhost | hhost⟩
    · cases (step_of_host_rst hhost).symm.trans h
      exact ⟨rfl, rfl, rfl, rfl, rfl, rfl, rfl, rfl, rfl, rfl, rfl, rfl, rfl, rfl⟩
    · cases (step_of_host_hardwareReset hhost).symm.trans h
      exact ⟨rfl, rfl, rfl, rfl, rfl, rfl, rfl, rfl, rfl, rfl, rfl, rfl, rfl, rfl⟩

/-! ## The order of the checks (60_exceptions.md R273) -/

theorem opField_of_decode {w : Command} {i : Instr} (h : decode w = .ok i) : opField w = i.opcode.byte := by
  rw [← encode_of_decode h, encode_opField]

theorem effect_of_not_wellFormed {i : Instr} {s : State} (hphase : legalIn i.opcode s.phase = true)
    (hwf : i.wellFormed s.config = false) :
    effect i s = raiseFault .illegalOperand i.opcode.byte (offendingOperand i) s :=
  (effect_legal hphase).trans (action_of_not_wellFormed hwf)

/-- The causes left to a command that passes the phase check and the operand check. -/
theorem fc_of_effect_fault {i : Instr} {s : State} (hphase : legalIn i.opcode s.phase = true)
    (hwf : i.wellFormed s.config = true) (hs : s.phase ≠ .fault) (hf : (effect i s).phase = .fault) :
    (effect i s).fc = some .histOverflow ∨ (effect i s).fc = some .codeTooLong ∨
      (effect i s).fc = some .bitcountOverflow ∨ (effect i s).fc = some .corruption := by
  rw [effect_legal hphase] at hf ⊢
  rcases action_faults_of_wellFormed hwf hs hf with ⟨cause, hcause, info, e⟩ | ⟨_, _, _, _, -, -, e⟩
  · rw [e, raiseFault_fc]
    simp only [List.mem_cons, List.not_mem_nil, or_false] at hcause
    rcases hcause with rfl | rfl | rfl <;> simp
  · exact .inr (.inr (.inr (congrArg State.fc e)))

/-- Settles O44: the decoder, the phase check, the operand check and the command's own condition, each asked only when the
checks before it pass. -/
theorem orderOfChecks : Obligations.OrderOfChecks := by
  intro s w rest hs hhost
  cases hd : decode w with
  | error e =>
    rcases illegalWord_cases w { s with host := rest } with ⟨hp, -⟩ | ⟨-, hraise⟩
    · exact absurd hp hs
    · exact (step_illegal hhost hd).trans (congrArg _ hraise)
  | ok i =>
    have hop := opField_of_decode hd
    rw [step_command hhost hd, show w.extractLsb' 56 8 = i.opcode.byte from hop]
    refine ⟨fun hphase => ?_, fun hphase hwf => ?_, fun hphase hwf t ht hf => ?_⟩
    · exact congrArg _ (whenLegal_seqError hphase hs)
    · exact congrArg _ (effect_of_not_wellFormed (s := { s with host := rest }) hphase hwf)
    · cases ht
      exact fc_of_effect_fault (s := { s with host := rest }) hphase hwf hs hf

end Sys2Proof.Machine
end

section
/-! The family 70_reset_and_hazards.md: RST against hardware reset. -/

namespace Sys2Proof.Machine

/-- RST gives the control registers the values of any hardware reset, whose number decides the tables alone
(70_reset_and_hazards.md R310, R312). -/
theorem resetControl_eq_afterReset (n : Nat) (s : State) :
    resetControl s =
      { State.afterReset s.config n with
        freq := s.freq, code := s.code, node := s.node, out := s.out, rsp := s.rsp, host := s.host
        resets := s.resets } := rfl

/-- Settles O13: RST, legal in every phase, acts as `resetControl`, which is hardware reset on the control registers. -/
theorem rstResetsTheControlRegisters : Obligations.RstResetsTheControlRegisters := by
  intro s
  rw [exec_eq, effect_rst, resetControl_eq_afterReset 0]

end Sys2Proof.Machine
end

section
/-! What every step keeps, the words and steps of the machine, the histogram, the decode session, and the transitions of
PHASE. -/

namespace Sys2Proof.Machine

/-! ## Every step keeps the invariant (10_state.md section 7) -/

theorem Inv.effect {s : State} (hi : Inv s) (i : Instr) : Inv (effect i s) := by
  rcases effect_cases i s with ⟨hlegal, e⟩ | ⟨-, -, e⟩ | ⟨-, hsession, e⟩ <;> rw [e]
  · exact hi.action i hlegal
  · exact hi
  · exact hi.raiseFault hsession (by decide) _ _

theorem Inv.illegalWord {s : State} (hi : Inv s) (w : Command) : Inv (illegalWord w s) := by
  rcases illegalWord_cases w s with ⟨-, e⟩ | ⟨hsession, e⟩ <;> rw [e]
  · exact hi
  · exact hi.raiseFault hsession (by decide) _ _

/-- Hardware reset restores the invariant from any state, one that does not meet it included. -/
theorem Inv.hardwareReset (s : State) : Inv (hardwareReset s) := Inv.afterReset s.config s.resets s.host

theorem Inv.step {s t : State} (hi : Inv s) (h : step s = .next t) : Inv t := by
  rcases step_cases s with ⟨-, e⟩ | ⟨rest, -, e⟩ | ⟨w, rest, i, -, -, e⟩ | ⟨w, rest, -, -, -, e⟩ <;>
    cases e.symm.trans h
  · exact hi
  · exact Inv.hardwareReset _
  · exact (hi.withHost rest).effect i
  · exact (hi.withHost rest).illegalWord w

/-- Settles O10: by what a step can do, each outcome keeping the invariant. -/
theorem invariantIsKeptByEveryStep : Obligations.InvariantIsKeptByEveryStep := fun _ _ => Inv.step

/-- Settles O9: `State.reset` is the reset with the default parameters and nothing presented. -/
theorem invariantHoldsAtReset : Obligations.InvariantHoldsAtReset :=
  ⟨Inv.afterReset, Inv.afterReset Config.standard 0 []⟩

theorem Reachable.inv {s : State} (h : Reachable s) : Inv s := by
  induction h with
  | reset c n actions => exact Inv.afterReset c n actions
  | step _ h ih => exact ih.step h

/-- The FAULT output shows PHASE alone (10_state.md R50). -/
theorem faultOutput_eq_true_iff {s : State} : faultOutput s = true ↔ s.phase = .fault := beq_iff_eq

/-- Settles O11: a reachable state meets the invariant, which names these relations. -/
theorem sessionRegistersStayConsistent : Obligations.SessionRegistersStayConsistent := by
  intro s h
  have hi := h.inv
  exact ⟨fun hp => ⟨hi.enc_nacc hp, hi.enc_acc hp⟩, hi.dcnt_le, hi.dec_open, hi.dec_closed, hi.dec_corrupt,
    hi.dec_cursor, faultOutput_eq_true_iff.trans hi.fault_recorded⟩

/-! ## Words and steps (30_encoding.md R94; 00_scope.md R9, R14; 70_reset_and_hazards.md R310) -/

theorem decode_of_encode_eq {w : Command} {i : Instr} (h : encode i = w) : decode w = .ok i := h ▸ decode_word i

/-- Settles O1: each legal word is the encoding of its command; the two illegal words have an `op` that is no command's
and, under the `op` of HACC, an `idx` field that is not 0. -/
theorem wordsOfTheSpecDecode : Obligations.WordsOfTheSpecDecode :=
  ⟨decode_of_encode_eq (by decide), decode_of_encode_eq (by decide), decode_of_encode_eq (by decide),
    decode_of_encode_eq (by decide), decode_of_encode_eq (by decide), decode_of_encode_eq (by decide),
    decode_of_encode_eq (by decide), decode_of_encode_eq (by decide), decode_of_encode_eq (by decide),
    decode_of_encode_eq (by decide), decode_of_encode_eq (by decide),
    decode_reservedOpcode fun o => by cases o <;> decide,
    decode_reservedField (o := .hacc) (by decide) (by decide)⟩

theorem step_of_decode {s : State} {w : Command} {rest : List HostAction} {i : Instr}
    (hhost : s.host = .command w :: rest) (hd : decode w = .ok i) : step s = exec i { s with host := rest } :=
  (step_command hhost hd).trans (exec_eq i _).symm

/-- A whole word fetched by its number is the word (log 12). -/
theorem withFetchWord_toNat_host (s : State) (w : Command) :
    (s.withFetchWord 64 w.toNat).host = .command w :: s.host := by
  simp only [State.withFetchWord, Nat.mod_eq_of_lt w.isLt, BitVec.ofNat_toNat, BitVec.setWidth_eq]

/-- Settles O5: the word of `withFetchWord` is taken from the head of what the host presents, which leaves the state it
was put into. -/
theorem stepRunsTheDecodedCommand : Obligations.StepRunsTheDecodedCommand :=
  ⟨fun _ _ _ _ => step_of_decode, fun _ => step_of_host_nil,
    fun s w _ => step_of_decode (withFetchWord_toNat_host s w)⟩

/-- Settles O8: a step that resets is `hardwareReset`, and the tables after it hold what their storage can hold. -/
theorem hardwareResetAtAnyTime : Obligations.HardwareResetAtAnyTime := fun s _ hhost =>
  ⟨_, step_of_host_hardwareReset hhost, rfl, rfl, rfl, rfl, rfl, rfl, readFreq_afterReset_lt s.config s.resets,
    readCode_afterReset_le s.config s.resets⟩

/-! ## The histogram function (40_histogram.md R130) -/

/-- Settles O20: the run is the fold of the commands' effects, which counts; the occurrences of all byte values sum to
the length. -/
theorem histogramCountsOccurrences : Obligations.HistogramCountsOccurrences := by
  intro s input hp hl
  obtain ⟨f, hrun, hcount⟩ := effects_hist input hp hl
  have hread : ∀ b, (readFreq b { s with freq := f, host := [] }).toNat = input.count b := hcount
  refine ⟨{ s with freq := f, host := [] }, runsTo_of_effects hrun, rfl, hread, ?_⟩
  simp only [hread, sum_count]

/-! ## What the decoder reads, and a decode session (43_decoder.md R190, R198) -/

/-- The phase check sees no table. -/
theorem whenLegal_withTables {freq : Vector Word 256} {code : Vector (List Bool) 256} {node : Vector Node 511}
    (o : Opcode) {act : State → State} {s : State}
    (h : act (withTables freq code node s) = withTables freq code node (act s)) :
    whenLegal o act (withTables freq code node s) = withTables freq code node (whenLegal o act s) := by
  rw [whenLegal, h, whenLegal, apply_ite (withTables freq code node), apply_ite (withTables freq code node)]
  rfl

/-- Settles O38: DBYTE writes no table, and its effect commutes with exchanging the tables for ones its walk cannot tell
apart. -/
theorem decoderReadsOnlyItsWalk : Obligations.DecoderReadsOnlyItsWalk := by
  intro s t b freq code node hle hsame h
  obtain ⟨-, hfreq, hcode, hnode⟩ := tablesChangeOnlyInIdle (.dbyte b) s t h
  have hwrites : Opcode.dbyte ∉ [Opcode.hclr, .hacc, .hld] ∧ Opcode.dbyte ∉ [Opcode.cclr, .capp] ∧
      Opcode.dbyte ≠ .nld := by decide
  obtain ⟨hnfreq, hncode, hnnode⟩ := hwrites
  refine ⟨not_imp_comm.mp hfreq hnfreq, not_imp_comm.mp hcode hncode, not_imp_comm.mp hnode hnnode, ?_⟩
  cases (exec_eq _ s).symm.trans h
  exact (exec_eq _ _).trans
    (congrArg _ (whenLegal_withTables .dbyte (decodeByte_withTables freq code node hle hsame)))

/-- Settles O39: the state at the end of the session; RSP gains one word for each RDREG, and DBEGIN is none. -/
theorem decodeSessionEmitsTheLeaves : Obligations.DecodeSessionEmitsTheLeaves := by
  rintro s root k total inner _ n emitted hp hk htotal hne hinner rfl hlen hwalk
  refine ⟨_, runsTo_of_effects (effects_decodeSession inner hinner hp hk htotal hne hlen hwalk), rfl, ?_⟩
  simp only [withHost, List.length_append, registerWords_length]
  rfl

/-! ## The transitions of PHASE (44_system.md R215) -/

/-- The commands that can move PHASE otherwise than by a fault, each in the phase it moves it from. -/
def MovesPhase (i : Instr) (p : Phase) : Prop :=
  i = .rst ∨ (p = .idle ∧ i = .ebegin) ∨ (p = .idle ∧ ∃ root total, i = .dbegin root total) ∨
    (p = .enc ∧ i = .eend) ∨ (p = .dec ∧ ∃ b, i = .dbyte b)

/-- A command that acts keeps PHASE, raises a fault, or is one of those that move it. -/
theorem action_phase {i : Instr} {s : State} (h : legalIn i.opcode s.phase = true) :
    (action i s).phase = s.phase ∨ (action i s).phase = .fault ∨ MovesPhase i s.phase := by
  cases i <;> simp only [Instr.opcode, legalIn, beq_iff_eq] at h <;> simp only [action]
  case rst => simp [MovesPhase]
  case hacc b =>
    rcases countSymbol_cases b s with e | e <;> rw [e]
    exacts [.inr (.inl rfl), .inl rfl]
  case hld k v =>
    rcases loadCount_cases k v s with e | e <;> rw [e]
    exacts [.inr (.inl rfl), .inl rfl]
  case capp b bit =>
    rcases appendCodeBit_cases b bit s with e | e <;> rw [e]
    exacts [.inr (.inl rfl), .inl rfl]
  case nld n v l r =>
    rcases loadNode_cases n v l r s with ⟨_, e⟩ | ⟨_, _, _, e⟩ <;> rw [e]
    exacts [.inr (.inl rfl), .inl rfl]
  case ebegin => simp [MovesPhase, h]
  case esym b =>
    rcases encodeSymbol_cases b s with e | ⟨e, -⟩ <;> rw [e]
    exacts [.inr (.inl rfl), .inl rfl]
  case eend => simp [MovesPhase, h]
  case dbegin root total => simp [MovesPhase, h]
  case dbyte b => simp [MovesPhase, h]
  all_goals exact .inl rfl

theorem effect_phase (i : Instr) (s : State) :
    (effect i s).phase = s.phase ∨ (effect i s).phase = .fault ∨ MovesPhase i s.phase := by
  rcases effect_cases i s with ⟨hlegal, e⟩ | ⟨-, -, e⟩ | ⟨-, -, e⟩ <;> rw [e]
  · exact action_phase hlegal
  · exact .inl rfl
  · exact .inr (.inl rfl)

theorem effect_dbegin_phase {s : State} (hp : s.phase = .idle) {root : BitVec 16} {total : Word}
    (hwf : (Instr.dbegin root total).wellFormed s.config = true) :
    (effect (.dbegin root total) s).phase = if total = 0 then .idle else .dec := by
  simp only [Instr.wellFormed, Bool.and_eq_true, nodeIndexLegal, countLegal, decide_eq_true_eq] at hwf
  obtain ⟨hroot, htotal⟩ := hwf
  rw [effect_legal (by rw [hp]; rfl), action, openDecode_phase_of_legal hroot htotal, hp]

theorem effect_eend_phase {s : State} (hp : s.phase = .enc) : (effect .eend s).phase = .idle :=
  congrArg State.phase (effect_legal (i := .eend) (by rw [hp]; rfl))

/-- DBYTE without a fault closes the session exactly when the bit count is reached. -/
theorem effect_dbyte_phase {s : State} (hp : s.phase = .dec) {b : Byte} (hf : (effect (.dbyte b) s).phase ≠ .fault) :
    (effect (.dbyte b) s).phase =
      if (effect (.dbyte b) s).dcnt = (effect (.dbyte b) s).dtotal then .idle else .dec := by
  have hact : effect (.dbyte b) s = decodeByte b s := effect_legal (by rw [hp]; rfl)
  rw [hact] at hf ⊢
  rcases decodeByte_frame b s with ⟨t, -, -, e⟩ | ⟨t, ht, -, e⟩
  · exact absurd (congrArg State.phase e) hf
  · have htotal : t.dtotal = s.dtotal := by rw [ht]
    simp only [e, htotal, hp]

/-- Phase FAULT stays under every command but RST (60_exceptions.md R277). -/
theorem effect_phase_of_fault {s : State} (hp : s.phase = .fault) {i : Instr} (hi : i ≠ .rst) :
    (effect i s).phase = .fault := by
  rcases effect_in_fault hp i with e | ⟨hrst, -⟩ | ⟨r, -, e⟩
  · rwa [e]
  · exact absurd hrst hi
  · rwa [e]

/-- Settles O45: the rows of the table one by one, and `effect_phase` for what stands in no row. -/
theorem phaseTransitions : Obligations.PhaseTransitions := by
  refine ⟨fun s rest hhost => ⟨_, step_of_host_hardwareReset hhost, rfl⟩, fun i s t h => ?_⟩
  cases (exec_eq i s).symm.trans h
  refine ⟨?ebegin, ?dbegin, ?eend, ?dbyte, ?rst, fun hp hi => effect_phase_of_fault hp hi, ?others⟩
  case ebegin =>
    rintro hp rfl
    rw [effect_ebegin hp]
    rfl
  case dbegin =>
    rintro hp root total rfl hwf
    exact effect_dbegin_phase hp hwf
  case eend =>
    rintro hp rfl
    exact effect_eend_phase hp
  case dbyte =>
    rintro hp ⟨b, rfl⟩ hf
    exact effect_dbyte_phase hp hf
  case rst =>
    rintro rfl
    rw [effect_rst]
    rfl
  case others => exact fun hne => (effect_phase i s).resolve_left hne

end Sys2Proof.Machine
end
